-- ==== Sys2Proof/Word.lean ====
section
/-! DEFINITION. The word types of the communication and persistence block: bytes, store addresses and
command words (spec/00_scope.md R7, spec/30_encoding.md R111). -/

namespace Sys2Proof

/-- A byte: 8 bits, unsigned (R7). Every data register, buffer slot, cell and wire unit is one byte (R83). -/
abbrev Byte := BitVec 8

/-- An address operand of a store command: 16 bits, unsigned (R6 `ADDR_W`, R82). -/
abbrev Addr := BitVec 16

/-- A command word on the `CMD` port: 32 bits (R110, R111). -/
abbrev Word := BitVec 32

end Sys2Proof
end

