-- ==== Sys2Proof/Syntax.lean ====
section
/-! DEFINITION. The syntax of the block: the peripherals of the bus and the 19 commands of
spec/opcode_table.json (spec/30_encoding.md R113), one constructor per row, in the table's order. -/

namespace Sys2Proof

/-- The operand `p` of `CS_SELECT` and `CS_DESELECT`: the peripheral device or the potentiometer
(R112 format `P`, R116). -/
inductive Periph where
  /-- the peripheral device, whose chip-select line is active low (R50) -/
  | pd
  /-- the potentiometer, whose chip-select line is active high (R50) -/
  | pot
  deriving DecidableEq, Repr, Inhabited

/-- One constructor per row of the opcode map (R113). Operands are bytes, a 16-bit address, a peripheral,
a token or the 23-bit baud field, used as they stand (R116). -/
inductive Instr where
  /-- `NV_READ addr` (R141) -/
  | nvRead (addr : Addr)
  /-- `NV_WRITE addr, v` (R142) -/
  | nvWrite (addr : Addr) (v : Byte)
  /-- `NV_UPDATE addr, v` (R143) -/
  | nvUpdate (addr : Addr) (v : Byte)
  /-- `SPI_XFER b` (R172) -/
  | spiXfer (b : Byte)
  /-- `CS_SELECT p` (R173) -/
  | csSelect (p : Periph)
  /-- `CS_DESELECT p` (R174) -/
  | csDeselect (p : Periph)
  /-- `PD_REGWRITE reg, data` (R176) -/
  | pdRegwrite (reg data : Byte)
  /-- `POT_WRITE w1, w2` (R177) -/
  | potWrite (w1 w2 : Byte)
  /-- `SER_INIT e, baud` (R200) -/
  | serInit (e : Bool) (baud : BitVec 23)
  /-- `SER_WRITE c` (R202) -/
  | serWrite (c : Byte)
  /-- `SER_READ` (R203) -/
  | serRead
  /-- `SER_AVAIL` (R204) -/
  | serAvail
  /-- `SER_OVERRUN` (R211) -/
  | serOverrun
  /-- `FAC_UPDATE_PD reg, data` (R250) -/
  | facUpdatePd (reg data : Byte)
  /-- `FAC_NOTIFY tag, data` (R251) -/
  | facNotify (tag data : Byte)
  /-- `FAC_UPDATE tag, reg, data` (R252) -/
  | facUpdate (tag reg data : Byte)
  /-- `FAC_SET_WIPER w1, w2` (R253) -/
  | facSetWiper (w1 w2 : Byte)
  /-- `IRQ_SUPPRESS` (R270) -/
  | irqSuppress
  /-- `IRQ_RESTORE t` (R271) -/
  | irqRestore (t : Bool)
  deriving DecidableEq, Repr, Inhabited

/-- The mnemonic of a command, as the opcode map spells it (R113). -/
def Instr.mnemonic (i : Instr) : String :=
  match i with
  | .nvRead _ => "NV_READ"
  | .nvWrite _ _ => "NV_WRITE"
  | .nvUpdate _ _ => "NV_UPDATE"
  | .spiXfer _ => "SPI_XFER"
  | .csSelect _ => "CS_SELECT"
  | .csDeselect _ => "CS_DESELECT"
  | .pdRegwrite _ _ => "PD_REGWRITE"
  | .potWrite _ _ => "POT_WRITE"
  | .serInit _ _ => "SER_INIT"
  | .serWrite _ => "SER_WRITE"
  | .serRead => "SER_READ"
  | .serAvail => "SER_AVAIL"
  | .serOverrun => "SER_OVERRUN"
  | .facUpdatePd _ _ => "FAC_UPDATE_PD"
  | .facNotify _ _ => "FAC_NOTIFY"
  | .facUpdate _ _ _ => "FAC_UPDATE"
  | .facSetWiper _ _ => "FAC_SET_WIPER"
  | .irqSuppress => "IRQ_SUPPRESS"
  | .irqRestore _ => "IRQ_RESTORE"

end Sys2Proof
end

