-- ==== Sys2Proof/WellFormed.lean ====
section
/-! DEFINITION. What is well formed: the words the opcode map gives a meaning (spec/30_encoding.md R113 to
R115), and the command terms. -/

namespace Sys2Proof

/-- One row of the opcode map: a word `w` is that command iff `w & mask == value` (R113). -/
structure OpcodeRow where
  mnemonic : String
  value : Word
  mask : Word
  deriving DecidableEq, Repr

/-- Does a word match a row of the map? (R113: `w & mask == match`) -/
def OpcodeRow.hits (r : OpcodeRow) (w : Word) : Bool :=
  w &&& r.mask == r.value

/-- The opcode map of R113, row by row. -/
def opcodeMap : List OpcodeRow :=
  [ ⟨"NV_READ",       0x10000000#32, 0xFF0000FF#32⟩,
    ⟨"NV_WRITE",      0x11000000#32, 0xFF000000#32⟩,
    ⟨"NV_UPDATE",     0x12000000#32, 0xFF000000#32⟩,
    ⟨"SPI_XFER",      0x20000000#32, 0xFFFFFF00#32⟩,
    ⟨"CS_SELECT",     0x21000000#32, 0xFFFFFFFE#32⟩,
    ⟨"CS_DESELECT",   0x22000000#32, 0xFFFFFFFE#32⟩,
    ⟨"PD_REGWRITE",   0x23000000#32, 0xFFFF0000#32⟩,
    ⟨"POT_WRITE",     0x24000000#32, 0xFFFF0000#32⟩,
    ⟨"SER_INIT",      0x30000000#32, 0xFF000000#32⟩,
    ⟨"SER_WRITE",     0x31000000#32, 0xFFFFFF00#32⟩,
    ⟨"SER_READ",      0x32000000#32, 0xFFFFFFFF#32⟩,
    ⟨"SER_AVAIL",     0x33000000#32, 0xFFFFFFFF#32⟩,
    ⟨"SER_OVERRUN",   0x34000000#32, 0xFFFFFFFF#32⟩,
    ⟨"FAC_UPDATE_PD", 0x40000000#32, 0xFFFF0000#32⟩,
    ⟨"FAC_NOTIFY",    0x41000000#32, 0xFFFF0000#32⟩,
    ⟨"FAC_UPDATE",    0x42000000#32, 0xFF000000#32⟩,
    ⟨"FAC_SET_WIPER", 0x43000000#32, 0xFFFF0000#32⟩,
    ⟨"IRQ_SUPPRESS",  0x50000000#32, 0xFFFFFFFF#32⟩,
    ⟨"IRQ_RESTORE",   0x51000000#32, 0xFFFFFFFE#32⟩ ]

/-- A command word is well formed iff it matches a row of the opcode map: its opcode is not reserved (R114)
and no reserved bit of its format is set (R115). -/
def wordWellFormed (w : Word) : Bool :=
  opcodeMap.any (·.hits w)

/-- Every command term is well formed: the operand types of `Instr` have exactly the widths and the legal
values of the formats of R112 (a byte, a 16-bit address, one of two peripherals, a 1-bit token, a 1-bit
echo flag, a 23-bit baud), so no operand out of range can be written, `SEL` value 3 and tokens other than
0 and 1 included (R115). An address above `MAX_ADDRESS` is well formed: the command answers it with a
status (R82). The check on raw words is `wordWellFormed`. -/
def Instr.wellFormed (i : Instr) : Bool :=
  match i with
  | .nvRead _ => true
  | .nvWrite _ _ => true
  | .nvUpdate _ _ => true
  | .spiXfer _ => true
  | .csSelect _ => true
  | .csDeselect _ => true
  | .pdRegwrite _ _ => true
  | .potWrite _ _ => true
  | .serInit _ _ => true
  | .serWrite _ => true
  | .serRead => true
  | .serAvail => true
  | .serOverrun => true
  | .facUpdatePd _ _ => true
  | .facNotify _ _ => true
  | .facUpdate _ _ _ => true
  | .facSetWiper _ _ => true
  | .irqSuppress => true
  | .irqRestore _ => true

end Sys2Proof
end

