-- ==== Sys2Proof/Decode.lean ====
section
/-! DEFINITION. The decoder of command words, total on every word and rejecting by name, and after it the
encoder, both written from the formats and opcodes of spec/30_encoding.md R111 to R116. -/

namespace Sys2Proof

/-- Why a command word is refused. -/
inductive DecodeError where
  /-- the opcode is not in the opcode map (R114) -/
  | reservedOpcode (op : Byte)
  /-- the opcode is in the map and a reserved bit of its format is 1 (R115) -/
  | reservedBits (w : Word)
  deriving DecidableEq, Repr

/-! ### Fields (R111, R112, R116) -/

/-- `CMD[31:24]`, the opcode. -/
def fieldOp (w : Word) : Byte := w.extractLsb' 24 8
/-- `CMD[23:16]`, `a` of format `BBB`. -/
def fieldHi (w : Word) : Byte := w.extractLsb' 16 8
/-- `CMD[15:8]`, `a` of format `BB` and `b` of format `BBB`. -/
def fieldMid (w : Word) : Byte := w.extractLsb' 8 8
/-- `CMD[7:0]`, the last byte operand. -/
def fieldLo (w : Word) : Byte := w.extractLsb' 0 8
/-- `CMD[23:8]`, the address, high byte in `CMD[23:16]`. -/
def fieldAddr (w : Word) : Addr := w.extractLsb' 8 16
/-- `CMD[0]`, the peripheral of format `P` or the token of format `T`. -/
def fieldBit (w : Word) : Bool := w.getLsbD 0
/-- `CMD[23]`, the echo flag of format `I`. -/
def fieldEcho (w : Word) : Bool := w.getLsbD 23
/-- `CMD[22:0]`, the baud of format `I`. -/
def fieldBaud (w : Word) : BitVec 23 := w.extractLsb' 0 23

/-- Operand `p`: 0 is the peripheral device, 1 the potentiometer (R116). -/
def periphOfBit (p : Bool) : Periph := if p then .pot else .pd

/-- A command, if the format's reserved bits are 0; else the word is refused (R115). -/
def ifReservedZero (w : Word) (zero : Bool) (i : Instr) : Except DecodeError Instr :=
  if zero then .ok i else .error (.reservedBits w)

/-- The command a word encodes: the opcode is `CMD[31:24]`, the operands are the fields of the opcode's
format, reserved bits must be 0, every other opcode is reserved (R111 to R116). -/
def decode (w : Word) : Except DecodeError Instr :=
  match (fieldOp w).toNat with
  | 0x10 => ifReservedZero w (fieldLo w == 0) (.nvRead (fieldAddr w))
  | 0x11 => .ok (.nvWrite (fieldAddr w) (fieldLo w))
  | 0x12 => .ok (.nvUpdate (fieldAddr w) (fieldLo w))
  | 0x20 => ifReservedZero w (fieldHi w == 0 && fieldMid w == 0) (.spiXfer (fieldLo w))
  | 0x21 => ifReservedZero w (w.extractLsb' 1 23 == 0) (.csSelect (periphOfBit (fieldBit w)))
  | 0x22 => ifReservedZero w (w.extractLsb' 1 23 == 0) (.csDeselect (periphOfBit (fieldBit w)))
  | 0x23 => ifReservedZero w (fieldHi w == 0) (.pdRegwrite (fieldMid w) (fieldLo w))
  | 0x24 => ifReservedZero w (fieldHi w == 0) (.potWrite (fieldMid w) (fieldLo w))
  | 0x30 => .ok (.serInit (fieldEcho w) (fieldBaud w))
  | 0x31 => ifReservedZero w (fieldHi w == 0 && fieldMid w == 0) (.serWrite (fieldLo w))
  | 0x32 => ifReservedZero w (w.extractLsb' 0 24 == 0) .serRead
  | 0x33 => ifReservedZero w (w.extractLsb' 0 24 == 0) .serAvail
  | 0x34 => ifReservedZero w (w.extractLsb' 0 24 == 0) .serOverrun
  | 0x40 => ifReservedZero w (fieldHi w == 0) (.facUpdatePd (fieldMid w) (fieldLo w))
  | 0x41 => ifReservedZero w (fieldHi w == 0) (.facNotify (fieldMid w) (fieldLo w))
  | 0x42 => .ok (.facUpdate (fieldHi w) (fieldMid w) (fieldLo w))
  | 0x43 => ifReservedZero w (fieldHi w == 0) (.facSetWiper (fieldMid w) (fieldLo w))
  | 0x50 => ifReservedZero w (w.extractLsb' 0 24 == 0) .irqSuppress
  | 0x51 => ifReservedZero w (w.extractLsb' 1 23 == 0) (.irqRestore (fieldBit w))
  | _ => .error (.reservedOpcode (fieldOp w))

/-- What the decoder reads from an instruction of `nbits` bits `w`, bit 0 the least significant bit of the
command word; the bits above `nbits` are 0. A command is one 32-bit word presented whole on the `CMD` port
(R110, R111: one length only), so there is no byte order to lay out, and a longer word is refused. -/
def decodeTableWord (nbits w : Nat) : Option Instr :=
  let bits := w % 2 ^ nbits
  if bits < 2 ^ 32 then (decode (BitVec.ofNat 32 bits)).toOption else none

/-! ### The encoder -/

/-- Operand `p` as its bit (R112 format `P`). -/
def bitOfPeriph (p : Periph) : Bool :=
  match p with
  | .pd => false
  | .pot => true

/-- A field with its lowest bit at bit `lo` of the command word, every other bit 0. -/
def place {n : Nat} (x : BitVec n) (lo : Nat) : Word := x.setWidth 32 <<< lo

/-- Formats `B` and `Z` (with `b = 0`): one byte in `CMD[7:0]` (R112). -/
def formatB (op b : Byte) : Word := place op 24 ||| place b 0
/-- Format `BB`: `a` in `CMD[15:8]`, `b` in `CMD[7:0]` (R112). -/
def formatBB (op a b : Byte) : Word := place op 24 ||| place a 8 ||| place b 0
/-- Format `BBB`: three bytes in argument order (R112). -/
def formatBBB (op a b c : Byte) : Word := place op 24 ||| place a 16 ||| place b 8 ||| place c 0
/-- Formats `AV` and `A` (with `v = 0`): the address in `CMD[23:8]`, the value in `CMD[7:0]` (R112). -/
def formatAV (op : Byte) (addr : Addr) (v : Byte) : Word := place op 24 ||| place addr 8 ||| place v 0
/-- Formats `P` and `T`: one bit in `CMD[0]` (R112). -/
def formatBit (op : Byte) (t : Bool) : Word := place op 24 ||| place (BitVec.ofBool t) 0
/-- Format `I`: the echo flag in `CMD[23]`, the baud in `CMD[22:0]` (R112). -/
def formatI (op : Byte) (e : Bool) (baud : BitVec 23) : Word :=
  place op 24 ||| place (BitVec.ofBool e) 23 ||| place baud 0

/-- The command word of a command: its opcode and format of R112 and R113. -/
def encode (i : Instr) : Word :=
  match i with
  | .nvRead addr => formatAV 0x10 addr 0
  | .nvWrite addr v => formatAV 0x11 addr v
  | .nvUpdate addr v => formatAV 0x12 addr v
  | .spiXfer b => formatB 0x20 b
  | .csSelect p => formatBit 0x21 (bitOfPeriph p)
  | .csDeselect p => formatBit 0x22 (bitOfPeriph p)
  | .pdRegwrite reg data => formatBB 0x23 reg data
  | .potWrite w1 w2 => formatBB 0x24 w1 w2
  | .serInit e baud => formatI 0x30 e baud
  | .serWrite c => formatB 0x31 c
  | .serRead => formatB 0x32 0
  | .serAvail => formatB 0x33 0
  | .serOverrun => formatB 0x34 0
  | .facUpdatePd reg data => formatBB 0x40 reg data
  | .facNotify tag data => formatBB 0x41 tag data
  | .facUpdate tag reg data => formatBBB 0x42 tag reg data
  | .facSetWiper w1 w2 => formatBB 0x43 w1 w2
  | .irqSuppress => formatB 0x50 0
  | .irqRestore t => formatBit 0x51 t

/-! ### The assembler line (R135) -/

/-- The operands of a command in the argument order of the source operation, bytes, addresses and the baud as decimal
numbers, a peripheral by its name (R135). -/
def Instr.operands (i : Instr) : List String :=
  match i with
  | .nvRead addr => [toString addr.toNat]
  | .nvWrite addr v => [toString addr.toNat, toString v.toNat]
  | .nvUpdate addr v => [toString addr.toNat, toString v.toNat]
  | .spiXfer b => [toString b.toNat]
  | .csSelect p => [if bitOfPeriph p then "POT" else "PD"]
  | .csDeselect p => [if bitOfPeriph p then "POT" else "PD"]
  | .pdRegwrite reg data => [toString reg.toNat, toString data.toNat]
  | .potWrite w1 w2 => [toString w1.toNat, toString w2.toNat]
  | .serInit e baud => [toString e.toNat, toString baud.toNat]
  | .serWrite c => [toString c.toNat]
  | .serRead => []
  | .serAvail => []
  | .serOverrun => []
  | .facUpdatePd reg data => [toString reg.toNat, toString data.toNat]
  | .facNotify tag data => [toString tag.toNat, toString data.toNat]
  | .facUpdate tag reg data => [toString tag.toNat, toString reg.toNat, toString data.toNat]
  | .facSetWiper w1 w2 => [toString w1.toNat, toString w2.toNat]
  | .irqSuppress => []
  | .irqRestore t => [toString t.toNat]

/-- The line of a command: the mnemonic, then the operands separated by commas (R135). -/
def Instr.line (i : Instr) : String :=
  if i.operands.isEmpty then i.mnemonic else i.mnemonic ++ " " ++ String.intercalate ", " i.operands

end Sys2Proof
end

