-- ==== Sys2Proof/Config.lean ====
section
/-! DEFINITION. What an implementation fixes (the parameters and the launch input of spec/00_scope.md R6), what the
environment supplies between two atomic steps (R10, R30), the agents and their fairness (R14), and the free values of
the model. -/

namespace Sys2Proof

/-- The implementation parameters and the launch input of R6. The spec gives none of them a value, so the
model takes them as data: they stand in `State.params`, no step changes them, and at reset they are a free
value (`Config.params`; DESIGN CHOICE, log 4: safe). -/
structure Params where
  /-- `OUT_CAP`, capacity of the outbound buffer -/
  outCap : Nat
  /-- `IN_CAP`, capacity of the inbound buffer -/
  inCap : Nat
  /-- `MAX_ADDRESS`, the largest valid store address -/
  maxAddress : BitVec 16
  /-- `T_RECOVER` in nanoseconds (the unit is a DESIGN CHOICE, log 16) -/
  tRecover : Nat
  /-- `T_COMMIT` in nanoseconds -/
  tCommit : Nat
  /-- `REG_BASELINE` (R128; no rule reads it, log 29) -/
  regBaseline : Byte
  /-- `REG_JOY_X` -/
  regJoyX : Byte
  /-- `REG_JOY_Y` -/
  regJoyY : Byte
  /-- `REG_DPAD` -/
  regDpad : Byte
  /-- `TAG_BUTTON` (R129; no rule reads it, log 29) -/
  tagButton : Byte
  /-- `TAG_VOLUME` -/
  tagVolume : Byte
  /-- `TAG_JOY_X` -/
  tagJoyX : Byte
  /-- `TAG_JOY_Y` -/
  tagJoyY : Byte
  /-- `TAG_DPAD` -/
  tagDpad : Byte
  /-- `ADDR_RED` (R81; the block attaches no meaning to it, log 29) -/
  addrRed : Addr
  /-- `ADDR_GREEN` -/
  addrGreen : Addr
  /-- `ADDR_BLUE` -/
  addrBlue : Addr
  /-- `ADDR_WIPER` -/
  addrWiper : Addr
  /-- `ADDR_DPAD_MODE` -/
  addrDpadMode : Addr
  /-- `NVM_INIT`: the byte of each cell `0 .. MAX_ADDRESS` at first power-on (R324) -/
  nvmInit : List Byte
  deriving DecidableEq, Repr, Inhabited

/-- The constraints R6 puts on the parameters: capacities at least 1 and different (§3, D5), `T_RECOVER`
shorter than `T_COMMIT`, `T_COMMIT` at least one millisecond, every reserved slot a valid address, and a byte
of `NVM_INIT` for every cell. -/
abbrev Params.Legal (p : Params) : Prop :=
  1 ≤ p.outCap ∧ 1 ≤ p.inCap ∧ p.outCap ≠ p.inCap ∧
  p.tRecover < p.tCommit ∧ 1000000 ≤ p.tCommit ∧
  p.addrRed ≤ p.maxAddress ∧ p.addrGreen ≤ p.maxAddress ∧ p.addrBlue ≤ p.maxAddress ∧
  p.addrWiper ≤ p.maxAddress ∧ p.addrDpadMode ≤ p.maxAddress ∧
  p.nvmInit.length = p.maxAddress.toNat + 1

/-- The test instantiation of spec/95_test_vectors.md: `OUT_CAP = 4`, `IN_CAP = 3`, `MAX_ADDRESS = 0xFF`,
`REG_JOY_X = 0x02`, `ADDR_WIPER = 4`. "These are test values, not values of the hardware"; what that file
leaves open here is filled with legal values. Cells start as `0xFF` but for `NVM[4]` and `NVM[0xFF]`. -/
def Config.testParams : Params where
  outCap := 4
  inCap := 3
  maxAddress := 0xFF#16
  tRecover := 1000
  tCommit := 1000000
  regBaseline := 0x01
  regJoyX := 0x02
  regJoyY := 0x03
  regDpad := 0x04
  tagButton := 0x42
  tagVolume := 0x56
  tagJoyX := 0x58
  tagJoyY := 0x59
  tagDpad := 0x44
  addrRed := 0
  addrGreen := 1
  addrBlue := 2
  addrWiper := 4
  addrDpadMode := 5
  nvmInit := List.replicate 4 0xFF ++ [0x10] ++ List.replicate 250 0xFF ++ [0x12]

/-- One entry of what happens next: an atomic step of one agent with the input it takes from the environment
(R10, R11, R30), a word presented on the `CMD` port, or a reset. The order of the entries is the
interleaving (log 1: safe). -/
inductive Event where
  /-- the foreground user presents a command word on `CMD` (R110); the sequencer accepts it and runs its
  first phase, or refuses it (R13, R57; log 3) -/
  | command (w : Word)
  /-- agent `FG`: the next phase of the current command (R10) -/
  | fg
  /-- agent `H_DRAIN` (R212) -/
  | hDrain
  /-- agent `H_RX` (R213) -/
  | hRx
  /-- agent `TXU` (R214) -/
  | txu
  /-- agent `RXU`, with the byte the host sends (R215) -/
  | rxu (b : Byte)
  /-- agent `SPIU`, with the byte the peripheral shifts in (R171) -/
  | spiu (m : Byte)
  /-- agent `NVU`: `none` when the medium stores what was written, `some b` when a worn cell stores `b`
  instead (R144, R145) -/
  | nvu (worn : Option Byte)
  /-- the `RESET` port or power-on (R320) -/
  | reset
  deriving DecidableEq, Repr, Inhabited

/-- The seven agents (R10). The foreground user, who presents command words, and the environment are none. -/
inductive Agent where
  | fg
  | hDrain
  | hRx
  | txu
  | rxu
  | spiu
  | nvu
  deriving DecidableEq, Repr, Inhabited

/-- The agent whose step an event is. -/
def Event.agent (e : Event) : Option Agent :=
  match e with
  | .command _ => none
  | .fg => some .fg
  | .hDrain => some .hDrain
  | .hRx => some .hRx
  | .txu => some .txu
  | .rxu _ => some .rxu
  | .spiu _ => some .spiu
  | .nvu _ => some .nvu
  | .reset => none

/-- The agents the block takes fairly: the internal engines `TXU` and `NVU` (R14), both handlers (R291), and `FG`, since a
command fails to end only where what it awaits never comes (R13, R306; DEDUCED, log 32). `SPIU` and `RXU` depend on the
environment and may stall (R14). -/
def Agent.weaklyFair (a : Agent) : Bool :=
  match a with
  | .fg => true
  | .hDrain => true
  | .hRx => true
  | .txu => true
  | .rxu => false
  | .spiu => false
  | .nvu => true

/-- The fair agents in turn, which shows that there is a fair order. -/
def Event.inTurn (n : Nat) : Event :=
  match n % 5 with
  | 0 => .fg
  | 1 => .hDrain
  | 2 => .hRx
  | 3 => .txu
  | _ => .nvu none

/-- Every fair agent has its turn again and again. -/
theorem Event.inTurn_fair (a : Agent) (h : a.weaklyFair = true) (n : Nat) :
    ∃ m, n ≤ m ∧ (Event.inTurn m).agent = some a := by
  cases a with
  | fg => exact ⟨5 * n, by omega, by simp [Event.inTurn, Event.agent]⟩
  | hDrain => exact ⟨5 * n + 1, by omega, by simp [Event.inTurn, Event.agent]⟩
  | hRx => exact ⟨5 * n + 2, by omega, by simp [Event.inTurn, Event.agent]⟩
  | txu => exact ⟨5 * n + 3, by omega, by simp [Event.inTurn, Event.agent]⟩
  | nvu => exact ⟨5 * n + 4, by omega, by simp [Event.inTurn, Event.agent]⟩
  | rxu => cases h
  | spiu => cases h

/-- An endless order of events that starves no fair agent (R14, R291, R306): events of each come again and again. An event of
an agent that is not enabled passes (log 2), so every weakly fair execution has such an order (log 32). -/
structure FairOrder where
  /-- the event of each turn -/
  event : Nat → Event := Event.inTurn
  /-- no fair agent is starved -/
  fair : ∀ a : Agent, a.weaklyFair = true → ∀ n, ∃ m, n ≤ m ∧ (event m).agent = some a := by exact Event.inTurn_fair
  deriving Inhabited

/-! ### Free values (no body: nothing about them can be proved) -/

/-- The launch parameters, free (DESIGN CHOICE, log 4: safe). -/
opaque Config.launchParams : Params

/-- What happens when `State.agenda` is used up: any order that starves no fair agent, free (log 1, log 32: safe). -/
opaque Config.order : FairOrder

/-- The event of a turn in that order. -/
def Config.arbiter (turn : Nat) : Event :=
  Config.order.event turn

/-- A byte under no law, `draw(byte)` of R8: the data byte of a failed `NV_READ` (R120) and the cell of a
write pending at reset (R323). Log 5: safe. -/
opaque Config.freeByte : Nat → Byte

/-- The parameters at reset: any legal ones. Where the free launch value is not legal, the test instantiation
stands in, so that the constraints of R6 hold (log 4: safe). -/
def Config.params : Params :=
  if Config.launchParams.Legal then Config.launchParams else Config.testParams

end Sys2Proof
end

