-- ==== Sys2Proof/Machine/State.lean ====
section
/-! DEFINITION. The state of the block: every element of spec/10_state.md R31 to R58, the model's own fields
(the parameters, the pending events, the counter of free values), the reasons a step can stop, and the state
after reset (R64). -/

namespace Sys2Proof.Machine

/-! ### Reasons to stop -/

/-- Faults. The block itself has none (R280); these two stop the model in states no run reaches. -/
inductive Fault where
  /-- Raised by a command's meaning when `FG` names a phase that is none of that command's (R57: "Each phase
  is named in the command's rule"). Safe: no reachable state has it (log 12). -/
  | strayPhase
  /-- Raised by `NV_READ`'s access and by `NVU` on a cell above `MAX_ADDRESS`, which does not exist (R53, R80).
  Safe: the bound check stands before every access, so no reachable state has it (log 13). -/
  | noSuchCell (addr : Addr)
  deriving DecidableEq, Repr

/-- Refusals: "the block gives the command no meaning" (R8, R13); R286 is the complete list. All are safe: a
refusal claims nothing of the hardware (log 24). -/
inductive Refusal where
  /-- Raised by `exec` for an instruction the model gives no meaning. Safe. No arm answers it. -/
  | notModelled (mnemonic : String)
  /-- Raised on acceptance of a word whose opcode is reserved (R114). Safe. -/
  | reservedOpcode (op : Byte)
  /-- Raised on acceptance of a word with a reserved bit set (R115). Safe. -/
  | reservedBits (w : Word)
  /-- Raised for a command word presented while `FG` is not `IDLE` (R286, D35). Safe. -/
  | commandWhileBusy
  /-- Raised by `SER_INIT` when `SER_INITED = 1` (R200). Safe. -/
  | alreadyInitialized
  /-- Raised by the serial and notifying commands when `SER_INITED = 0` (R202 to R204, R211, R251, R252). Safe. -/
  | notInitialized
  /-- Raised by `CS_SELECT` while the other peripheral is selected (R173). Safe. -/
  | otherPeripheralSelected
  /-- Raised by the framing commands while `SEL` is not `NONE` (R176, R177, R250, R252, R253). Safe. -/
  | busNotFree
  deriving DecidableEq, Repr

/-! ### Parts of the state -/

/-- A circular buffer: its slots, insertion index and count (R31 to R36). Index and count are naturals kept in
range by an invariant (D6: "a model may use bounded naturals"; log 15: safe). -/
structure Ring where
  slots : List Byte
  head : Nat
  count : Nat
  deriving DecidableEq, Repr, Inhabited

/-- `SEL`, the selected peripheral (R49). -/
inductive Sel where
  | none
  | pd
  | pot
  deriving DecidableEq, Repr, Inhabited

/-- The two contractual delays (R175). -/
inductive GapKind where
  | recover
  | commit
  deriving DecidableEq, Repr, Inhabited

/-- An event of the ghost bus trace (R52). -/
inductive BusEvent where
  /-- `SEL(p)`: the line of `p` driven active -/
  | sel (p : Periph)
  /-- `DESEL(p)`: the line of `p` driven inactive -/
  | desel (p : Periph)
  /-- `XFER(s, out, in)`: one byte exchanged while `SEL = s` -/
  | xfer (s : Sel) (sent shiftedIn : Byte)
  /-- `GAP(k)`: the foreground waited at least `T_k` -/
  | gap (k : GapKind)
  deriving DecidableEq, Repr, Inhabited

/-- The non-volatile cells that differ from `NVM_INIT`, as (address, byte) pairs in one canonical form (log 14). -/
abbrev Memory := List Host.Cell

/-- The statuses of R121. -/
inductive Status where
  | success
  | invalidAddress
  | verifyFail
  | writeDropped
  deriving DecidableEq, Repr, Inhabited

/-- The result of an enqueue (R201). -/
inductive PutResult where
  | ok
  | dropped
  deriving DecidableEq, Repr, Inhabited

/-! ### The sequencer (R57, R60): phases are names, with the command's locals as arguments -/

/-- The phase pair of `NV_READ` (R141). -/
inductive ReadPhase where
  | nr0
  | nr1
  deriving DecidableEq, Repr, Inhabited

/-- The phase pair of `NV_WRITE` (R142). -/
inductive WritePhase where
  | w0
  | w1
  deriving DecidableEq, Repr, Inhabited

/-- The phases of `NV_UPDATE` (R143), with the inner phase pairs (log 11). -/
inductive UpdatePhase where
  /-- READ -/
  | u0 (r : ReadPhase)
  /-- COMPARE, with the byte read -/
  | u1 (cur : Byte)
  /-- WRITE -/
  | u2 (w : WritePhase)
  /-- READBACK -/
  | u3 (r : ReadPhase)
  /-- VERIFY, with the byte read back -/
  | u4 (rb : Byte)
  deriving DecidableEq, Repr, Inhabited

/-- The phase pair of `SPI_XFER` (R172). -/
inductive XferPhase where
  | x1
  | x2
  deriving DecidableEq, Repr, Inhabited

/-- The phases of `PD_REGWRITE` (R176); `xfer` phases hold their inner phase. -/
inductive FramePhase where
  | p0
  | p1
  | p2 (x : XferPhase)
  | p3 (x : XferPhase)
  | p4
  | p5
  | p6
  | p7 (x : XferPhase)
  | p8 (x : XferPhase)
  | p9
  deriving DecidableEq, Repr, Inhabited

/-- The phases of `POT_WRITE` (R177). -/
inductive PotPhase where
  | q0
  | q1 (x : XferPhase)
  | q2 (x : XferPhase)
  | q3
  deriving DecidableEq, Repr, Inhabited

/-- The phases of `SER_WRITE` (R202). -/
inductive CharPhase where
  | v0
  | v1
  | v2
  deriving DecidableEq, Repr, Inhabited

/-- The phases of `FAC_NOTIFY` (R251), with the inner phase of the write under way and `dropped`. -/
inductive LinePhase where
  | h0
  | h1 (c : CharPhase) (dropped : Bool)
  | h2 (c : CharPhase) (dropped : Bool)
  | h3 (c : CharPhase) (dropped : Bool)
  deriving DecidableEq, Repr, Inhabited

/-- The phases of all commands. `FAC_UPDATE_PD` and part J1 of `FAC_UPDATE` run phases `pd`, `FAC_SET_WIPER`
phases `pot`, part J2 of `FAC_UPDATE` phases `line` (R136, R250 to R253). -/
inductive Phase where
  | nvRead (r : ReadPhase)
  | nvWrite (w : WritePhase)
  | nvUpdate (u : UpdatePhase)
  | xfer (x : XferPhase)
  | s0
  | d0
  | pd (f : FramePhase)
  | pot (q : PotPhase)
  | i0
  | char (c : CharPhase)
  | rd0
  | rd1
  | a0
  | o0
  | line (h : LinePhase)
  | j0
  | k0
  | l0
  deriving DecidableEq, Repr, Inhabited

/-- `FG`: `IDLE` or `RUN(cmd, phase, locals)` (R57). -/
inductive Fg where
  | idle
  | run (cmd : Instr) (phase : Phase)
  deriving DecidableEq, Repr, Inhabited

/-! ### The state -/

/-- The state of the block (R30) and the model's own five fields. -/
structure State where
  /-- the model's own: the parameters of R6; no step changes them (log 4) -/
  params : Params
  /-- `OUT_BUF`, `OUT_HEAD`, `OUT_COUNT` (R31 to R33) -/
  outBuf : Ring
  /-- `IN_BUF`, `IN_HEAD`, `IN_COUNT` (R34 to R36) -/
  inBuf : Ring
  /-- `OVERRUN` (R38) -/
  overrun : Bool
  /-- `ECHO` (R39) -/
  echo : Bool
  /-- `BAUD` (R39) -/
  baud : BitVec 23
  /-- `SER_INITED` (R39) -/
  serInited : Bool
  /-- `TXDATA` (R40) -/
  txData : Byte
  /-- `TX_FULL` (R40) -/
  txFull : Bool
  /-- `RXDATA` (R41) -/
  rxData : Byte
  /-- `RX_FULL` (R41) -/
  rxFull : Bool
  /-- `HW_RX_LOST`, ghost (R42) -/
  hwRxLost : Bool
  /-- `TX_LINE`, ghost (R43) -/
  txLine : List Byte
  /-- `RX_LINE`, ghost (R43) -/
  rxLine : List Byte
  /-- `GIE` (R44) -/
  gie : Bool
  /-- `DRAIN_IE` (R45) -/
  drainIe : Bool
  /-- `RX_IE` (R46) -/
  rxIe : Bool
  /-- `SEL` (R49) -/
  sel : Sel
  /-- `SPI_DATA` (R51) -/
  spiData : Byte
  /-- `SPI_BUSY` (R51) -/
  spiBusy : Bool
  /-- `SPI_DONE` (R51) -/
  spiDone : Bool
  /-- `BUS_TRACE`, ghost (R52) -/
  busTrace : List BusEvent
  /-- `NVM`, the cells that differ from `NVM_INIT` (R53) -/
  nvm : Memory
  /-- `NV_ADDR` (R54) -/
  nvAddr : Addr
  /-- `NV_DATA` (R54) -/
  nvData : Byte
  /-- `NV_BUSY` (R55) -/
  nvBusy : Bool
  /-- `NV_WRITE_COUNT`, ghost (R56) -/
  nvWriteCount : Nat
  /-- `NV_ACCESS_COUNT`, ghost (R56) -/
  nvAccessCount : Nat
  /-- `FG` (R57) -/
  fg : Fg
  /-- `RSP` (R58) -/
  rsp : BitVec 16
  /-- the model's own: the pending events, the head first (log 1) -/
  agenda : List Event
  /-- the model's own: how many free values have been taken (log 5) -/
  drawn : Nat
  /-- the model's own: how many events have been taken from the free order (log 32) -/
  turn : Nat
  /-- the model's own: the turn of `FG` in the free order came while its phase awaited its condition (log 32) -/
  fgDue : Bool
  deriving DecidableEq, Repr

/-- The block right after a reset, with the parameters `p`, the cells `nvm` (which survive, R321), the pending
events and the two counters of the model. Values are those of R64; what R64 leaves unspecified is zero:
`BAUD`, `TXDATA`, `RXDATA`, `SPI_DATA`, `NV_ADDR`, `NV_DATA`, `RSP` (DESIGN CHOICE, log 7: unsafe) and the
buffer slots (DESIGN CHOICE, log 8: unsafe). -/
def State.powerOn (p : Params) (nvm : Memory) (agenda : List Event) (drawn turn : Nat) : State where
  params := p
  outBuf := ⟨List.replicate p.outCap 0, 0, 0⟩
  inBuf := ⟨List.replicate p.inCap 0, 0, 0⟩
  overrun := false
  echo := false
  baud := 0
  serInited := false
  txData := 0
  txFull := false
  rxData := 0
  rxFull := false
  hwRxLost := false
  txLine := []
  rxLine := []
  gie := false
  drainIe := false
  rxIe := false
  sel := .none
  spiData := 0
  spiBusy := false
  spiDone := false
  busTrace := []
  nvm := nvm
  nvAddr := 0
  nvData := 0
  nvBusy := false
  nvWriteCount := 0
  nvAccessCount := 0
  fg := .idle
  rsp := 0
  agenda := agenda
  drawn := drawn
  turn := turn
  fgDue := false

/-- The machine right after its first power-on (R64, R320, R324): no cell differs from `NVM_INIT`, no event is
pending, no free value and no turn has been taken (log 10). -/
def State.reset : State :=
  State.powerOn Config.params [] [] 0 0

end Sys2Proof.Machine
end

