-- ==== Sys2Proof/Machine/Operands.lean ====
section
/-! DEFINITION. Operand forms and byte translations: the bound check on addresses, the peripheral operand,
truth values as bytes, the response word, the newline translations and the fixed bytes of the wire. -/

namespace Sys2Proof.Machine

/-- `'\n'` = `0x0A` (R7; ASCII, from general knowledge: PRESUMED, log 17: unsafe). -/
def lineFeed : Byte := 0x0A

/-- `'\r'` = `0x0D` (R7; PRESUMED, log 17: unsafe). -/
def carriageReturn : Byte := 0x0D

/-- `COMMIT_MARKER`, the first byte of the commit frame (R6, R126). -/
def commitMarker : Byte := 0xFF

/-- The second byte of the commit frame (R126). -/
def commitData : Byte := 0x00

/-- The bound check: an address is valid iff it is at most `MAX_ADDRESS`, unsigned (R82, R89 (d)). -/
def addrValid (p : Params) (a : Addr) : Bool :=
  a.toNat ≤ p.maxAddress.toNat

/-- Operand `p` as the value `SEL` takes (R116, R173). -/
def selOfPeriph (p : Periph) : Sel :=
  match p with
  | .pd => .pd
  | .pot => .pot

/-- `0x01` for true, `0x00` for false: the data byte of `SER_AVAIL`, `SER_OVERRUN` and `IRQ_SUPPRESS` (R120). -/
def byteOfBool (b : Bool) : Byte :=
  if b then 0x01 else 0x00

/-- The status numbers of R121. -/
def Status.code (st : Status) : Byte :=
  match st with
  | .success => 0x00
  | .invalidAddress => 0x01
  | .verifyFail => 0x02
  | .writeDropped => 0x03

/-- `RSP[15:8]` is the status, `RSP[7:0]` the data (R58, R120). -/
def responseWord (st : Status) (data : Byte) : BitVec 16 :=
  st.code ++ data

/-- Output newline translation: a line-feed is preceded by a carriage-return (R130, R205). -/
def needsCarriageReturn (c : Byte) : Bool :=
  c == lineFeed

/-- The bytes `PutChar c` puts on the line when there is room (R130, R205). -/
def translated (c : Byte) : List Byte :=
  if needsCarriageReturn c then [carriageReturn, c] else [c]

/-- Input newline translation at capture: a received carriage-return is stored as a line-feed (R131, R213). -/
def storedByte (c : Byte) : Byte :=
  if c == carriageReturn then lineFeed else c

end Sys2Proof.Machine
end

