-- ==== Sys2Proof/Machine/Flags.lean ====
section
/-! DEFINITION. The conditions that are functions of the state and not stored: pending and dispatch conditions
of the two interrupts, the chip-select decoder, the read-only status bits, the named states of the output
direction, and which agents' steps are enabled. -/

namespace Sys2Proof.Machine

/-- The drain interrupt is pending iff `TX_FULL = 0`, a level (R47). -/
def State.drainPending (s : State) : Bool :=
  !s.txFull

/-- The receive interrupt is pending iff `RX_FULL = 1`, a level (R47). -/
def State.rxPending (s : State) : Bool :=
  s.rxFull

/-- `H_DRAIN` is enabled iff `GIE = 1`, `DRAIN_IE = 1` and the drain interrupt is pending (R291). -/
def State.drainEnabled (s : State) : Bool :=
  s.gie && s.drainIe && s.drainPending

/-- `H_RX` is enabled iff `GIE = 1`, `RX_IE = 1` and the receive interrupt is pending (R291). -/
def State.rxEnabled (s : State) : Bool :=
  s.gie && s.rxIe && s.rxPending

/-- The chip-select line of the peripheral device, active low (R50). -/
def Sel.csPdN (x : Sel) : Bool :=
  match x with
  | .none => true
  | .pd => false
  | .pot => true

/-- The chip-select line of the potentiometer, active high (R50). -/
def Sel.csPot (x : Sel) : Bool :=
  match x with
  | .none => false
  | .pd => false
  | .pot => true

/-- The 2-bit value of `SEL` (R49); 3 is unused. -/
def Sel.code (x : Sel) : BitVec 2 :=
  match x with
  | .none => 0
  | .pd => 1
  | .pot => 2

/-- `IN_AVAIL`, hardwired to `IN_COUNT != 0` (R62, R204). -/
def State.inAvail (s : State) : Bool :=
  s.inBuf.count != 0

/-- The named states of the output direction (R48), and the combination R48 calls unreachable. -/
inductive OutDirection where
  | idle
  | draining
  | tail
  /-- bytes pending and the drain interrupt disabled: unreachable (R48, R221) -/
  | unserved
  deriving DecidableEq, Repr

/-- The state of the output direction, a function of `(OUT_COUNT, DRAIN_IE)` (R48). -/
def State.outDirection (s : State) : OutDirection :=
  match s.outBuf.count, s.drainIe with
  | 0, false => .idle
  | 0, true => .tail
  | _ + 1, true => .draining
  | _ + 1, false => .unserved

/-! ### Enabled steps (R10, R11) -/

/-- Does a phase await the store, `NV_BUSY = 0`? (R141 to R143) -/
def Phase.awaitsStore (ph : Phase) : Bool :=
  match ph with
  | .nvRead .nr1 => true
  | .nvWrite .w1 => true
  | .nvUpdate (.u0 .nr1) => true
  | .nvUpdate (.u2 .w1) => true
  | .nvUpdate (.u3 .nr1) => true
  | _ => false

/-- Is a phase the second one of a transfer, which awaits `SPI_DONE`? (R172) -/
def Phase.awaitsTransfer (ph : Phase) : Bool :=
  match ph with
  | .xfer .x2 => true
  | .pd (.p2 .x2) => true
  | .pd (.p3 .x2) => true
  | .pd (.p7 .x2) => true
  | .pd (.p8 .x2) => true
  | .pot (.q1 .x2) => true
  | .pot (.q2 .x2) => true
  | _ => false

/-- Does a phase of a write await room in the outbound buffer? (R201, R202) -/
def CharPhase.awaitsRoom (c : CharPhase) : Bool :=
  match c with
  | .v0 => false
  | .v1 => true
  | .v2 => true

/-- Does a phase await room in the outbound buffer? (R202, R251) -/
def Phase.awaitsRoom (ph : Phase) : Bool :=
  match ph with
  | .char c => c.awaitsRoom
  | .line (.h1 c _) => c.awaitsRoom
  | .line (.h2 c _) => c.awaitsRoom
  | .line (.h3 c _) => c.awaitsRoom
  | _ => false

/-- The condition a phase awaits, `true` where it awaits none (R8): the store ready, the transfer done, room in the
outbound buffer or interrupts off (R201), a byte received (R203). -/
def State.awaitHolds (s : State) (ph : Phase) : Bool :=
  if ph.awaitsStore then !s.nvBusy
  else if ph.awaitsTransfer then s.spiDone
  else if ph.awaitsRoom then !s.gie || decide (s.outBuf.count < s.params.outCap)
  else if ph = .rd1 then s.inAvail
  else true

/-- Is a step of an agent enabled? (R8, R171, R144, R214, R215, R291) -/
def State.enables (s : State) (a : Agent) : Bool :=
  match a with
  | .fg =>
    match s.fg with
    | .idle => false
    | .run _ ph => s.awaitHolds ph
  | .hDrain => s.drainEnabled
  | .hRx => s.rxEnabled
  | .txu => s.txFull
  | .rxu => s.serInited
  | .spiu => s.spiBusy
  | .nvu => s.nvBusy

/-- Does the command under way await a condition that does not hold (R8)? -/
def State.waits (s : State) : Bool :=
  match s.fg with
  | .idle => false
  | .run _ ph => !s.awaitHolds ph

/-- Is the foreground to step at once? Its turn came while its phase awaited, and the condition holds now: a command never
ends only where what it awaits never comes (R13, R306; log 32). -/
def State.fgOwed (s : State) : Bool :=
  s.fgDue && s.enables .fg

end Sys2Proof.Machine
end

