-- ==== Sys2Proof/Machine/Ops.lean ====
section
/-! DEFINITION. The named operations over the state: the non-volatile cells, the circular buffers, the
sequencer (await, respond, next phase), the critical section, taking an interrupt and returning from it, the
bus trace, and the pending events. -/

namespace Sys2Proof.Machine

/-- The outcome of a step of the block. -/
abbrev Result := Host.Outcome State Fault Refusal

/-! ### The non-volatile cells (R53, R80) -/

/-- What an address that is not listed reads as: its byte of `NVM_INIT` (R324, log 14). -/
def unlisted (p : Params) (a : Nat) : Byte :=
  p.nvmInit.getD a 0

/-- The listed byte of an address, if it is listed. -/
def Memory.find (m : Memory) (a : Nat) : Option Byte :=
  match m with
  | [] => none
  | (k, b) :: rest => if k = a then some b else Memory.find rest a

/-- The byte of the cell at an address. -/
def Memory.read (p : Params) (m : Memory) (a : Nat) : Byte :=
  (Memory.find m a).getD (unlisted p a)

/-- List a byte at an address, keeping the addresses rising. -/
def Memory.put (m : Memory) (a : Nat) (v : Byte) : Memory :=
  match m with
  | [] => [(a, v)]
  | (k, b) :: rest =>
    if a < k then (a, v) :: (k, b) :: rest
    else if a = k then (a, v) :: rest
    else (k, b) :: Memory.put rest a v

/-- Take an address out of the list. -/
def Memory.remove (m : Memory) (a : Nat) : Memory :=
  match m with
  | [] => []
  | (k, b) :: rest => if k = a then rest else (k, b) :: Memory.remove rest a

/-- Write a byte to a cell, keeping the canonical form: a cell that holds its `NVM_INIT` byte is not listed. -/
def Memory.write (p : Params) (m : Memory) (a : Nat) (v : Byte) : Memory :=
  if v = unlisted p a then Memory.remove m a else Memory.put m a v

/-- The canonical form: addresses strictly rising, every one a cell that exists, no entry equal to what an
unlisted address reads as. -/
def Memory.wf (p : Params) (m : Memory) : Bool :=
  decide (m.Pairwise fun c d => c.1 < d.1) &&
  m.all fun c => decide (c.1 ≤ p.maxAddress.toNat) && c.2 != unlisted p c.1

/-- `NvRead(a)` (R8): the byte of cell `a`, if the cell exists. -/
def State.nvRead (s : State) (a : Addr) : Option Byte :=
  if addrValid s.params a then some (Memory.read s.params s.nvm a.toNat) else none

/-- The store into `NVM[a]` (R8, R144). -/
def State.nvStore (s : State) (a : Addr) (v : Byte) : State :=
  { s with nvm := Memory.write s.params s.nvm a.toNat v }

/-! ### Circular buffers (R37, R89) -/

/-- The index of the oldest pending byte, `(HEAD - COUNT) mod CAP` computed as `(HEAD + CAP - COUNT) mod CAP`
(R37, R89 (c)). -/
def Ring.oldest (cap : Nat) (r : Ring) : Nat :=
  (r.head + cap - r.count) % cap

/-- Enqueue: the byte into the slot at the insertion index, the index on by one modulo the capacity, the count
up by one (R32, R33, R89 (a), (b)). -/
def Ring.enqueue (cap : Nat) (b : Byte) (r : Ring) : Ring :=
  { slots := r.slots.set r.head b, head := (r.head + 1) % cap, count := r.count + 1 }

/-- The oldest pending byte. A slot outside the list, which no reachable state reads, reads as 0 (log 15: safe). -/
def Ring.front (cap : Nat) (r : Ring) : Byte :=
  r.slots.getD (r.oldest cap) 0

/-- Dequeue: the count down by one; the insertion index never changes (R32, R33). -/
def Ring.dequeue (r : Ring) : Ring :=
  { r with count := r.count - 1 }

/-- The pending sequence, oldest first: slot `(HEAD - COUNT + k) mod CAP` for `k = 0 .. COUNT-1` (R37). -/
def Ring.pending (cap : Nat) (r : Ring) : List Byte :=
  (List.range r.count).map fun k => r.slots.getD ((r.head + cap - r.count + k) % cap) 0

/-! ### The critical section and the interrupt (R92, R294, R295) -/

/-- The critical section: suppress interrupts, update, restore the saved state `ie`, not unconditionally
re-enabling (R92, R201). -/
def State.critical (ie : Bool) (update : State → State) (s : State) : State :=
  { update { s with gie := false } with gie := ie }

/-- Taking an interrupt: `GIE` is cleared; `FG` is kept, nothing else is saved (R294). -/
def State.takeInterrupt (s : State) : State :=
  { s with gie := false }

/-- Return from an interrupt: `GIE` is set to 1, the foreground resumes at the phase it was stopped before (R295). -/
def State.returnFromInterrupt (s : State) : State :=
  { s with gie := true }

/-- A handler runs to completion as one atomic step: entry, body, return (R12, R294 to R296). -/
def State.runHandler (body : State → State) (s : State) : State :=
  (body s.takeInterrupt).returnFromInterrupt

/-! ### The enqueue to the outbound buffer (R201, R205) -/

/-- `PutByte(b, ie)`: `none` where it is not enabled, that is the caller awaits room; with interrupts disabled a
full buffer drops the byte (R201). -/
def State.putByte (b : Byte) (ie : Bool) (s : State) : Option (PutResult × State) :=
  if s.outBuf.count < s.params.outCap then
    some (.ok, s.critical ie fun t =>
      { t with outBuf := t.outBuf.enqueue t.params.outCap b, drainIe := true })
  else if ie then none
  else some (.dropped, s)

/-- `PutByte(b, 0)` with its result discarded: with `ie = 0` it never waits (R201, R213). -/
def State.putOrDrop (b : Byte) (s : State) : State :=
  match s.putByte b false with
  | some (_, t) => t
  | none => s

/-- `PutChar(c, 0)` of a handler, both bytes in the one handler step, results discarded (R205, R213). -/
def State.echoChar (c : Byte) (s : State) : State :=
  if needsCarriageReturn c then (s.putOrDrop carriageReturn).putOrDrop c else s.putOrDrop c

/-! ### The bus (R49, R52, R173, R174) -/

/-- `append(BUS_TRACE, e)`. -/
def State.traceBus (e : BusEvent) (s : State) : State :=
  { s with busTrace := s.busTrace ++ [e] }

/-- `SEL <- p; append(BUS_TRACE, SEL(p))`. -/
def State.driveActive (p : Periph) (s : State) : State :=
  { s with sel := selOfPeriph p, busTrace := s.busTrace ++ [.sel p] }

/-- `SEL <- NONE; append(BUS_TRACE, DESEL(p))`. -/
def State.driveInactive (p : Periph) (s : State) : State :=
  { s with sel := .none, busTrace := s.busTrace ++ [.desel p] }

/-! ### The sequencer (R8, R57, R60) -/

/-- `respond(status, data)`: the response is written and the sequencer returns to idle (R8, R120). -/
def State.respond (st : Status) (data : Byte) (s : State) : State :=
  { s with fg := .idle, rsp := responseWord st data }

/-- `phase <- P` for the current command (R60). -/
def State.goto (i : Instr) (ph : Phase) (s : State) : State :=
  { s with fg := .run i ph }

/-- A free value has been taken (log 5). -/
def State.draw (s : State) : State :=
  { s with drawn := s.drawn + 1 }

/-- How an inner phase sequence stands after one of its atomic steps: it goes on at a phase (the same one while
an `await` does not hold), or it returns a value to the command around it (C8, R143). -/
inductive Progress (π α : Type) where
  | more (q : π)
  | done (a : α)
  deriving DecidableEq, Repr

/-- One atomic step of an inner phase sequence: the progress and the state it leaves, or a stop. -/
inductive Sub (π α : Type) where
  | ok (r : Progress π α) (s : State)
  | refuse (r : Refusal)
  | fault (f : Fault)
  deriving DecidableEq, Repr

/-- An inner sequence inside a larger one: its phases are wrapped, its value picks what follows. -/
def Sub.andThen {π α ρ β : Type} (x : Sub π α) (wrap : π → ρ) (follow : α → Progress ρ β) : Sub ρ β :=
  match x with
  | .ok r s =>
    .ok (match r with
      | .more q => .more (wrap q)
      | .done a => follow a) s
  | .refuse r => .refuse r
  | .fault f => .fault f

/-- An inner sequence as a command's phases: while it goes on, `FG` names the next phase; its value ends it as
`finish` says (a `respond`, or the next part of a composite command). -/
def Sub.run {π α : Type} (x : Sub π α) (i : Instr) (wrap : π → Phase) (finish : α → State → State) : Result :=
  match x with
  | .ok r s =>
    .next (match r with
      | .more q => s.goto i (wrap q)
      | .done a => finish a s)
  | .refuse r => .refused r
  | .fault f => .fault f

/-- One phase of command `i`: the first one when the sequencer is idle (the command is accepted, log 3), the one
`FG` names when it runs `i`; while it runs another command, `i` is refused (R57, R60, R286). -/
def State.foreground (i : Instr) (first : Phase) (body : Phase → Result) (s : State) : Result :=
  match s.fg with
  | .idle => body first
  | .run j ph => if j = i then body ph else .refused .commandWhileBusy

/-! ### The pending events (log 1) -/

/-- The event that happens next: the head of the agenda, or, when the agenda is used up, the step that `FG`
is owed, or else the next event of the free fair order (R11, R14, R306). -/
def State.event (s : State) : Event :=
  match s.agenda with
  | e :: _ => e
  | [] => if s.fgOwed then .fg else Config.arbiter s.turn

/-- The state with that event taken, from the agenda or from the order. -/
def State.takeEvent (s : State) : State :=
  match s.agenda with
  | _ :: rest => { s with agenda := rest }
  | [] =>
    if s.fgOwed then { s with fgDue := false }
    else
      { s with
        turn := s.turn + 1
        fgDue := s.waits && (s.fgDue || decide (Config.arbiter s.turn = .fg)) }

end Sys2Proof.Machine
end

