-- ==== Sys2Proof/Machine/Bus.lean ====
section
/-! DEFINITION. The Bus Master (spec/41_bus_master.md): the transfer, the chip selects, the two framing protocols and
the shifter `SPIU`. -/

namespace Sys2Proof.Machine

/-- The phase pair X1, X2 (R172). Its value is the byte shifted in. -/
def xferStep (b : Byte) (x : XferPhase) (s : State) : Sub XferPhase Byte :=
  match x with
  | .x1 => .ok (.more .x2) { s with spiData := b, spiDone := false, spiBusy := true }
  | .x2 =>
    if s.spiDone then .ok (.done s.spiData) { s with spiDone := false }
    else .ok (.more .x2) s

/-- The phases P0 to P9 of the register-write protocol (R176): the register-write frame (R125) and, after the
commit delay, the commit frame (R126), each byte shifted in discarded. -/
def frameStep (reg data : Byte) (f : FramePhase) (s : State) : Sub FramePhase Unit :=
  match f with
  | .p0 => if s.sel = .none then .ok (.more .p1) (s.traceBus (.gap .recover)) else .refuse .busNotFree
  | .p1 => .ok (.more (.p2 .x1)) (s.driveActive .pd)
  | .p2 x => (xferStep reg x s).andThen .p2 fun _ => .more (.p3 .x1)
  | .p3 x => (xferStep data x s).andThen .p3 fun _ => .more .p4
  | .p4 => .ok (.more .p5) (s.driveInactive .pd)
  | .p5 => .ok (.more .p6) (s.traceBus (.gap .commit))
  | .p6 => .ok (.more (.p7 .x1)) (s.driveActive .pd)
  | .p7 x => (xferStep commitMarker x s).andThen .p7 fun _ => .more (.p8 .x1)
  | .p8 x => (xferStep commitData x s).andThen .p8 fun _ => .more .p9
  | .p9 => .ok (.done ()) (s.driveInactive .pd)

/-- The phases Q0 to Q3 of the potentiometer frame (R177, R127). -/
def potStep (w1 w2 : Byte) (q : PotPhase) (s : State) : Sub PotPhase Unit :=
  match q with
  | .q0 => if s.sel = .none then .ok (.more (.q1 .x1)) (s.driveActive .pot) else .refuse .busNotFree
  | .q1 x => (xferStep w1 x s).andThen .q1 fun _ => .more (.q2 .x1)
  | .q2 x => (xferStep w2 x s).andThen .q2 fun _ => .more .q3
  | .q3 => .ok (.done ()) (s.driveInactive .pot)

/-- `SPI_XFER b` (R172). -/
def execSpiXfer (b : Byte) (s : State) : Result :=
  s.foreground (.spiXfer b) (.xfer .x1) fun ph =>
    match ph with
    | .xfer x => (xferStep b x s).run (.spiXfer b) .xfer fun r t => t.respond .success r
    | _ => .fault .strayPhase

/-- `CS_SELECT p` (R173): select from `NONE`, no event when `p` is already selected, refused while the other
peripheral is. -/
def execCsSelect (p : Periph) (s : State) : Result :=
  s.foreground (.csSelect p) .s0 fun ph =>
    match ph with
    | .s0 =>
      if s.sel = .none then .next ((s.driveActive p).respond .success 0x00)
      else if s.sel = selOfPeriph p then .next (s.respond .success 0x00)
      else .refused .otherPeripheralSelected
    | _ => .fault .strayPhase

/-- `CS_DESELECT p` (R174): nothing but the response when `p` is not selected. -/
def execCsDeselect (p : Periph) (s : State) : Result :=
  s.foreground (.csDeselect p) .d0 fun ph =>
    match ph with
    | .d0 => .next ((if s.sel = selOfPeriph p then s.driveInactive p else s).respond .success 0x00)
    | _ => .fault .strayPhase

/-- `PD_REGWRITE reg, data` (R176). -/
def execPdRegwrite (reg data : Byte) (s : State) : Result :=
  s.foreground (.pdRegwrite reg data) (.pd .p0) fun ph =>
    match ph with
    | .pd f => (frameStep reg data f s).run (.pdRegwrite reg data) .pd fun _ t => t.respond .success 0x00
    | _ => .fault .strayPhase

/-- `POT_WRITE w1, w2` (R177). -/
def execPotWrite (w1 w2 : Byte) (s : State) : Result :=
  s.foreground (.potWrite w1 w2) (.pot .q0) fun ph =>
    match ph with
    | .pot q => (potStep w1 w2 q s).run (.potWrite w1 w2) .pot fun _ t => t.respond .success 0x00
    | _ => .fault .strayPhase

/-- Agent `SPIU`, enabled iff `SPI_BUSY = 1`: one byte is exchanged, `m` being what the selected peripheral shifts
in, any byte of the environment's (R171, log 6). -/
def spiuStep (m : Byte) (s : State) : State :=
  if s.spiBusy then
    { s.traceBus (.xfer s.sel s.spiData m) with spiData := m, spiBusy := false, spiDone := true }
  else s

end Sys2Proof.Machine
end

