-- ==== Sys2Proof/Machine/Serial.lean ====
section
/-! DEFINITION. The Serial Transport (spec/42_serial_transport.md): its five commands, the handlers `H_DRAIN` and
`H_RX`, the transmitter `TXU` and the receiver `RXU`. -/

namespace Sys2Proof.Machine

/-- The phases V0 to V2 of `SER_WRITE` (R202): `PutChar` of R205 with the waits of the foreground. Its value is the
result of the last byte. -/
def charStep (c : Byte) (q : CharPhase) (s : State) : Sub CharPhase PutResult :=
  match q with
  | .v0 =>
    if s.serInited then .ok (.more (if needsCarriageReturn c then .v1 else .v2)) s
    else .refuse .notInitialized
  | .v1 =>
    match s.putByte carriageReturn s.gie with
    | none => .ok (.more .v1) s
    | some (_, t) => .ok (.more .v2) t
  | .v2 =>
    match s.putByte c s.gie with
    | none => .ok (.more .v2) s
    | some (r, t) => .ok (.done r) t

/-- `SUCCESS` if the byte was enqueued, else `WRITE_DROPPED` (R202, R251). -/
def writeStatus (dropped : Bool) : Status :=
  if dropped then .writeDropped else .success

/-- `SER_INIT e, baud` (R200). -/
def execSerInit (e : Bool) (baud : BitVec 23) (s : State) : Result :=
  s.foreground (.serInit e baud) .i0 fun ph =>
    match ph with
    | .i0 =>
      if s.serInited then .refused .alreadyInitialized
      else
        .next (State.respond .success 0x00
          { s with
            echo := e, baud := baud,
            outBuf := { s.outBuf with head := 0, count := 0 },
            inBuf := { s.inBuf with head := 0, count := 0 },
            drainIe := false, rxIe := true, serInited := true })
    | _ => .fault .strayPhase

/-- `SER_WRITE c` (R202). -/
def execSerWrite (c : Byte) (s : State) : Result :=
  s.foreground (.serWrite c) (.char .v0) fun ph =>
    match ph with
    | .char q => (charStep c q s).run (.serWrite c) .char fun r t => t.respond (writeStatus (r == .dropped)) 0x00
    | _ => .fault .strayPhase

/-- `SER_READ` (R203): awaits a byte whatever `GIE` is, then dequeues the oldest one in a critical section. -/
def execSerRead (s : State) : Result :=
  s.foreground .serRead .rd0 fun ph =>
    match ph with
    | .rd0 => if s.serInited then .next (s.goto .serRead .rd1) else .refused .notInitialized
    | .rd1 =>
      .next (if s.inBuf.count = 0 then s.goto .serRead .rd1
        else
          (s.critical s.gie fun t => { t with inBuf := t.inBuf.dequeue }).respond .success
            (s.inBuf.front s.params.inCap))
    | _ => .fault .strayPhase

/-- `SER_AVAIL` (R204). -/
def execSerAvail (s : State) : Result :=
  s.foreground .serAvail .a0 fun ph =>
    match ph with
    | .a0 =>
      if s.serInited then .next (s.respond .success (byteOfBool s.inAvail)) else .refused .notInitialized
    | _ => .fault .strayPhase

/-- `SER_OVERRUN` (R211): reading does not clear the flag. -/
def execSerOverrun (s : State) : Result :=
  s.foreground .serOverrun .o0 fun ph =>
    match ph with
    | .o0 =>
      if s.serInited then .next (s.respond .success (byteOfBool s.overrun)) else .refused .notInitialized
    | _ => .fault .strayPhase

/-! ### Handlers (R212, R213) -/

/-- The body of `H_DRAIN` (R212): the oldest byte into `TXDATA`, or the drain interrupt disables itself. -/
def drainBody (s : State) : State :=
  if s.outBuf.count = 0 then { s with drainIe := false }
  else
    { s with
      outBuf := s.outBuf.dequeue, txData := s.outBuf.front s.params.outCap, txFull := true }

/-- Capture of a received byte: stored after the carriage-return translation, or discarded with `OVERRUN` set when
the inbound buffer is full (R213, R131). -/
def capture (c : Byte) (s : State) : State :=
  if s.inBuf.count < s.params.inCap then
    { s with inBuf := s.inBuf.enqueue s.params.inCap (storedByte c) }
  else { s with overrun := true }

/-- The body of `H_RX` (R213): take the byte, echo it as received, then capture it. -/
def rxBody (s : State) : State :=
  let taken := { s with rxFull := false }
  capture s.rxData (if s.echo then taken.echoChar s.rxData else taken)

/-- Agent `H_DRAIN`: one atomic step, taken only when dispatch enables it (R212, R291). -/
def drainHandler (s : State) : State :=
  if s.drainEnabled then s.runHandler drainBody else s

/-- Agent `H_RX`: one atomic step, taken only when dispatch enables it (R213, R291). -/
def rxHandler (s : State) : State :=
  if s.rxEnabled then s.runHandler rxBody else s

/-! ### Engines (R214, R215) -/

/-- Agent `TXU`, enabled iff `TX_FULL = 1`: the byte goes on the line (R214). -/
def txuStep (s : State) : State :=
  if s.txFull then { s with txLine := s.txLine ++ [s.txData], txFull := false } else s

/-- Agent `RXU`, enabled iff `SER_INITED = 1`: the host's byte `b` is consumed; it is held when the holding stage
is free, else it is lost (R215). -/
def rxuStep (b : Byte) (s : State) : State :=
  if s.serInited then
    if s.rxFull then { s with rxLine := s.rxLine ++ [b], hwRxLost := true }
    else { s with rxLine := s.rxLine ++ [b], rxData := b, rxFull := true }
  else s

end Sys2Proof.Machine
end

