-- ==== Sys2Proof/Machine/Store.lean ====
section
/-! DEFINITION. The Persistent Store (spec/40_persistent_store.md): the phase pairs of `NV_READ` and `NV_WRITE`, the
three commands and the write engine `NVU`. -/

namespace Sys2Proof.Machine

/-- The phase pair NR0, NR1 (R141). Its value is `none` for `INVALID_ADDRESS`, `some b` for `SUCCESS` with the
cell's byte. -/
def readStep (addr : Addr) (r : ReadPhase) (s : State) : Sub ReadPhase (Option Byte) :=
  match r with
  | .nr0 => .ok (if addrValid s.params addr then .more .nr1 else .done none) s
  | .nr1 =>
    if s.nvBusy then .ok (.more .nr1) s
    else
      match s.nvRead addr with
      | none => .fault (.noSuchCell addr)
      | some b =>
        .ok (.done (some b))
          { s with nvAddr := addr, nvData := b, nvAccessCount := s.nvAccessCount + 1 }

/-- The phase pair W0, W1 (R142). Its value is the status. -/
def writeStep (addr : Addr) (v : Byte) (w : WritePhase) (s : State) : Sub WritePhase Status :=
  match w with
  | .w0 => .ok (if addrValid s.params addr then .more .w1 else .done .invalidAddress) s
  | .w1 =>
    if s.nvBusy then .ok (.more .w1) s
    else
      .ok (.done .success)
        { s with
          nvAddr := addr, nvData := v, nvBusy := true,
          nvWriteCount := s.nvWriteCount + 1, nvAccessCount := s.nvAccessCount + 1 }

/-- The verify state machine U0 to U4 (R143, R149). Its value is the status; an inner `INVALID_ADDRESS`
"short-circuits immediately with that status". -/
def updateStep (addr : Addr) (v : Byte) (u : UpdatePhase) (s : State) : Sub UpdatePhase Status :=
  match u with
  | .u0 r => (readStep addr r s).andThen .u0 fun a =>
      match a with
      | none => .done .invalidAddress
      | some cur => .more (.u1 cur)
  | .u1 cur => .ok (if cur = v then .done .success else .more (.u2 .w0)) s
  | .u2 w => (writeStep addr v w s).andThen .u2 fun st =>
      if st = .success then .more (.u3 .nr0) else .done st
  | .u3 r => (readStep addr r s).andThen .u3 fun a =>
      match a with
      | none => .done .invalidAddress
      | some rb => .more (.u4 rb)
  | .u4 rb => .ok (.done (if rb = v then .success else .verifyFail)) s

/-- `NV_READ addr` (R141). The data byte of a failed read is a free value (R120, log 5). -/
def execNvRead (addr : Addr) (s : State) : Result :=
  s.foreground (.nvRead addr) (.nvRead .nr0) fun ph =>
    match ph with
    | .nvRead r => (readStep addr r s).run (.nvRead addr) .nvRead fun a t =>
        match a with
        | none => t.draw.respond .invalidAddress (Config.freeByte t.drawn)
        | some b => t.respond .success b
    | _ => .fault .strayPhase

/-- `NV_WRITE addr, v` (R142). -/
def execNvWrite (addr : Addr) (v : Byte) (s : State) : Result :=
  s.foreground (.nvWrite addr v) (.nvWrite .w0) fun ph =>
    match ph with
    | .nvWrite w => (writeStep addr v w s).run (.nvWrite addr v) .nvWrite fun st t => t.respond st 0x00
    | _ => .fault .strayPhase

/-- `NV_UPDATE addr, v` (R143). -/
def execNvUpdate (addr : Addr) (v : Byte) (s : State) : Result :=
  s.foreground (.nvUpdate addr v) (.nvUpdate (.u0 .nr0)) fun ph =>
    match ph with
    | .nvUpdate u => (updateStep addr v u s).run (.nvUpdate addr v) .nvUpdate fun st t => t.respond st 0x00
    | _ => .fault .strayPhase

/-- Agent `NVU`, enabled iff `NV_BUSY = 1`: the pending write completes (R144). What the medium stores is the
environment's: the byte written, or any byte of a worn cell (R145, log 6). -/
def nvuStep (worn : Option Byte) (s : State) : Result :=
  if s.nvBusy then
    if addrValid s.params s.nvAddr then
      .next { s.nvStore s.nvAddr (worn.getD s.nvData) with nvBusy := false }
    else .fault (.noSuchCell s.nvAddr)
  else .next s

end Sys2Proof.Machine
end

