-- ==== Sys2Proof/Machine/Agents.lean ====
section
/-! DEFINITION. Which command an event makes the sequencer run, the steps of the agents beside it, and reset
(spec/00_scope.md R10 to R13, spec/70_reset_and_hazards.md R320 to R323). -/

namespace Sys2Proof.Machine

/-- The command the sequencer runs a phase of in an event: a word presented on `CMD` is decoded and accepted when
`FG` is `IDLE` and refused otherwise (R57, R114, R115, R286); a step of `FG` goes on with the command under way.
`none` where the event runs no phase. -/
def commandOf (e : Event) (s : State) : Except Refusal (Option Instr) :=
  match e with
  | .command w =>
    match s.fg with
    | .run _ _ => .error .commandWhileBusy
    | .idle =>
      match decode w with
      | .ok i => .ok (some i)
      | .error (.reservedOpcode op) => .error (.reservedOpcode op)
      | .error (.reservedBits v) => .error (.reservedBits v)
  | .fg =>
    match s.fg with
    | .run i _ => .ok (some i)
    | .idle => .ok none
  | .hDrain => .ok none
  | .hRx => .ok none
  | .txu => .ok none
  | .rxu _ => .ok none
  | .spiu _ => .ok none
  | .nvu _ => .ok none
  | .reset => .ok none

/-- Reset (R320 to R323): every element takes its value of R64, `NVM` survives; the cell of a write pending at
reset holds a free byte afterwards (log 5). The model's pending events and counters go on (log 23). -/
def resetBlock (s : State) : State :=
  if s.nvBusy && addrValid s.params s.nvAddr then
    State.powerOn s.params (Memory.write s.params s.nvm s.nvAddr.toNat (Config.freeByte s.drawn)) s.agenda (s.drawn + 1) s.turn
  else State.powerOn s.params s.nvm s.agenda s.drawn s.turn

/-- The step of an event that runs no phase of a command. An agent whose step is not enabled lets the event pass
without a change (log 2); so does `FG` when it is idle. -/
def agentStep (e : Event) (s : State) : Result :=
  match e with
  | .command _ => .next s
  | .fg => .next s
  | .hDrain => .next (drainHandler s)
  | .hRx => .next (rxHandler s)
  | .txu => .next (txuStep s)
  | .rxu b => .next (rxuStep b s)
  | .spiu m => .next (spiuStep m s)
  | .nvu worn => nvuStep worn s
  | .reset => .next (resetBlock s)

/-- The next event becomes the presentation of a given command word, and the sequencer is idle so that it is
accepted (R57; log 9). -/
def State.presentWord (w : Word) (s : State) : State :=
  { s with fg := .idle, agenda := .command w :: s.agenda }

end Sys2Proof.Machine
end

