-- ==== Sys2Proof/Machine/Facade.lean ====
section
/-! DEFINITION. The Communication Facade (spec/43_communication_facade.md): its four commands, fixed sequences of the
phases of the bus and of the serial transport run as one command. It never touches the store (R254). -/

namespace Sys2Proof.Machine

/-- The phases H0 to H3 of `FAC_NOTIFY` (R251): tag, data and line-feed, each written whatever became of the one
before. Its value is `dropped`. -/
def lineStep (tag data : Byte) (h : LinePhase) (s : State) : Sub LinePhase Bool :=
  match h with
  | .h0 => if s.serInited then .ok (.more (.h1 .v0 false)) s else .refuse .notInitialized
  | .h1 q d => (charStep tag q s).andThen (.h1 · d) fun r => .more (.h2 .v0 (d || r == .dropped))
  | .h2 q d => (charStep data q s).andThen (.h2 · d) fun r => .more (.h3 .v0 (d || r == .dropped))
  | .h3 q d => (charStep lineFeed q s).andThen (.h3 · d) fun r => .done (d || r == .dropped)

/-- `FAC_UPDATE_PD reg, data` (R250): exactly phases P0 to P9 of `PD_REGWRITE`. -/
def execFacUpdatePd (reg data : Byte) (s : State) : Result :=
  s.foreground (.facUpdatePd reg data) (.pd .p0) fun ph =>
    match ph with
    | .pd f => (frameStep reg data f s).run (.facUpdatePd reg data) .pd fun _ t => t.respond .success 0x00
    | _ => .fault .strayPhase

/-- `FAC_NOTIFY tag, data` (R251). -/
def execFacNotify (tag data : Byte) (s : State) : Result :=
  s.foreground (.facNotify tag data) (.line .h0) fun ph =>
    match ph with
    | .line h => (lineStep tag data h s).run (.facNotify tag data) .line fun d t => t.respond (writeStatus d) 0x00
    | _ => .fault .strayPhase

/-- `FAC_UPDATE tag, reg, data` (R252): both preconditions first, then the bus part, then the line. -/
def execFacUpdate (tag reg data : Byte) (s : State) : Result :=
  s.foreground (.facUpdate tag reg data) .j0 fun ph =>
    match ph with
    | .j0 =>
      if s.serInited = false then .refused .notInitialized
      else if s.sel = .none then .next (s.goto (.facUpdate tag reg data) (.pd .p0))
      else .refused .busNotFree
    | .pd f => (frameStep reg data f s).run (.facUpdate tag reg data) .pd fun _ t =>
        t.goto (.facUpdate tag reg data) (.line .h0)
    | .line h => (lineStep tag data h s).run (.facUpdate tag reg data) .line fun d t =>
        t.respond (writeStatus d) 0x00
    | _ => .fault .strayPhase

/-- `FAC_SET_WIPER w1, w2` (R253): exactly phases Q0 to Q3 of `POT_WRITE`. -/
def execFacSetWiper (w1 w2 : Byte) (s : State) : Result :=
  s.foreground (.facSetWiper w1 w2) (.pot .q0) fun ph =>
    match ph with
    | .pot q => (potStep w1 w2 q s).run (.facSetWiper w1 w2) .pot fun _ t => t.respond .success 0x00
    | _ => .fault .strayPhase

end Sys2Proof.Machine
end

