-- ==== Sys2Proof/Machine/Interrupt.lean ====
section
/-! DEFINITION. The interrupt control commands (spec/44_interrupt_control.md). Dispatch is in Flags.lean, entry and
return in Ops.lean, the handlers in Serial.lean. -/

namespace Sys2Proof.Machine

/-- `IRQ_SUPPRESS` (R270): the token is `GIE` as it was, then `GIE` is 0. -/
def execIrqSuppress (s : State) : Result :=
  s.foreground .irqSuppress .k0 fun ph =>
    match ph with
    | .k0 => .next (State.respond .success (byteOfBool s.gie) { s with gie := false })
    | _ => .fault .strayPhase

/-- `IRQ_RESTORE t` (R271): `GIE` takes the token, not checked against any suppress. -/
def execIrqRestore (t : Bool) (s : State) : Result :=
  s.foreground (.irqRestore t) .l0 fun ph =>
    match ph with
    | .l0 => .next (State.respond .success 0x00 { s with gie := t })
    | _ => .fault .strayPhase

end Sys2Proof.Machine
end

