-- ==== Sys2Proof/Machine/Dispatch.lean ====
section
/-! DEFINITION. One phase of a command: each constructor's meaning. -/

namespace Sys2Proof.Machine

def exec (i : Instr) (s : State) : Host.Outcome State Fault Refusal :=
  match i with
  | .nvRead addr => Sys2Proof.Machine.execNvRead addr s
  | .nvWrite addr v => Sys2Proof.Machine.execNvWrite addr v s
  | .nvUpdate addr v => Sys2Proof.Machine.execNvUpdate addr v s
  | .spiXfer b => Sys2Proof.Machine.execSpiXfer b s
  | .csSelect p => Sys2Proof.Machine.execCsSelect p s
  | .csDeselect p => Sys2Proof.Machine.execCsDeselect p s
  | .pdRegwrite reg data => Sys2Proof.Machine.execPdRegwrite reg data s
  | .potWrite w1 w2 => Sys2Proof.Machine.execPotWrite w1 w2 s
  | .serInit e baud => Sys2Proof.Machine.execSerInit e baud s
  | .serWrite c => Sys2Proof.Machine.execSerWrite c s
  | .serRead => Sys2Proof.Machine.execSerRead s
  | .serAvail => Sys2Proof.Machine.execSerAvail s
  | .serOverrun => Sys2Proof.Machine.execSerOverrun s
  | .facUpdatePd reg data => Sys2Proof.Machine.execFacUpdatePd reg data s
  | .facNotify tag data => Sys2Proof.Machine.execFacNotify tag data s
  | .facUpdate tag reg data => Sys2Proof.Machine.execFacUpdate tag reg data s
  | .facSetWiper w1 w2 => Sys2Proof.Machine.execFacSetWiper w1 w2 s
  | .irqSuppress => Sys2Proof.Machine.execIrqSuppress s
  | .irqRestore t => Sys2Proof.Machine.execIrqRestore t s

end Sys2Proof.Machine
end

