-- ==== Sys2Proof/Machine/Step.lean ====
section
/-! DEFINITION. One atomic step of the block (spec/00_scope.md R10, R11), and how the host places a command word. -/

namespace Sys2Proof.Machine

/-- One atomic step: the next event is taken from the agenda; it makes the sequencer run a phase of a command, or
another agent step, or the block reset (log 1). -/
def step (s : State) : Host.Outcome State Fault Refusal :=
  match commandOf s.event s.takeEvent with
  | .error r => .refused r
  | .ok (some i) => exec i s.takeEvent
  | .ok none => agentStep s.event s.takeEvent

/-- `s` with a command word standing on `CMD` as the very next event, the sequencer idle: the user presents it
(R57, R110; log 9). -/
def State.withFetchWord (s : State) (nbits w : Nat) : State :=
  s.presentWord (BitVec.ofNat 32 (w % 2 ^ nbits))

end Sys2Proof.Machine
end

