-- ==== Sys2Proof/Safety.lean ====
section
/-! DEFINITION. What a safe state of the block is, in the terms the claims use: the invariants the spec states or
implies (spec/42_serial_transport.md R220, R221, spec/41_bus_master.md R178, R179, spec/10_state.md R37, R49, R51),
the byte streams of R223, and
fairness (spec/00_scope.md R14, spec/60_exceptions.md R306). -/

namespace Sys2Proof.Machine

/-! ### Parts of the invariant -/

/-- A circular buffer in range: `CAP` slots, `0 <= HEAD < CAP`, `0 <= COUNT <= CAP` (R31 to R37, R220). -/
def Ring.Ok (cap : Nat) (r : Ring) : Prop :=
  r.slots.length = cap ∧ r.head < cap ∧ r.count ≤ cap

/-- The selection a phase of `PD_REGWRITE` stands in: the line is active in P2 to P4 and P7 to P9 (R176). -/
def FramePhase.selection (f : FramePhase) : Sel :=
  match f with
  | .p0 => .none
  | .p1 => .none
  | .p2 _ => .pd
  | .p3 _ => .pd
  | .p4 => .pd
  | .p5 => .none
  | .p6 => .none
  | .p7 _ => .pd
  | .p8 _ => .pd
  | .p9 => .pd

/-- The selection a phase of `POT_WRITE` stands in (R177). -/
def PotPhase.selection (q : PotPhase) : Sel :=
  match q with
  | .q0 => .none
  | .q1 _ => .pot
  | .q2 _ => .pot
  | .q3 => .pot

/-- The phases a command under way can be in, with what they need of the state: a phase of the command's rule
after its first one (R57), a valid address past the bound check (R141 to R143), an initialized transport in
the serial part (R202, R203, R251, R252), the selection of the frame (R176, R177). -/
def State.underWay (s : State) (i : Instr) (ph : Phase) : Prop :=
  match i, ph with
  | .nvRead addr, .nvRead .nr1 => addrValid s.params addr = true
  | .nvWrite addr _, .nvWrite .w1 => addrValid s.params addr = true
  | .nvUpdate addr _, .nvUpdate _ => addrValid s.params addr = true
  | .spiXfer _, .xfer .x2 => True
  | .pdRegwrite _ _, .pd f => s.sel = f.selection
  | .potWrite _ _, .pot q => s.sel = q.selection
  | .serWrite _, .char _ => s.serInited = true
  | .serRead, .rd1 => s.serInited = true
  | .facUpdatePd _ _, .pd f => s.sel = f.selection
  | .facNotify _ _, .line _ => s.serInited = true
  | .facUpdate _ _ _, .pd f => s.serInited = true ∧ s.sel = f.selection
  | .facUpdate _ _ _, .line _ => s.serInited = true
  | .facSetWiper _ _, .pot q => s.sel = q.selection
  | _, _ => False

/-- The sequencer is idle, or in a phase of the command it runs (R57). -/
def State.SequencerOk (s : State) : Prop :=
  match s.fg with
  | .idle => True
  | .run i ph => s.underWay i ph

/-- Does the command under way await a transfer? -/
def Fg.awaitsTransfer (f : Fg) : Bool :=
  match f with
  | .idle => false
  | .run _ ph => ph.awaitsTransfer

/-- A transfer is in progress or done, never both, exactly while the command under way awaits it (R51, R172). -/
def State.TransferOk (s : State) : Prop :=
  (s.spiBusy || s.spiDone) = s.fg.awaitsTransfer ∧ (s.spiBusy && s.spiDone) = false

/-- The selection after one more bus event, if the event may follow: a line is driven active only from `NONE`,
inactive only when it was active, a transfer records the selection it was made in, and a delay passes with
no line active (R52, R178, R179). -/
def replayEvent (cur : Sel) (e : BusEvent) : Option Sel :=
  match e with
  | .sel p => if cur = .none then some (selOfPeriph p) else none
  | .desel p => if cur = selOfPeriph p then some .none else none
  | .xfer x _ _ => if x = cur then some cur else none
  | .gap _ => if cur = .none then some .none else none

/-- The selection a bus trace leaves, from `NONE`, if the trace is a proper one. -/
def replay (t : List BusEvent) : Option Sel :=
  t.foldlM replayEvent .none

/-- The invariant of the block: it holds after reset and every step keeps it. -/
structure State.Inv (s : State) : Prop where
  /-- the parameters satisfy the constraints of R6 -/
  params : s.params.Legal
  /-- the outbound buffer is in range (R220) -/
  outBuf : s.outBuf.Ok s.params.outCap
  /-- the inbound buffer is in range (R220) -/
  inBuf : s.inBuf.Ok s.params.inCap
  /-- a non-empty outbound buffer has the drain interrupt enabled (R221) -/
  drain : 0 < s.outBuf.count → s.drainIe = true
  /-- a stored byte is never a carriage-return (R203 corner case b) -/
  captured : ∀ b ∈ s.inBuf.pending s.params.inCap, b ≠ carriageReturn
  /-- the receive interrupt is enabled from initialization on (R46, R200) -/
  receive : s.rxIe = s.serInited
  /-- before initialization the buffers are empty (R200) -/
  fresh : s.serInited = false → s.outBuf.count = 0 ∧ s.inBuf.count = 0
  /-- the cells are in canonical form and exist (R53) -/
  cells : Memory.wf s.params s.nvm = true
  /-- a pending write is to a cell that exists (R142) -/
  pending : s.nvBusy = true → addrValid s.params s.nvAddr = true
  /-- the sequencer is in a phase of the command it runs (R57) -/
  sequencer : s.SequencerOk
  /-- a transfer is under way exactly while a command awaits it (R51, R172) -/
  transfer : s.TransferOk
  /-- the bus trace is a proper one and leaves the present selection (R52, R178) -/
  trace : replay s.busTrace = some s.sel

/-! ### The streams of R223 and R91 -/

/-- The bytes waiting in the transmitter (R40). -/
def State.inTransmitter (s : State) : List Byte :=
  if s.txFull then [s.txData] else []

/-- Everything enqueued for the host so far, oldest first: on the line, in the transmitter, in the buffer (R223). -/
def State.outStream (s : State) : List Byte :=
  s.txLine ++ s.inTransmitter ++ s.outBuf.pending s.params.outCap

/-- The bytes stored for the foreground and not yet read, oldest first (R223). -/
def State.inStream (s : State) : List Byte :=
  s.inBuf.pending s.params.inCap

/-- The byte of a cell, as the store commands read it (R8). -/
def State.cell (s : State) (a : Addr) : Byte :=
  Memory.read s.params s.nvm a.toNat

/-- An event of an agent that shares no state with the store and runs no command: both handlers, the transmitter,
the receiver and the shifter (R93, R150). -/
def isBackground (e : Event) : Bool :=
  match e with
  | .command _ => false
  | .fg => false
  | .hDrain => true
  | .hRx => true
  | .txu => true
  | .rxu _ => true
  | .spiu _ => true
  | .nvu _ => false
  | .reset => false

/-- An event of an agent that shares no state with the bus master and runs no command: both handlers, the transmitter,
the receiver and the write engine (R93, R170). -/
def isOffBus (e : Event) : Bool :=
  match e with
  | .command _ => false
  | .fg => false
  | .hDrain => true
  | .hRx => true
  | .txu => true
  | .rxu _ => true
  | .spiu _ => false
  | .nvu _ => true
  | .reset => false

/-- `es` is an interleaving (R11) of the events `own`, in their order, with any events that `other` holds of, in any
number and at any place. -/
abbrev Interleaves (own : List Event) (other : Event → Bool) (es : List Event) : Prop :=
  es.filter (fun e => !other e) = own

/-! ### Fairness (R14) -/

/-- `P` holds of the state `n` steps on, unless the run has stopped by then. -/
def State.after (s : State) (n : Nat) (P : State → Prop) : Prop :=
  match Host.Core.run Sys2Proof.core n s with
  | .next u => P u
  | .fault _ => True
  | .refused _ => True

/-- The run from `s` is weakly fair to an agent: again and again the agent takes a step or is not enabled, so that an
enabled step is eventually taken (R14, R291). A run that stops asks nothing. For `TXU`, `NVU`, the handlers and `FG` the
block sees to it; of `SPIU` and `RXU` a claim takes it as a premise (R14). -/
def State.WeaklyFair (a : Agent) (s : State) : Prop :=
  ∀ n, ∃ m, n ≤ m ∧ s.after m fun u => u.enables a = false ∨ u.event.agent = some a

/-- `P` holds at some time of the run from `s`, unless the run stops first. -/
def State.Eventually (P : State → Prop) (s : State) : Prop :=
  ∃ n, s.after n P

/-- The commands that run transfers, and never end where the bus never completes one (R306 (a)). -/
def usesBus (i : Instr) : Bool :=
  match i with
  | .nvRead _ => false
  | .nvWrite _ _ => false
  | .nvUpdate _ _ => false
  | .spiXfer _ => true
  | .csSelect _ => false
  | .csDeselect _ => false
  | .pdRegwrite _ _ => true
  | .potWrite _ _ => true
  | .serInit _ _ => false
  | .serWrite _ => false
  | .serRead => false
  | .serAvail => false
  | .serOverrun => false
  | .facUpdatePd _ _ => true
  | .facNotify _ _ => false
  | .facUpdate _ _ _ => true
  | .facSetWiper _ _ => true
  | .irqSuppress => false
  | .irqRestore _ => false

/-- The state with these events pending. -/
def State.withAgenda (s : State) (es : List Event) : State :=
  { s with agenda := es }

end Sys2Proof.Machine
end

