-- ==== Sys2Proof/Certificates/Slice0/Obligations.lean ====
section
/-! DEFINITION. The statements for the provers, from the numbered rules of spec/. `exec i` is one phase of command `i`
(R9, R11): from `IDLE` its first phase, else the phase `FG` names; the statements write the state before as
`{ s with fg := … }`, so that they hold for every `s`, and the state after as `s` with what changes, so that
everything not written there is unchanged. Which agent steps next, and with which input, stands at the head of `agenda`
(the model's own field, log 1); that an event of an agent whose step is not enabled passes is log 2. -/

open Sys2Proof Sys2Proof.Machine

/-! ### Encoding -/

/-- Decode and encode agree: the decoder reads back every command from its word (R111 to R113, R116). -/
def Obligations.DecodeOfEncodeIsIdentity : Prop :=
  ∀ i : Instr, decode (encode i) = .ok i

/-- A word has one meaning: the command a word decodes to encodes to that very word, so no bit of it is dropped
(R112, R113, R115). -/
def Obligations.EncodeOfDecodeIsIdentity : Prop :=
  ∀ (w : Word) (i : Instr), decode w = .ok i → encode i = w

/-- R113: a word is the command of a row of the opcode map iff `w & mask == match`. -/
def Obligations.DecodeFollowsOpcodeMap : Prop :=
  ∀ (w : Word) (r : OpcodeRow), r ∈ opcodeMap →
    (w &&& r.mask = r.value ↔ ∃ i, decode w = .ok i ∧ i.mnemonic = r.mnemonic)

/-- R114: a word with a reserved opcode, presented to the idle block, is refused. -/
def Obligations.ReservedOpcodeIsRefused : Prop :=
  ∀ (s : State) (w : Word) (es : List Event),
    s.fg = .idle → s.agenda = .command w :: es →
    (∀ r ∈ opcodeMap, r.value.extractLsb' 24 8 ≠ w.extractLsb' 24 8) →
    step s = .refused (.reservedOpcode (w.extractLsb' 24 8))

/-- R115: a word whose opcode is in the map but which has a reserved bit of its format set is refused. -/
def Obligations.ReservedBitIsRefused : Prop :=
  ∀ (s : State) (w : Word) (es : List Event) (r : OpcodeRow),
    s.fg = .idle → s.agenda = .command w :: es →
    r ∈ opcodeMap → w.extractLsb' 24 8 = r.value.extractLsb' 24 8 → w &&& r.mask ≠ r.value →
    step s = .refused (.reservedBits w)

/-- Words written out from the spec's encodings decode to the commands they stand for (spec/95_test_vectors.md 2.1). -/
def Obligations.SampleWordsDecode : Prop :=
  decode 0x10000300 = .ok (.nvRead 3) ∧
  decode 0x1200FFAA = .ok (.nvUpdate 0x00FF 0xAA) ∧
  decode 0x21000001 = .ok (.csSelect .pot) ∧
  decode 0x2300027F = .ok (.pdRegwrite 0x02 0x7F) ∧
  decode 0x30802580 = .ok (.serInit true 9600) ∧
  decode 0x4258027F = .ok (.facUpdate 0x58 0x02 0x7F) ∧
  decode 0x51000001 = .ok (.irqRestore true)

/-! ### The step -/

/-- A step in which a word is presented to the idle block runs the first phase of the decoded command (R57, R110). That
acceptance and first phase are one step is the model's choice (log 3, DEDUCED). -/
def Obligations.StepRunsPresentedCommand : Prop :=
  ∀ (s : State) (w : Word) (i : Instr) (es : List Event),
    s.fg = .idle → s.agenda = .command w :: es → decode w = .ok i →
    step s = exec i { s with agenda := es }

/-- A step of `FG` runs the phase `FG` names of the command under way, and passes when the sequencer is idle (R10,
R57, R60). -/
def Obligations.StepRunsCommandUnderWay : Prop :=
  ∀ (s : State) (es : List Event), s.agenda = .fg :: es →
    (∀ i ph, s.fg = .run i ph → step s = exec i { s with agenda := es }) ∧
    (s.fg = .idle → step s = .next { s with agenda := es })

/-- R286, last row: a command word presented while `FG` is not `IDLE` is refused, whatever the word. -/
def Obligations.WordWhileBusyIsRefused : Prop :=
  ∀ (s : State) (w : Word) (es : List Event) (i : Instr) (ph : Phase),
    s.agenda = .command w :: es → s.fg = .run i ph → step s = .refused .commandWhileBusy

/-! ### Persistent Store -/

/-- R147: on an invalid address the three store commands answer `INVALID_ADDRESS` at once, with a write pending too,
and touch nothing of the store. The data byte of the failed read is free: any byte (log 5). -/
def Obligations.InvalidAddressNoAccess : Prop :=
  ∀ (s : State) (addr : Addr) (v : Byte), s.params.maxAddress.toNat < addr.toNat →
    (∃ d : Byte, exec (.nvRead addr) { s with fg := .idle } =
      .next { s with fg := .idle, rsp := 0x01#8 ++ d, drawn := s.drawn + 1 }) ∧
    exec (.nvWrite addr v) { s with fg := .idle } = .next { s with fg := .idle, rsp := 0x0100 } ∧
    exec (.nvUpdate addr v) { s with fg := .idle } = .next { s with fg := .idle, rsp := 0x0100 }

/-- R141: the phases NR0 and NR1 of `NV_READ` on a valid address: bound check, wait for a pending write, access. -/
def Obligations.NvReadPhases : Prop :=
  ∀ (s : State) (addr : Addr), addr.toNat ≤ s.params.maxAddress.toNat →
    exec (.nvRead addr) { s with fg := .idle } =
      .next { s with fg := .run (.nvRead addr) (.nvRead .nr1) } ∧
    (s.nvBusy = true → exec (.nvRead addr) { s with fg := .run (.nvRead addr) (.nvRead .nr1) } =
      .next { s with fg := .run (.nvRead addr) (.nvRead .nr1) }) ∧
    (s.nvBusy = false → exec (.nvRead addr) { s with fg := .run (.nvRead addr) (.nvRead .nr1) } =
      .next { s with
        fg := .idle, rsp := 0x00#8 ++ s.cell addr, nvAddr := addr, nvData := s.cell addr,
        nvAccessCount := s.nvAccessCount + 1 })

/-- R142: the phases W0 and W1 of `NV_WRITE` on a valid address: the write is issued, no cell changes. -/
def Obligations.NvWritePhases : Prop :=
  ∀ (s : State) (addr : Addr) (v : Byte), addr.toNat ≤ s.params.maxAddress.toNat →
    exec (.nvWrite addr v) { s with fg := .idle } =
      .next { s with fg := .run (.nvWrite addr v) (.nvWrite .w1) } ∧
    (s.nvBusy = true → exec (.nvWrite addr v) { s with fg := .run (.nvWrite addr v) (.nvWrite .w1) } =
      .next { s with fg := .run (.nvWrite addr v) (.nvWrite .w1) }) ∧
    (s.nvBusy = false → exec (.nvWrite addr v) { s with fg := .run (.nvWrite addr v) (.nvWrite .w1) } =
      .next { s with
        fg := .idle, rsp := 0x0000, nvAddr := addr, nvData := v, nvBusy := true,
        nvWriteCount := s.nvWriteCount + 1, nvAccessCount := s.nvAccessCount + 1 })

/-- R149: the verify state machine of `NV_UPDATE`, row by row (U0, U2 and U3 with their inner phase pairs). -/
def Obligations.NvUpdateStateMachine : Prop :=
  ∀ (s : State) (addr : Addr) (v cur : Byte),
    let i := Instr.nvUpdate addr v
    let at' := fun u => { s with fg := .run i (.nvUpdate u) }
    (s.params.maxAddress.toNat < addr.toNat →
      exec i { s with fg := .idle } = .next { s with fg := .idle, rsp := 0x0100 }) ∧
    (addr.toNat ≤ s.params.maxAddress.toNat →
      exec i { s with fg := .idle } = .next (at' (.u0 .nr1)) ∧
      exec i (at' (.u2 .w0)) = .next (at' (.u2 .w1)) ∧
      exec i (at' (.u3 .nr0)) = .next (at' (.u3 .nr1))) ∧
    (s.nvBusy = true →
      exec i (at' (.u0 .nr1)) = .next (at' (.u0 .nr1)) ∧
      exec i (at' (.u2 .w1)) = .next (at' (.u2 .w1)) ∧
      exec i (at' (.u3 .nr1)) = .next (at' (.u3 .nr1))) ∧
    (s.nvBusy = false → addr.toNat ≤ s.params.maxAddress.toNat →
      exec i (at' (.u0 .nr1)) = .next { at' (.u1 (s.cell addr)) with
        nvAddr := addr, nvData := s.cell addr, nvAccessCount := s.nvAccessCount + 1 } ∧
      exec i (at' (.u2 .w1)) = .next { at' (.u3 .nr0) with
        nvAddr := addr, nvData := v, nvBusy := true,
        nvWriteCount := s.nvWriteCount + 1, nvAccessCount := s.nvAccessCount + 1 } ∧
      exec i (at' (.u3 .nr1)) = .next { at' (.u4 (s.cell addr)) with
        nvAddr := addr, nvData := s.cell addr, nvAccessCount := s.nvAccessCount + 1 }) ∧
    (cur = v → exec i (at' (.u1 cur)) = .next { s with fg := .idle, rsp := 0x0000 } ∧
      exec i (at' (.u4 cur)) = .next { s with fg := .idle, rsp := 0x0000 }) ∧
    (cur ≠ v → exec i (at' (.u1 cur)) = .next (at' (.u2 .w0)) ∧
      exec i (at' (.u4 cur)) = .next { s with fg := .idle, rsp := 0x0200 })

/-- R144: `NVU`, enabled iff `NV_BUSY = 1`, stores the pending byte into the pending cell, leaves every other cell,
clears `NV_BUSY`, and changes nothing else. What a worn cell stores instead (R145) comes with the event, any byte (the
model's choice, log 6); that an event of `NVU` with `NV_BUSY = 0` passes is the model's choice too (log 2). -/
def Obligations.NvuCompletesPendingWrite : Prop :=
  ∀ (s : State) (worn : Option Byte) (es : List Event), s.agenda = .nvu worn :: es →
    (s.nvBusy = true → s.nvAddr.toNat ≤ s.params.maxAddress.toNat → Memory.wf s.params s.nvm = true →
      ∃ t, step s = .next t ∧ t = { s with agenda := es, nvBusy := false, nvm := t.nvm } ∧
        t.cell s.nvAddr = worn.getD s.nvData ∧
        (∀ b, b ≠ s.nvAddr → t.cell b = s.cell b) ∧
        Memory.wf t.params t.nvm = true) ∧
    (s.nvBusy = false → step s = .next { s with agenda := es })

/-- Only `NVU` and a reset change the cell array, over every step of every state (R53 "Written only by `NVU`", R144,
R323). -/
def Obligations.OnlyNvuAndResetChangeCells : Prop :=
  ∀ s t : State, step s = .next t → s.event ≠ .reset → (∀ worn, s.event ≠ .nvu worn) → t.nvm = s.nvm

/-- R146: on a healthy medium (`NVU` stores what was written) `NV_WRITE a, v` followed by `NV_READ a` returns `v`,
whatever the handlers, the transmitter, the receiver and the shifter do in between. -/
def Obligations.WriteThenReadReturnsValue : Prop :=
  ∀ (s : State) (addr : Addr) (v : Byte) (q₁ q₂ q₃ q₄ rest : List Event),
    s.fg = .idle → s.nvBusy = false → addr.toNat ≤ s.params.maxAddress.toNat →
    Memory.wf s.params s.nvm = true →
    (∀ e ∈ q₁ ++ q₂ ++ q₃ ++ q₄, isBackground e = true) →
    ∃ t : State,
      Host.Core.run Sys2Proof.core (5 + (q₁.length + q₂.length + q₃.length + q₄.length))
        (s.withAgenda (.command (encode (.nvWrite addr v)) :: q₁ ++ .fg :: q₂ ++ .nvu none :: q₃ ++
          .command (encode (.nvRead addr)) :: q₄ ++ .fg :: rest)) = .next t ∧
      t.agenda = rest ∧ t.fg = .idle ∧ t.rsp = 0x00#8 ++ v ∧ t.cell addr = v ∧
      ∀ b, b ≠ addr → t.cell b = s.cell b

/-- `NV_UPDATE` from a cell that differs (R143), whatever the handlers, the transmitter, the receiver and the shifter do
between its phases (R11) and however long it waits for `NVU` (`waits` further steps of `FG` before it): one device write,
two reads, and the status says whether the medium stored the value: `SUCCESS` or `VERIFY_FAIL`, the cell keeping what was
stored (R145, R282). Where no other agent steps, nothing else changes. -/
def Obligations.UpdateVerifiesWhatWasStored : Prop :=
  ∀ (s : State) (addr : Addr) (v : Byte) (worn : Option Byte) (waits : Nat) (es rest : List Event),
    s.fg = .idle → s.nvBusy = false → addr.toNat ≤ s.params.maxAddress.toNat →
    Memory.wf s.params s.nvm = true → s.cell addr ≠ v →
    Interleaves (List.replicate (4 + waits) .fg ++ .nvu worn :: List.replicate (if waits = 0 then 3 else 2) .fg)
      isBackground es →
    ∃ t : State,
      Host.Core.run Sys2Proof.core (1 + es.length)
        (s.withAgenda (.command (encode (.nvUpdate addr v)) :: es ++ rest)) = .next t ∧
      t.agenda = rest ∧ t.fg = .idle ∧ t.rsp = (if worn.getD v = v then 0x0000 else 0x0200) ∧
      t.nvBusy = false ∧ t.nvWriteCount = s.nvWriteCount + 1 ∧ t.nvAccessCount = s.nvAccessCount + 3 ∧
      t.cell addr = worn.getD v ∧ (∀ b, b ≠ addr → t.cell b = s.cell b) ∧
      ((∀ e ∈ es, isBackground e = false) → t = { s with
        agenda := rest, nvm := t.nvm, nvAddr := addr, nvData := worn.getD v,
        rsp := if worn.getD v = v then 0x0000 else 0x0200,
        nvWriteCount := s.nvWriteCount + 1, nvAccessCount := s.nvAccessCount + 3 })

/-- R143 (d): `NV_UPDATE a, v` called twice in succession on a healthy medium performs a device write at most once: one
when the cell holds another byte, none when it already holds `v`, whatever the handlers, the transmitter, the receiver
and the shifter do between the phases (R11) and however long the first call waits for `NVU`. -/
def Obligations.UpdateTwiceWritesOnce : Prop :=
  ∀ (s : State) (addr : Addr) (v : Byte) (waits : Nat) (es rest : List Event),
    s.fg = .idle → s.nvBusy = false → addr.toNat ≤ s.params.maxAddress.toNat →
    Memory.wf s.params s.nvm = true →
    let word := Event.command (encode (.nvUpdate addr v))
    (s.cell addr ≠ v →
      Interleaves (List.replicate (4 + waits) .fg ++ .nvu none :: List.replicate (if waits = 0 then 3 else 2) .fg ++
        [word, .fg, .fg]) isBackground es →
      ∃ t : State,
        Host.Core.run Sys2Proof.core (1 + es.length) (s.withAgenda (word :: es ++ rest)) = .next t ∧
        t.agenda = rest ∧ t.fg = .idle ∧ t.rsp = 0x0000 ∧ t.nvBusy = false ∧
        t.cell addr = v ∧ (∀ b, b ≠ addr → t.cell b = s.cell b) ∧
        t.nvWriteCount = s.nvWriteCount + 1 ∧ t.nvAccessCount = s.nvAccessCount + 4) ∧
    (s.cell addr = v →
      Interleaves [.fg, .fg, word, .fg, .fg] isBackground es →
      ∃ t : State,
        Host.Core.run Sys2Proof.core (1 + es.length) (s.withAgenda (word :: es ++ rest)) = .next t ∧
        t.agenda = rest ∧ t.fg = .idle ∧ t.rsp = 0x0000 ∧ t.nvBusy = false ∧ t.nvm = s.nvm ∧
        t.nvWriteCount = s.nvWriteCount ∧ t.nvAccessCount = s.nvAccessCount + 2)

/-! ### Bus Master -/

/-- R172: the phases X1 and X2 of `SPI_XFER`: the byte is put out, the completion awaited, the byte shifted in
returned. -/
def Obligations.SpiXferPhases : Prop :=
  ∀ (s : State) (b : Byte),
    exec (.spiXfer b) { s with fg := .idle } =
      .next { s with fg := .run (.spiXfer b) (.xfer .x2), spiData := b, spiDone := false, spiBusy := true } ∧
    (s.spiDone = false → exec (.spiXfer b) { s with fg := .run (.spiXfer b) (.xfer .x2) } =
      .next { s with fg := .run (.spiXfer b) (.xfer .x2) }) ∧
    (s.spiDone = true → exec (.spiXfer b) { s with fg := .run (.spiXfer b) (.xfer .x2) } =
      .next { s with fg := .idle, rsp := 0x00#8 ++ s.spiData, spiDone := false })

/-- R171: `SPIU`, enabled iff `SPI_BUSY = 1`, exchanges one byte, `m` being whatever the peripheral shifts in. -/
def Obligations.SpiuExchangesOneByte : Prop :=
  ∀ (s : State) (m : Byte) (es : List Event), s.agenda = .spiu m :: es →
    (s.spiBusy = true → step s = .next { s with
      agenda := es, busTrace := s.busTrace ++ [.xfer s.sel s.spiData m],
      spiData := m, spiBusy := false, spiDone := true }) ∧
    (s.spiBusy = false → step s = .next { s with agenda := es })

/-- R173: `CS_SELECT p` from `NONE` selects `p`; with `p` selected already it changes nothing but the response; with the
other peripheral selected it is refused. R50: the lines of each selection, `CS_PD_N` low for the peripheral device only
and `CS_POT` high for the potentiometer only, so that the line of the one not selected stays inactive. -/
def Obligations.CsSelectCases : Prop :=
  ∀ (s : State) (p : Periph),
    (s.sel = .none → exec (.csSelect p) { s with fg := .idle } = .next { s with
      fg := .idle, rsp := 0x0000, sel := (match p with | .pd => .pd | .pot => .pot),
      busTrace := s.busTrace ++ [.sel p] }) ∧
    (s.sel = (match p with | .pd => .pd | .pot => .pot) →
      exec (.csSelect p) { s with fg := .idle } = .next { s with fg := .idle, rsp := 0x0000 }) ∧
    (s.sel = (match p with | .pd => .pot | .pot => .pd) →
      exec (.csSelect p) { s with fg := .idle } = .refused .otherPeripheralSelected) ∧
    Sel.none.csPdN = true ∧ Sel.none.csPot = false ∧
    Sel.pd.csPdN = false ∧ Sel.pd.csPot = false ∧
    Sel.pot.csPdN = true ∧ Sel.pot.csPot = true

/-- R174: `CS_DESELECT p` with `p` selected drives its line inactive; else it changes nothing but the response. -/
def Obligations.CsDeselectCases : Prop :=
  ∀ (s : State) (p : Periph),
    (s.sel = (match p with | .pd => .pd | .pot => .pot) →
      exec (.csDeselect p) { s with fg := .idle } = .next { s with
        fg := .idle, rsp := 0x0000, sel := .none, busTrace := s.busTrace ++ [.desel p] }) ∧
    (s.sel ≠ (match p with | .pd => .pd | .pot => .pot) →
      exec (.csDeselect p) { s with fg := .idle } = .next { s with fg := .idle, rsp := 0x0000 })

/-- R176 and R250: the phases of the register-write protocol, run by `PD_REGWRITE`, by `FAC_UPDATE_PD` and as part J1
of `FAC_UPDATE`: the delays, the selections, the four transfers (each put out, awaited, its byte discarded) and the
end, a response or, in `FAC_UPDATE`, the line. -/
def Obligations.RegisterWritePhases : Prop :=
  ∀ (s : State) (tag reg data : Byte) (i : Instr),
    i = .pdRegwrite reg data ∨ i = .facUpdatePd reg data ∨ i = .facUpdate tag reg data →
    let at' := fun f => { s with fg := .run i (.pd f) }
    (s.sel = .none →
      (i ≠ .facUpdate tag reg data → exec i { s with fg := .idle } =
        .next { at' .p1 with busTrace := s.busTrace ++ [.gap .recover] }) ∧
      exec i (at' .p0) = .next { at' .p1 with busTrace := s.busTrace ++ [.gap .recover] }) ∧
    exec i (at' .p1) = .next { at' (.p2 .x1) with sel := .pd, busTrace := s.busTrace ++ [.sel .pd] } ∧
    (∀ x ∈ [(FramePhase.p2, reg, FramePhase.p3 .x1), (.p3, data, .p4), (.p7, 0xFF, .p8 .x1), (.p8, 0x00, .p9)],
      exec i (at' (x.1 .x1)) = .next { at' (x.1 .x2) with
        spiData := x.2.1, spiDone := false, spiBusy := true } ∧
      (s.spiDone = false → exec i (at' (x.1 .x2)) = .next (at' (x.1 .x2))) ∧
      (s.spiDone = true → exec i (at' (x.1 .x2)) = .next { at' x.2.2 with spiDone := false })) ∧
    exec i (at' .p4) = .next { at' .p5 with sel := .none, busTrace := s.busTrace ++ [.desel .pd] } ∧
    exec i (at' .p5) = .next { at' .p6 with busTrace := s.busTrace ++ [.gap .commit] } ∧
    exec i (at' .p6) = .next { at' (.p7 .x1) with sel := .pd, busTrace := s.busTrace ++ [.sel .pd] } ∧
    (i ≠ .facUpdate tag reg data → exec i (at' .p9) = .next { s with
      fg := .idle, rsp := 0x0000, sel := .none, busTrace := s.busTrace ++ [.desel .pd] }) ∧
    (i = .facUpdate tag reg data → exec i (at' .p9) = .next { s with
      fg := .run i (.line .h0), sel := .none, busTrace := s.busTrace ++ [.desel .pd] })

/-- R177 and R253: the phases of the potentiometer frame, run by `POT_WRITE` and by `FAC_SET_WIPER`. -/
def Obligations.PotentiometerPhases : Prop :=
  ∀ (s : State) (w1 w2 : Byte) (i : Instr),
    i = .potWrite w1 w2 ∨ i = .facSetWiper w1 w2 →
    let at' := fun q => { s with fg := .run i (.pot q) }
    (s.sel = .none → exec i { s with fg := .idle } =
      .next { at' (.q1 .x1) with sel := .pot, busTrace := s.busTrace ++ [.sel .pot] }) ∧
    (∀ x ∈ [(PotPhase.q1, w1, PotPhase.q2 .x1), (.q2, w2, .q3)],
      exec i (at' (x.1 .x1)) = .next { at' (x.1 .x2) with
        spiData := x.2.1, spiDone := false, spiBusy := true } ∧
      (s.spiDone = false → exec i (at' (x.1 .x2)) = .next (at' (x.1 .x2))) ∧
      (s.spiDone = true → exec i (at' (x.1 .x2)) = .next { at' x.2.2 with spiDone := false })) ∧
    exec i (at' .q3) = .next { s with
      fg := .idle, rsp := 0x0000, sel := .none, busTrace := s.busTrace ++ [.desel .pot] }

/-- R286: the five framing commands are refused while a peripheral is selected. -/
def Obligations.FramingRefusedWhileSelected : Prop :=
  ∀ (s : State) (a b c : Byte), s.sel ≠ .none →
    exec (.pdRegwrite a b) { s with fg := .idle } = .refused .busNotFree ∧
    exec (.potWrite a b) { s with fg := .idle } = .refused .busNotFree ∧
    exec (.facUpdatePd a b) { s with fg := .idle } = .refused .busNotFree ∧
    exec (.facSetWiper a b) { s with fg := .idle } = .refused .busNotFree ∧
    (s.serInited = true → exec (.facUpdate a b c) { s with fg := .idle } = .refused .busNotFree)

/-- R176, R250: run to its response, a register update appends exactly the ten bus events of the two frames and their
delays, whatever bytes are shifted in, however long each transfer takes (`n₁` to `n₄` waiting steps of `FG`) and whatever
the handlers, the transmitter, the receiver and `NVU` do between the phases (R11). A write pending at the start is to a
cell that exists, as the invariant says. Where no other agent steps, nothing else changes. -/
def Obligations.RegisterWriteTenEvents : Prop :=
  ∀ (s : State) (reg data m₁ m₂ m₃ m₄ : Byte) (n₁ n₂ n₃ n₄ : Nat) (i : Instr) (es rest : List Event),
    i = .pdRegwrite reg data ∨ i = .facUpdatePd reg data →
    s.fg = .idle → s.sel = .none → (s.nvBusy = true → addrValid s.params s.nvAddr = true) →
    Interleaves
      (List.replicate (2 + n₁) .fg ++ .spiu m₁ :: List.replicate (2 + n₂) .fg ++ .spiu m₂ ::
        List.replicate (5 + n₃) .fg ++ .spiu m₃ :: List.replicate (2 + n₄) .fg ++ .spiu m₄ :: [.fg, .fg])
      isOffBus es →
    let trace := s.busTrace ++
      [.gap .recover, .sel .pd, .xfer .pd reg m₁, .xfer .pd data m₂, .desel .pd,
       .gap .commit, .sel .pd, .xfer .pd 0xFF m₃, .xfer .pd 0x00 m₄, .desel .pd]
    ∃ t : State,
      Host.Core.run Sys2Proof.core (1 + es.length) (s.withAgenda (.command (encode i) :: es ++ rest)) = .next t ∧
      t.agenda = rest ∧ t.fg = .idle ∧ t.rsp = 0x0000 ∧ t.sel = .none ∧ t.busTrace = trace ∧
      t.spiData = m₄ ∧ t.spiBusy = false ∧ t.spiDone = false ∧
      ((∀ e ∈ es, isOffBus e = false) → t = { s with
        agenda := rest, rsp := 0x0000, spiData := m₄, spiBusy := false, spiDone := false, busTrace := trace })

/-- R177, R253: run to its response, a potentiometer write appends exactly the four bus events of its frame, whatever
bytes are shifted in, however long each transfer takes and whatever the handlers, the transmitter, the receiver and `NVU`
do between the phases (R11). A write pending at the start is to a cell that exists, as the invariant says. Where no other
agent steps, nothing else changes. -/
def Obligations.PotentiometerFourEvents : Prop :=
  ∀ (s : State) (w1 w2 m₁ m₂ : Byte) (n₁ n₂ : Nat) (i : Instr) (es rest : List Event),
    i = .potWrite w1 w2 ∨ i = .facSetWiper w1 w2 →
    s.fg = .idle → s.sel = .none → (s.nvBusy = true → addrValid s.params s.nvAddr = true) →
    Interleaves
      (List.replicate (1 + n₁) .fg ++ .spiu m₁ :: List.replicate (2 + n₂) .fg ++ .spiu m₂ :: [.fg, .fg])
      isOffBus es →
    let trace := s.busTrace ++ [.sel .pot, .xfer .pot w1 m₁, .xfer .pot w2 m₂, .desel .pot]
    ∃ t : State,
      Host.Core.run Sys2Proof.core (1 + es.length) (s.withAgenda (.command (encode i) :: es ++ rest)) = .next t ∧
      t.agenda = rest ∧ t.fg = .idle ∧ t.rsp = 0x0000 ∧ t.sel = .none ∧ t.busTrace = trace ∧
      t.spiData = m₂ ∧ t.spiBusy = false ∧ t.spiDone = false ∧
      ((∀ e ∈ es, isOffBus e = false) → t = { s with
        agenda := rest, rsp := 0x0000, spiData := m₂, spiBusy := false, spiDone := false, busTrace := trace })

/-! ### Serial Transport -/

/-- R200: `SER_INIT` before initialization writes the configuration and empties both buffers; after it, it is
refused. -/
def Obligations.SerInitOnce : Prop :=
  ∀ (s : State) (e : Bool) (baud : BitVec 23),
    (s.serInited = false → exec (.serInit e baud) { s with fg := .idle } = .next { s with
      fg := .idle, rsp := 0x0000, echo := e, baud := baud,
      outBuf := ⟨s.outBuf.slots, 0, 0⟩, inBuf := ⟨s.inBuf.slots, 0, 0⟩,
      drainIe := false, rxIe := true, serInited := true }) ∧
    (s.serInited = true → exec (.serInit e baud) { s with fg := .idle } = .refused .alreadyInitialized)

/-- R286: the serial and notifying commands are refused while the transport is not initialized. -/
def Obligations.SerialRefusedBeforeInit : Prop :=
  ∀ (s : State) (a b c : Byte), s.serInited = false →
    exec (.serWrite a) { s with fg := .idle } = .refused .notInitialized ∧
    exec .serRead { s with fg := .idle } = .refused .notInitialized ∧
    exec .serAvail { s with fg := .idle } = .refused .notInitialized ∧
    exec .serOverrun { s with fg := .idle } = .refused .notInitialized ∧
    exec (.facNotify a b) { s with fg := .idle } = .refused .notInitialized ∧
    exec (.facUpdate a b c) { s with fg := .idle } = .refused .notInitialized

/-- R202 and R201: the phases V0 to V2 of `SER_WRITE`: a line-feed goes through V1 first; each byte is enqueued where
there is room, dropped when the buffer is full and interrupts are disabled, awaited when they are enabled. -/
def Obligations.SerWritePhases : Prop :=
  ∀ (s : State) (c : Byte),
    let i := Instr.serWrite c
    let at' := fun q => { s with fg := .run i (.char q) }
    (s.serInited = true → exec i { s with fg := .idle } = .next (at' (if c = 0x0A then .v1 else .v2))) ∧
    (s.outBuf.count < s.params.outCap →
      exec i (at' .v1) = .next { at' .v2 with
        drainIe := true,
        outBuf := ⟨s.outBuf.slots.set s.outBuf.head 0x0D, (s.outBuf.head + 1) % s.params.outCap,
          s.outBuf.count + 1⟩ } ∧
      exec i (at' .v2) = .next { s with
        fg := .idle, rsp := 0x0000, drainIe := true,
        outBuf := ⟨s.outBuf.slots.set s.outBuf.head c, (s.outBuf.head + 1) % s.params.outCap,
          s.outBuf.count + 1⟩ }) ∧
    (s.params.outCap ≤ s.outBuf.count → s.gie = false →
      exec i (at' .v1) = .next (at' .v2) ∧
      exec i (at' .v2) = .next { s with fg := .idle, rsp := 0x0300 }) ∧
    (s.params.outCap ≤ s.outBuf.count → s.gie = true →
      exec i (at' .v1) = .next (at' .v1) ∧
      exec i (at' .v2) = .next (at' .v2))

/-- R203: the phases of `SER_READ`: it awaits a byte whatever `GIE` is, then returns and removes the oldest one, the
insertion index and `GIE` unchanged. -/
def Obligations.SerReadPhases : Prop :=
  ∀ (s : State) (c : Byte),
    (s.serInited = true → exec .serRead { s with fg := .idle } = .next { s with fg := .run .serRead .rd1 }) ∧
    (s.inBuf.count = 0 → exec .serRead { s with fg := .run .serRead .rd1 } =
      .next { s with fg := .run .serRead .rd1 }) ∧
    (0 < s.inBuf.count →
      s.inBuf.slots[(s.inBuf.head + s.params.inCap - s.inBuf.count) % s.params.inCap]? = some c →
      exec .serRead { s with fg := .run .serRead .rd1 } = .next { s with
        fg := .idle, rsp := 0x00#8 ++ c,
        inBuf := ⟨s.inBuf.slots, s.inBuf.head, s.inBuf.count - 1⟩ })

/-- R204: `SER_AVAIL` answers whether the inbound count is non-zero. -/
def Obligations.SerAvailAnswers : Prop :=
  ∀ s : State, s.serInited = true →
    exec .serAvail { s with fg := .idle } =
      .next { s with fg := .idle, rsp := if s.inBuf.count ≠ 0 then 0x0001 else 0x0000 }

/-- R211: `SER_OVERRUN` answers the sticky flag and does not clear it. -/
def Obligations.SerOverrunAnswers : Prop :=
  ∀ s : State, s.serInited = true →
    exec .serOverrun { s with fg := .idle } =
      .next { s with fg := .idle, rsp := if s.overrun = true then 0x0001 else 0x0000 }

/-- R212 and R291: `H_DRAIN`, taken only when enabled, moves the oldest outbound byte to the transmitter, or on an
empty buffer disables itself; `GIE` is as before. -/
def Obligations.DrainHandlerStep : Prop :=
  ∀ (s : State) (c : Byte) (es : List Event), s.agenda = .hDrain :: es →
    (s.gie = true → s.drainIe = true → s.txFull = false → 0 < s.outBuf.count →
      s.outBuf.slots[(s.outBuf.head + s.params.outCap - s.outBuf.count) % s.params.outCap]? = some c →
      step s = .next { s with
        agenda := es, txData := c, txFull := true,
        outBuf := ⟨s.outBuf.slots, s.outBuf.head, s.outBuf.count - 1⟩ }) ∧
    (s.gie = true → s.drainIe = true → s.txFull = false → s.outBuf.count = 0 →
      step s = .next { s with agenda := es, drainIe := false }) ∧
    (s.gie = false ∨ s.drainIe = false ∨ s.txFull = true → step s = .next { s with agenda := es })

/-- R213 without echo, and R291: `H_RX`, taken only when enabled, stores the received byte, a carriage-return as a
line-feed, or on a full buffer discards it and sets `OVERRUN`; `GIE` is as before. -/
def Obligations.ReceiveHandlerStep : Prop :=
  ∀ (s : State) (es : List Event), s.agenda = .hRx :: es →
    (s.gie = true → s.rxIe = true → s.rxFull = true → s.echo = false → s.inBuf.count < s.params.inCap →
      step s = .next { s with
        agenda := es, rxFull := false,
        inBuf := ⟨s.inBuf.slots.set s.inBuf.head (if s.rxData = 0x0D then 0x0A else s.rxData),
          (s.inBuf.head + 1) % s.params.inCap, s.inBuf.count + 1⟩ }) ∧
    (s.gie = true → s.rxIe = true → s.rxFull = true → s.echo = false → s.params.inCap ≤ s.inBuf.count →
      step s = .next { s with agenda := es, rxFull := false, overrun := true }) ∧
    (s.gie = false ∨ s.rxIe = false ∨ s.rxFull = false → step s = .next { s with agenda := es })

/-- R213 with echo: the byte as received goes, through the newline translation, to the outbound buffer, as much of it
as there is room for, without any flag for a drop, and the byte is then captured as without echo. -/
def Obligations.EchoQueuesByteAsReceived : Prop :=
  ∀ (s : State) (es : List Event), s.agenda = .hRx :: es →
    s.gie = true → s.rxIe = true → s.rxFull = true → s.echo = true →
    s.outBuf.Ok s.params.outCap →
    let bytes := if s.rxData = 0x0A then [0x0D, 0x0A] else [s.rxData]
    let queued := bytes.take (s.params.outCap - s.outBuf.count)
    ∃ t, step s = .next t ∧
      t.outBuf.pending s.params.outCap = s.outBuf.pending s.params.outCap ++ queued ∧
      t.outBuf.Ok s.params.outCap ∧
      t = { s with
        agenda := es, rxFull := false, outBuf := t.outBuf,
        drainIe := s.drainIe || !queued.isEmpty,
        overrun := s.overrun || decide (s.params.inCap ≤ s.inBuf.count),
        inBuf := if s.inBuf.count < s.params.inCap then
            ⟨s.inBuf.slots.set s.inBuf.head (if s.rxData = 0x0D then 0x0A else s.rxData),
              (s.inBuf.head + 1) % s.params.inCap, s.inBuf.count + 1⟩
          else s.inBuf }

/-- R214: `TXU`, enabled iff `TX_FULL = 1`, puts the byte on the line. -/
def Obligations.TransmitterStep : Prop :=
  ∀ (s : State) (es : List Event), s.agenda = .txu :: es →
    (s.txFull = true → step s = .next { s with
      agenda := es, txLine := s.txLine ++ [s.txData], txFull := false }) ∧
    (s.txFull = false → step s = .next { s with agenda := es })

/-- R215: `RXU`, enabled iff `SER_INITED = 1`, holds the host's byte, or loses it when an earlier one is still held. -/
def Obligations.ReceiverStep : Prop :=
  ∀ (s : State) (b : Byte) (es : List Event), s.agenda = .rxu b :: es →
    (s.serInited = true → s.rxFull = false → step s = .next { s with
      agenda := es, rxLine := s.rxLine ++ [b], rxData := b, rxFull := true }) ∧
    (s.serInited = true → s.rxFull = true → step s = .next { s with
      agenda := es, rxLine := s.rxLine ++ [b], hwRxLost := true }) ∧
    (s.serInited = false → step s = .next { s with agenda := es })

/-- R216: the transitions of the output direction under a `PutByte` and under an enabled `H_DRAIN`. -/
def Obligations.OutputDirectionTransitions : Prop :=
  ∀ (s : State) (b : Byte) (ie : Bool), 1 ≤ s.params.outCap →
    (s.outDirection = .idle ∨ s.outDirection = .tail →
      ∃ t, s.putByte b ie = some (.ok, t) ∧ t.outDirection = .draining ∧ t.outBuf.count = 1) ∧
    (s.outDirection = .draining → s.outBuf.count < s.params.outCap →
      ∃ t, s.putByte b ie = some (.ok, t) ∧ t.outDirection = .draining ∧
        t.outBuf.count = s.outBuf.count + 1) ∧
    (s.outDirection = .draining → s.outBuf.count = s.params.outCap →
      s.putByte b ie = if ie then none else some (.dropped, s)) ∧
    (∀ es, s.gie = true → s.txFull = false → s.agenda = .hDrain :: es →
      (s.outDirection = .draining → 1 < s.outBuf.count → ∃ t, step s = .next t ∧
        t.outDirection = .draining ∧ t.outBuf.count = s.outBuf.count - 1 ∧
        t.txData = s.outBuf.front s.params.outCap ∧ t.txFull = true) ∧
      (s.outDirection = .draining → s.outBuf.count = 1 → ∃ t, step s = .next t ∧
        t.outDirection = .tail ∧ t.txData = s.outBuf.front s.params.outCap ∧ t.txFull = true) ∧
      (s.outDirection = .tail → ∃ t, step s = .next t ∧ t.outDirection = .idle ∧ t.txFull = false))

/-- R224: with `GIE = 0`, `OUT_CAP` successive `SER_WRITE` of bytes other than a line-feed into an empty buffer all
answer `SUCCESS` and queue the bytes in order, and the next answers `WRITE_DROPPED` with the buffer unchanged. -/
def Obligations.FullBufferDropsNextByte : Prop :=
  ∀ (s : State) (bs : List Byte) (x : Byte),
    s.fg = .idle → s.gie = false → s.serInited = true →
    s.outBuf.Ok s.params.outCap → s.outBuf.count = 0 →
    bs.length = s.params.outCap → (∀ b ∈ bs ++ [x], b ≠ 0x0A) →
    let start := s.withAgenda ((bs ++ [x]).flatMap fun b => [.command (encode (.serWrite b)), .fg])
    (∀ k, 0 < k → k ≤ bs.length → ∃ t : State,
      Host.Core.run Sys2Proof.core (2 * k) start = .next t ∧
      t.fg = .idle ∧ t.rsp = 0x0000 ∧ t.gie = false ∧
      t.outBuf.pending s.params.outCap = bs.take k) ∧
    ∃ t u : State,
      Host.Core.run Sys2Proof.core (2 * bs.length) start = .next t ∧
      Host.Core.run Sys2Proof.core (2 * bs.length + 2) start = .next u ∧
      u.rsp = 0x0300 ∧ u.outBuf = t.outBuf ∧ u.outBuf.pending s.params.outCap = bs

/-- R91: draining is strict FIFO: as many runs of `H_DRAIN` and `TXU` as there are pending bytes put exactly those
bytes on the line, oldest first, and empty the buffer. -/
def Obligations.DrainSendsPendingInOrder : Prop :=
  ∀ (s : State) (rest : List Event),
    s.outBuf.Ok s.params.outCap → s.gie = true → s.drainIe = true → s.txFull = false →
    ∃ t : State,
      Host.Core.run Sys2Proof.core (2 * s.outBuf.count)
        (s.withAgenda ((List.replicate s.outBuf.count [Event.hDrain, Event.txu]).flatten ++ rest)) = .next t ∧
      t.txLine = s.txLine ++ s.outBuf.pending s.params.outCap ∧
      t.outBuf = ⟨s.outBuf.slots, s.outBuf.head, 0⟩ ∧ t.txFull = false ∧ t.drainIe = true ∧ t.gie = true

/-- R223, outbound: over every step but a reset, the line, the transmitter and the outbound buffer together only grow
at their end, and only a phase of a command or `H_RX` makes them grow: no byte is lost, repeated or reordered. -/
def Obligations.OutboundStreamOnlyGrows : Prop :=
  ∀ s t : State, s.Inv → step s = .next t → s.event ≠ .reset →
    ∃ bs, t.outStream = s.outStream ++ bs ∧
      (s.event ≠ .hRx → s.event ≠ .fg → bs = [])

/-- R223, inbound: over every step but a reset, the stored bytes not yet read stay as they are, gain one byte at
their end (by `H_RX`), or lose their oldest byte, which is then the response. -/
def Obligations.InboundStreamIsFifo : Prop :=
  ∀ s t : State, s.Inv → step s = .next t → s.event ≠ .reset →
    t.inStream = s.inStream ∨
    (s.event = .hRx ∧ ∃ b, t.inStream = s.inStream ++ [b]) ∨
    (s.event = .fg ∧ ∃ b, s.inStream = b :: t.inStream ∧ t.rsp = 0x00#8 ++ b)

/-- R38: `OVERRUN` is sticky: no step but a reset clears it. -/
def Obligations.OverrunIsSticky : Prop :=
  ∀ s t : State, step s = .next t → s.event ≠ .reset → s.overrun = true → t.overrun = true

/-! ### Communication Facade -/

/-- R251: the phases H0 to H3 of `FAC_NOTIFY`, also as part J2 of `FAC_UPDATE`: tag, data and line-feed, each written
with the waits of `SER_WRITE` whatever became of the one before; the status is `WRITE_DROPPED` iff one of the three
reported a drop. -/
def Obligations.NotifyPhases : Prop :=
  ∀ (s : State) (tag reg data : Byte) (d : Bool) (i : Instr),
    i = .facNotify tag data ∨ i = .facUpdate tag reg data →
    let at' := fun h => { s with fg := .run i (.line h) }
    let put := fun (b : Byte) (t : State) => { t with
      drainIe := true,
      outBuf := ⟨s.outBuf.slots.set s.outBuf.head b, (s.outBuf.head + 1) % s.params.outCap,
        s.outBuf.count + 1⟩ }
    let answer := fun (dropped : Bool) =>
      { s with fg := .idle, rsp := if dropped then 0x0300 else 0x0000 }
    (s.serInited = true →
      (i = .facNotify tag data → exec i { s with fg := .idle } = .next (at' (.h1 .v0 false))) ∧
      exec i (at' .h0) = .next (at' (.h1 .v0 false))) ∧
    (∀ x ∈ [(LinePhase.h1, tag), (.h2, data), (.h3, 0x0A)],
      (s.serInited = true →
        exec i (at' (x.1 .v0 d)) = .next (at' (x.1 (if x.2 = 0x0A then .v1 else .v2) d))) ∧
      (s.outBuf.count < s.params.outCap →
        exec i (at' (x.1 .v1 d)) = .next (put 0x0D (at' (x.1 .v2 d)))) ∧
      (s.params.outCap ≤ s.outBuf.count → s.gie = false →
        exec i (at' (x.1 .v1 d)) = .next (at' (x.1 .v2 d))) ∧
      (s.params.outCap ≤ s.outBuf.count → s.gie = true →
        exec i (at' (x.1 .v1 d)) = .next (at' (x.1 .v1 d)) ∧
        exec i (at' (x.1 .v2 d)) = .next (at' (x.1 .v2 d)))) ∧
    (s.outBuf.count < s.params.outCap →
      exec i (at' (.h1 .v2 d)) = .next (put tag (at' (.h2 .v0 d))) ∧
      exec i (at' (.h2 .v2 d)) = .next (put data (at' (.h3 .v0 d))) ∧
      exec i (at' (.h3 .v2 d)) = .next (put 0x0A (answer d))) ∧
    (s.params.outCap ≤ s.outBuf.count → s.gie = false →
      exec i (at' (.h1 .v2 d)) = .next (at' (.h2 .v0 true)) ∧
      exec i (at' (.h2 .v2 d)) = .next (at' (.h3 .v0 true)) ∧
      exec i (at' (.h3 .v2 d)) = .next (answer true))

/-- R251 (a) to (e): with interrupts suppressed, `FAC_NOTIFY` queues as much of its line as there is room for, tag,
data and line-feed each through the newline translation, in order, and answers `WRITE_DROPPED` iff it was cut. -/
def Obligations.NotifyQueuesWhatFits : Prop :=
  ∀ (s : State) (tag data : Byte),
    s.fg = .idle → s.gie = false → s.serInited = true → s.outBuf.Ok s.params.outCap →
    let bytes := (if tag = 0x0A then [0x0D, tag] else [tag]) ++
      (if data = 0x0A then [0x0D, data] else [data]) ++ [0x0D, 0x0A]
    let free := s.params.outCap - s.outBuf.count
    ∃ t : State,
      Host.Core.run Sys2Proof.core (bytes.length + 4)
        (s.withAgenda (.command (encode (.facNotify tag data)) :: List.replicate (bytes.length + 3) .fg)) = .next t ∧
      t.fg = .idle ∧ t.gie = false ∧
      t.rsp = (if bytes.length ≤ free then 0x0000 else 0x0300) ∧
      t.outBuf.pending s.params.outCap = s.outBuf.pending s.params.outCap ++ bytes.take free

/-- R252: `FAC_UPDATE` tests both preconditions before anything is done. -/
def Obligations.FacUpdateTestsFirst : Prop :=
  ∀ (s : State) (tag reg data : Byte),
    (s.serInited = true → s.sel = .none →
      exec (.facUpdate tag reg data) { s with fg := .idle } =
        .next { s with fg := .run (.facUpdate tag reg data) (.pd .p0) }) ∧
    (s.serInited = false → ∃ r, exec (.facUpdate tag reg data) { s with fg := .idle } = .refused r) ∧
    (s.sel ≠ .none → ∃ r, exec (.facUpdate tag reg data) { s with fg := .idle } = .refused r)

/-- R252: run to its response with room for the line, `FAC_UPDATE` appends the ten bus events and then tag, data,
carriage-return, line-feed to the outbound path (line, transmitter, buffer), however long each transfer takes and
whatever the handlers, the transmitter, the receiver and `NVU` do between the phases (R11), so long as no byte is echoed
(echo off, or no run of `H_RX`: R251 (f) lets echoed bytes between those of the line). A write pending at the start is to
a cell that exists, as the invariant says. Where no other agent steps, the four bytes are pending and nothing else
changes. -/
def Obligations.FacUpdateMirrorsToHost : Prop :=
  ∀ (s : State) (tag reg data m₁ m₂ m₃ m₄ : Byte) (n₁ n₂ n₃ n₄ : Nat) (es rest : List Event),
    s.fg = .idle → s.sel = .none → s.serInited = true → s.outBuf.Ok s.params.outCap →
    s.outBuf.count + 4 ≤ s.params.outCap → tag ≠ 0x0A → data ≠ 0x0A →
    (s.nvBusy = true → addrValid s.params s.nvAddr = true) →
    (s.echo = false ∨ .hRx ∉ es) →
    Interleaves
      (List.replicate (3 + n₁) .fg ++ .spiu m₁ :: List.replicate (2 + n₂) .fg ++ .spiu m₂ ::
        List.replicate (5 + n₃) .fg ++ .spiu m₃ :: List.replicate (2 + n₄) .fg ++ .spiu m₄ :: List.replicate 10 .fg)
      isOffBus es →
    let trace := s.busTrace ++
      [.gap .recover, .sel .pd, .xfer .pd reg m₁, .xfer .pd data m₂, .desel .pd,
       .gap .commit, .sel .pd, .xfer .pd 0xFF m₃, .xfer .pd 0x00 m₄, .desel .pd]
    ∃ t : State,
      Host.Core.run Sys2Proof.core (1 + es.length)
        (s.withAgenda (.command (encode (.facUpdate tag reg data)) :: es ++ rest)) = .next t ∧
      t.agenda = rest ∧ t.fg = .idle ∧ t.rsp = 0x0000 ∧ t.sel = .none ∧ t.busTrace = trace ∧
      t.spiData = m₄ ∧ t.spiBusy = false ∧ t.spiDone = false ∧
      t.outStream = s.outStream ++ [tag, data, 0x0D, 0x0A] ∧
      ((∀ e ∈ es, isOffBus e = false) →
        t = { s with
          agenda := rest, rsp := 0x0000, spiData := m₄, spiBusy := false, spiDone := false,
          drainIe := true, outBuf := t.outBuf, busTrace := trace } ∧
        t.outBuf.pending s.params.outCap = s.outBuf.pending s.params.outCap ++ [tag, data, 0x0D, 0x0A])

/-! ### Interrupt control -/

/-- R270: `IRQ_SUPPRESS` returns `GIE` as the token and clears it. -/
def Obligations.IrqSuppressReturnsToken : Prop :=
  ∀ s : State, exec .irqSuppress { s with fg := .idle } =
    .next { s with fg := .idle, gie := false, rsp := if s.gie = true then 0x0001 else 0x0000 }

/-- R271: `IRQ_RESTORE t` sets `GIE` to the token. -/
def Obligations.IrqRestoreSetsToken : Prop :=
  ∀ (s : State) (t : Bool), exec (.irqRestore t) { s with fg := .idle } =
    .next { s with fg := .idle, gie := t, rsp := 0x0000 }

/-- R270: a nested suppress and restore pair inside an outer one leaves interrupts suppressed on its restore, and the
outer restore puts `GIE` back as it was, each restore given the token its suppress answered. -/
def Obligations.NestedSuppressRestore : Prop :=
  ∀ (s : State) (rest : List Event), s.fg = .idle →
    let inner : List Event := [.command (encode .irqSuppress), .command (encode (.irqRestore false))]
    ∃ a b c d : State,
      Host.Core.run Sys2Proof.core 1 (s.withAgenda (.command (encode .irqSuppress) :: inner ++
        .command (encode (.irqRestore s.gie)) :: rest)) = .next a ∧
      a.gie = false ∧ a.rsp = (if s.gie then 0x0001 else 0x0000) ∧
      Host.Core.run Sys2Proof.core 1 a = .next b ∧ b.gie = false ∧ b.rsp = 0x0000 ∧
      Host.Core.run Sys2Proof.core 1 b = .next c ∧ c.gie = false ∧
      Host.Core.run Sys2Proof.core 1 c = .next d ∧ d.gie = s.gie ∧ d.agenda = rest

/-- R274 and R222: over every step of every state, only `IRQ_SUPPRESS`, `IRQ_RESTORE` and a reset change `GIE` (a
handler run, an atomic step, leaves it as it found it). -/
def Obligations.OnlyIrqCommandsChangeGie : Prop :=
  ∀ s t : State, step s = .next t → t.gie ≠ s.gie →
    s.event = .reset ∨ commandOf s.event s.takeEvent = .ok (some .irqSuppress) ∨
      ∃ tok, commandOf s.event s.takeEvent = .ok (some (.irqRestore tok))

/-! ### Reset -/

/-- R322: the condition of the block right after a reset, at power-on or by the port. -/
def Obligations.ConditionAfterReset : Prop :=
  ∀ t : State, t = State.reset ∨ (∃ s : State, s.event = .reset ∧ step s = .next t) →
    t.fg = .idle ∧
    t.outBuf.count = 0 ∧ t.inBuf.count = 0 ∧ t.outDirection = .idle ∧
    t.txFull = false ∧ t.rxFull = false ∧
    t.gie = false ∧ t.drainIe = false ∧ t.rxIe = false ∧
    t.sel.csPdN = true ∧ t.sel.csPot = false ∧
    t.spiBusy = false ∧ t.nvBusy = false ∧ t.serInited = false

/-- R323 and R321: a reset of any state leaves every cell but that of a pending write as it was, and everything else
that R64 gives a value at that value; the pending cell holds any byte (a free value, log 5). That the parameters and
the pending events go on is the model's choice (log 4, log 23). -/
def Obligations.ResetKeepsCells : Prop :=
  ∀ (s : State) (es : List Event), s.agenda = .reset :: es → Memory.wf s.params s.nvm = true →
    ∃ t, step s = .next t ∧ t.params = s.params ∧ t.agenda = es ∧
      (∀ b, s.nvBusy = false ∨ b ≠ s.nvAddr → t.cell b = s.cell b) ∧
      Memory.wf t.params t.nvm = true ∧
      t.fg = .idle ∧ t.outBuf.count = 0 ∧ t.outBuf.head = 0 ∧ t.inBuf.count = 0 ∧ t.inBuf.head = 0 ∧
      t.overrun = false ∧ t.echo = false ∧ t.serInited = false ∧ t.txFull = false ∧ t.rxFull = false ∧
      t.hwRxLost = false ∧ t.txLine = [] ∧ t.rxLine = [] ∧ t.busTrace = [] ∧
      t.gie = false ∧ t.drainIe = false ∧ t.rxIe = false ∧ t.sel = .none ∧
      t.spiBusy = false ∧ t.spiDone = false ∧ t.nvBusy = false ∧
      t.nvWriteCount = 0 ∧ t.nvAccessCount = 0

/-! ### The whole machine -/

/-- No step changes the parameters (R6, R39 "immutable afterward" for the configuration once initialized). -/
def Obligations.ConfigurationIsImmutable : Prop :=
  ∀ s t : State, step s = .next t → t.params = s.params ∧
    (s.event ≠ .reset → s.serInited = true →
      t.serInited = true ∧ t.echo = s.echo ∧ t.baud = s.baud)

/-- The invariant holds right after reset. -/
def Obligations.InvariantHoldsAtReset : Prop :=
  State.reset.Inv

/-- Every step keeps the invariant, from every state that meets it: the buffers stay in range (R220), a non-empty
outbound buffer keeps the drain interrupt enabled (R221), no stored byte is a carriage-return (R203), the cells keep
their canonical form, the sequencer stays in a phase of its command (R57), a transfer is under way exactly while a
command awaits it (R51), and the bus trace stays proper and agrees with the selection (R178). -/
def Obligations.StepKeepsInvariant : Prop :=
  ∀ s t : State, s.Inv → step s = .next t → t.Inv

/-- From a state that meets the invariant no step faults: the model's two faults are never reached (R280: the block
has no trap). -/
def Obligations.StepNeverFaults : Prop :=
  ∀ (s : State) (f : Fault), s.Inv → step s ≠ .fault f

/-- R287: "Refusal is tested before anything else in every command": a command once accepted is never refused. From a
state that meets the invariant every step in which no word is presented answers a next state. -/
def Obligations.AcceptedCommandNeverRefused : Prop :=
  ∀ s : State, s.Inv → (∀ w, s.event ≠ .command w) → ∃ t, step s = .next t

/-! ### Fairness -/

/-- R14, R291: `TXU`, `NVU`, both handlers and `FG` are weakly fair in every run: an enabled step of theirs is eventually
taken or disabled (how the free order of events keeps it, and that `FG` is among them, as R13 and R306 imply, is the
model's choice: log 32). R306: a command under way ends, but where a transfer of one of the six bus commands is never
completed (`SPIU` depends on the environment: its fairness is a premise, R14) and where `SER_READ` never finds a byte; the
waits for room and for the store always end. A transfer under way is over in a run in which `SPIU` is fair. A run that
stops at a refused word (or, outside the invariant, at a fault) is held to nothing after it. -/
def Obligations.EnabledStepsAreEventuallyTaken : Prop :=
  ∀ s : State,
    (∀ a : Agent, a = .txu ∨ a = .nvu ∨ a = .hDrain ∨ a = .hRx ∨ a = .fg → s.WeaklyFair a) ∧
    (∀ (i : Instr) (ph : Phase), s.Inv → s.fg = .run i ph →
      (usesBus i = true → s.WeaklyFair .spiu) → (i = .serRead → s.Eventually fun t => 0 < t.inBuf.count) →
      s.Eventually fun t => t.fg = .idle) ∧
    (s.spiBusy = true → s.WeaklyFair .spiu → s.Eventually fun t => t.spiBusy = false)
end

