-- ==== Sys2Proof/Laws/Buffers.lean ====
section
/-! SUPPORT. The laws of the circular buffers: what enqueue and dequeue do to the pending sequence (R37), and that
they keep a buffer in range (R220). -/

namespace Sys2Proof.Machine

theorem Ring.pending_length (cap : Nat) (r : Ring) : (r.pending cap).length = r.count := by
  simp [Ring.pending]

theorem Ring.pending_of_count_zero (cap : Nat) (r : Ring) (h : r.count = 0) : r.pending cap = [] := by
  simp [Ring.pending, h]

/-- An empty buffer of the right size is in range. -/
theorem Ring.ok_empty (cap : Nat) (slots : List Byte) (h : 1 ≤ cap) (hl : slots.length = cap) :
    Ring.Ok cap ⟨slots, 0, 0⟩ :=
  ⟨hl, by show 0 < cap; omega, by show 0 ≤ cap; omega⟩

theorem Ring.ok_enqueue (cap : Nat) (b : Byte) (r : Ring) (h : r.Ok cap) (hc : r.count < cap) :
    (r.enqueue cap b).Ok cap := by
  obtain ⟨h1, h2, h3⟩ := h
  exact ⟨by simp [Ring.enqueue, h1], Nat.mod_lt _ (by omega), hc⟩

theorem Ring.ok_dequeue (cap : Nat) (r : Ring) (h : r.Ok cap) : r.dequeue.Ok cap := by
  obtain ⟨h1, h2, h3⟩ := h
  exact ⟨h1, h2, by simp only [Ring.dequeue]; omega⟩

/-- The slot of the `k`-th pending byte, without a division. -/
theorem Ring.slot_eq (cap head count k : Nat) (h2 : head < cap) (h3 : count ≤ cap) (hk : k < count) :
    (head + cap - count + k) % cap = if head + k < count then head + cap - count + k else head + k - count := by
  split
  · exact Nat.mod_eq_of_lt (by omega)
  · rw [Nat.mod_eq_sub_mod (by omega), Nat.mod_eq_of_lt (by omega)]; omega

/-- An enqueue appends one byte to the pending sequence. -/
theorem Ring.pending_enqueue (cap : Nat) (b : Byte) (r : Ring) (h : r.Ok cap) (hc : r.count < cap) :
    (r.enqueue cap b).pending cap = r.pending cap ++ [b] := by
  obtain ⟨slots, head, count⟩ := r
  obtain ⟨h1, h2, h3⟩ := h
  simp only at h1 h2 h3 hc
  have hnew : ∀ k, ((head + 1) % cap + cap - (count + 1) + k) % cap = (head + cap - count + k) % cap := by
    intro k
    by_cases he : head + 1 = cap
    · rw [he, Nat.mod_self]
      rw [show head + cap - count + k = (0 + cap - (count + 1) + k) + cap by omega, Nat.add_mod_right]
    · rw [Nat.mod_eq_of_lt (show head + 1 < cap by omega)]
      congr 1; omega
  simp only [Ring.pending, Ring.enqueue, List.range_succ, List.map_append, List.map_cons, List.map_nil, hnew]
  congr 1
  · refine List.map_congr_left fun k hk => ?_
    have hk' : k < count := List.mem_range.1 hk
    have hs := Ring.slot_eq cap head count k h2 h3 hk'
    have hne : head ≠ (head + cap - count + k) % cap := by rw [hs]; split <;> omega
    simp only [List.getD_eq_getElem?_getD]
    rw [List.getElem?_set_ne hne]
  · rw [show head + cap - count + count = head + cap by omega, Nat.add_mod_right, Nat.mod_eq_of_lt h2]
    simp [List.getD_eq_getElem?_getD, h1, h2]

/-- A dequeue removes the oldest byte of the pending sequence. -/
theorem Ring.pending_dequeue (cap : Nat) (r : Ring) (h : r.Ok cap) (hc : 0 < r.count) :
    r.pending cap = r.front cap :: r.dequeue.pending cap := by
  obtain ⟨slots, head, count⟩ := r
  obtain ⟨h1, h2, h3⟩ := h
  simp only at h1 h2 h3 hc
  obtain ⟨n, rfl⟩ : ∃ n, count = n + 1 := ⟨count - 1, by omega⟩
  simp only [Ring.pending, Ring.front, Ring.oldest, Ring.dequeue, List.range_succ_eq_map, List.map_cons, List.map_map,
    Nat.add_zero, Nat.add_sub_cancel]
  congr 1
  refine List.map_congr_left fun k _ => ?_
  simp only [Function.comp_apply]
  congr 2; omega

end Sys2Proof.Machine
end

