-- ==== Sys2Proof/Laws/Encoding.lean ====
section
/-! SUPPORT. The laws of the encoder's formats: each field the decoder reads, of each format of spec/30_encoding.md
R112. -/

namespace Sys2Proof

theorem fieldOp_formatB (op b : Byte) : fieldOp (formatB op b) = op := by
  apply BitVec.eq_of_getLsbD_eq; intro k hk
  interval_cases k <;> simp [fieldOp, formatB, place]

theorem fieldOp_formatBB (op a b : Byte) : fieldOp (formatBB op a b) = op := by
  apply BitVec.eq_of_getLsbD_eq; intro k hk
  interval_cases k <;> simp [fieldOp, formatBB, place]

theorem fieldOp_formatBBB (op a b c : Byte) : fieldOp (formatBBB op a b c) = op := by
  apply BitVec.eq_of_getLsbD_eq; intro k hk
  interval_cases k <;> simp [fieldOp, formatBBB, place]

theorem fieldOp_formatAV (op : Byte) (a : Addr) (c : Byte) : fieldOp (formatAV op a c) = op := by
  apply BitVec.eq_of_getLsbD_eq; intro k hk
  interval_cases k <;> simp [fieldOp, formatAV, place]

theorem fieldOp_formatBit (op : Byte) (t : Bool) : fieldOp (formatBit op t) = op := by
  apply BitVec.eq_of_getLsbD_eq; intro k hk
  interval_cases k <;> simp [fieldOp, formatBit, place]

theorem fieldOp_formatI (op : Byte) (e : Bool) (b : BitVec 23) : fieldOp (formatI op e b) = op := by
  apply BitVec.eq_of_getLsbD_eq; intro k hk
  interval_cases k <;> simp [fieldOp, formatI, place]

theorem fieldLo_formatB (op b : Byte) : fieldLo (formatB op b) = b := by
  apply BitVec.eq_of_getLsbD_eq; intro k hk
  interval_cases k <;> simp [fieldLo, formatB, place]

theorem fieldHi_formatB (op b : Byte) : fieldHi (formatB op b) = 0 := by
  apply BitVec.eq_of_getLsbD_eq; intro k hk
  interval_cases k <;> simp [fieldHi, formatB, place]

theorem fieldMid_formatB (op b : Byte) : fieldMid (formatB op b) = 0 := by
  apply BitVec.eq_of_getLsbD_eq; intro k hk
  interval_cases k <;> simp [fieldMid, formatB, place]

theorem operands_formatZ (op : Byte) : (formatB op 0#8).extractLsb' 0 24 = 0 := by
  apply BitVec.eq_of_getLsbD_eq; intro k hk
  interval_cases k <;> simp [formatB, place]

theorem fieldLo_formatBB (op a b : Byte) : fieldLo (formatBB op a b) = b := by
  apply BitVec.eq_of_getLsbD_eq; intro k hk
  interval_cases k <;> simp [fieldLo, formatBB, place]

theorem fieldMid_formatBB (op a b : Byte) : fieldMid (formatBB op a b) = a := by
  apply BitVec.eq_of_getLsbD_eq; intro k hk
  interval_cases k <;> simp [fieldMid, formatBB, place]

theorem fieldHi_formatBB (op a b : Byte) : fieldHi (formatBB op a b) = 0 := by
  apply BitVec.eq_of_getLsbD_eq; intro k hk
  interval_cases k <;> simp [fieldHi, formatBB, place]

theorem fieldLo_formatBBB (op a b c : Byte) : fieldLo (formatBBB op a b c) = c := by
  apply BitVec.eq_of_getLsbD_eq; intro k hk
  interval_cases k <;> simp [fieldLo, formatBBB, place]

theorem fieldMid_formatBBB (op a b c : Byte) : fieldMid (formatBBB op a b c) = b := by
  apply BitVec.eq_of_getLsbD_eq; intro k hk
  interval_cases k <;> simp [fieldMid, formatBBB, place]

theorem fieldHi_formatBBB (op a b c : Byte) : fieldHi (formatBBB op a b c) = a := by
  apply BitVec.eq_of_getLsbD_eq; intro k hk
  interval_cases k <;> simp [fieldHi, formatBBB, place]

theorem fieldLo_formatAV (op : Byte) (a : Addr) (c : Byte) : fieldLo (formatAV op a c) = c := by
  apply BitVec.eq_of_getLsbD_eq; intro k hk
  interval_cases k <;> simp [fieldLo, formatAV, place]

theorem fieldAddr_formatAV (op : Byte) (a : Addr) (c : Byte) : fieldAddr (formatAV op a c) = a := by
  apply BitVec.eq_of_getLsbD_eq; intro k hk
  interval_cases k <;> simp [fieldAddr, formatAV, place]

theorem fieldBit_formatBit (op : Byte) (t : Bool) : fieldBit (formatBit op t) = t := by
  simp [fieldBit, formatBit, place]

theorem reserved_formatBit (op : Byte) (t : Bool) : (formatBit op t).extractLsb' 1 23 = 0 := by
  apply BitVec.eq_of_getLsbD_eq; intro k hk
  interval_cases k <;> simp [formatBit, place]

theorem fieldEcho_formatI (op : Byte) (e : Bool) (b : BitVec 23) : fieldEcho (formatI op e b) = e := by
  simp [fieldEcho, formatI, place]

theorem fieldBaud_formatI (op : Byte) (e : Bool) (b : BitVec 23) : fieldBaud (formatI op e b) = b := by
  apply BitVec.eq_of_getLsbD_eq; intro k hk
  interval_cases k <;> simp [fieldBaud, formatI, place]

end Sys2Proof
end

