-- ==== Sys2Proof/Laws/State.lean ====
section
/-! SUPPORT. The fields of a state after each named update: one lemma per field per update, so that no later proof
unfolds a record update. -/

namespace Sys2Proof.Machine

/-! ### `State.respond` -/

@[simp] theorem State.respond_params (s : State) (st : Status) (d : Byte) : (s.respond st d).params = s.params := rfl
@[simp] theorem State.respond_outBuf (s : State) (st : Status) (d : Byte) : (s.respond st d).outBuf = s.outBuf := rfl
@[simp] theorem State.respond_inBuf (s : State) (st : Status) (d : Byte) : (s.respond st d).inBuf = s.inBuf := rfl
@[simp] theorem State.respond_overrun (s : State) (st : Status) (d : Byte) : (s.respond st d).overrun = s.overrun := rfl
@[simp] theorem State.respond_echo (s : State) (st : Status) (d : Byte) : (s.respond st d).echo = s.echo := rfl
@[simp] theorem State.respond_baud (s : State) (st : Status) (d : Byte) : (s.respond st d).baud = s.baud := rfl
@[simp] theorem State.respond_serInited (s : State) (st : Status) (d : Byte) : (s.respond st d).serInited = s.serInited := rfl
@[simp] theorem State.respond_txData (s : State) (st : Status) (d : Byte) : (s.respond st d).txData = s.txData := rfl
@[simp] theorem State.respond_txFull (s : State) (st : Status) (d : Byte) : (s.respond st d).txFull = s.txFull := rfl
@[simp] theorem State.respond_rxData (s : State) (st : Status) (d : Byte) : (s.respond st d).rxData = s.rxData := rfl
@[simp] theorem State.respond_rxFull (s : State) (st : Status) (d : Byte) : (s.respond st d).rxFull = s.rxFull := rfl
@[simp] theorem State.respond_hwRxLost (s : State) (st : Status) (d : Byte) : (s.respond st d).hwRxLost = s.hwRxLost := rfl
@[simp] theorem State.respond_txLine (s : State) (st : Status) (d : Byte) : (s.respond st d).txLine = s.txLine := rfl
@[simp] theorem State.respond_rxLine (s : State) (st : Status) (d : Byte) : (s.respond st d).rxLine = s.rxLine := rfl
@[simp] theorem State.respond_gie (s : State) (st : Status) (d : Byte) : (s.respond st d).gie = s.gie := rfl
@[simp] theorem State.respond_drainIe (s : State) (st : Status) (d : Byte) : (s.respond st d).drainIe = s.drainIe := rfl
@[simp] theorem State.respond_rxIe (s : State) (st : Status) (d : Byte) : (s.respond st d).rxIe = s.rxIe := rfl
@[simp] theorem State.respond_sel (s : State) (st : Status) (d : Byte) : (s.respond st d).sel = s.sel := rfl
@[simp] theorem State.respond_spiData (s : State) (st : Status) (d : Byte) : (s.respond st d).spiData = s.spiData := rfl
@[simp] theorem State.respond_spiBusy (s : State) (st : Status) (d : Byte) : (s.respond st d).spiBusy = s.spiBusy := rfl
@[simp] theorem State.respond_spiDone (s : State) (st : Status) (d : Byte) : (s.respond st d).spiDone = s.spiDone := rfl
@[simp] theorem State.respond_busTrace (s : State) (st : Status) (d : Byte) : (s.respond st d).busTrace = s.busTrace := rfl
@[simp] theorem State.respond_nvm (s : State) (st : Status) (d : Byte) : (s.respond st d).nvm = s.nvm := rfl
@[simp] theorem State.respond_nvAddr (s : State) (st : Status) (d : Byte) : (s.respond st d).nvAddr = s.nvAddr := rfl
@[simp] theorem State.respond_nvData (s : State) (st : Status) (d : Byte) : (s.respond st d).nvData = s.nvData := rfl
@[simp] theorem State.respond_nvBusy (s : State) (st : Status) (d : Byte) : (s.respond st d).nvBusy = s.nvBusy := rfl
@[simp] theorem State.respond_nvWriteCount (s : State) (st : Status) (d : Byte) : (s.respond st d).nvWriteCount = s.nvWriteCount := rfl
@[simp] theorem State.respond_nvAccessCount (s : State) (st : Status) (d : Byte) : (s.respond st d).nvAccessCount = s.nvAccessCount := rfl
@[simp] theorem State.respond_fg (s : State) (st : Status) (d : Byte) : (s.respond st d).fg = .idle := rfl
@[simp] theorem State.respond_rsp (s : State) (st : Status) (d : Byte) : (s.respond st d).rsp = responseWord st d := rfl
@[simp] theorem State.respond_agenda (s : State) (st : Status) (d : Byte) : (s.respond st d).agenda = s.agenda := rfl
@[simp] theorem State.respond_drawn (s : State) (st : Status) (d : Byte) : (s.respond st d).drawn = s.drawn := rfl
@[simp] theorem State.respond_turn (s : State) (st : Status) (d : Byte) : (s.respond st d).turn = s.turn := rfl
@[simp] theorem State.respond_fgDue (s : State) (st : Status) (d : Byte) : (s.respond st d).fgDue = s.fgDue := rfl

/-! ### `State.goto` -/

@[simp] theorem State.goto_params (s : State) (i : Instr) (ph : Phase) : (s.goto i ph).params = s.params := rfl
@[simp] theorem State.goto_outBuf (s : State) (i : Instr) (ph : Phase) : (s.goto i ph).outBuf = s.outBuf := rfl
@[simp] theorem State.goto_inBuf (s : State) (i : Instr) (ph : Phase) : (s.goto i ph).inBuf = s.inBuf := rfl
@[simp] theorem State.goto_overrun (s : State) (i : Instr) (ph : Phase) : (s.goto i ph).overrun = s.overrun := rfl
@[simp] theorem State.goto_echo (s : State) (i : Instr) (ph : Phase) : (s.goto i ph).echo = s.echo := rfl
@[simp] theorem State.goto_baud (s : State) (i : Instr) (ph : Phase) : (s.goto i ph).baud = s.baud := rfl
@[simp] theorem State.goto_serInited (s : State) (i : Instr) (ph : Phase) : (s.goto i ph).serInited = s.serInited := rfl
@[simp] theorem State.goto_txData (s : State) (i : Instr) (ph : Phase) : (s.goto i ph).txData = s.txData := rfl
@[simp] theorem State.goto_txFull (s : State) (i : Instr) (ph : Phase) : (s.goto i ph).txFull = s.txFull := rfl
@[simp] theorem State.goto_rxData (s : State) (i : Instr) (ph : Phase) : (s.goto i ph).rxData = s.rxData := rfl
@[simp] theorem State.goto_rxFull (s : State) (i : Instr) (ph : Phase) : (s.goto i ph).rxFull = s.rxFull := rfl
@[simp] theorem State.goto_hwRxLost (s : State) (i : Instr) (ph : Phase) : (s.goto i ph).hwRxLost = s.hwRxLost := rfl
@[simp] theorem State.goto_txLine (s : State) (i : Instr) (ph : Phase) : (s.goto i ph).txLine = s.txLine := rfl
@[simp] theorem State.goto_rxLine (s : State) (i : Instr) (ph : Phase) : (s.goto i ph).rxLine = s.rxLine := rfl
@[simp] theorem State.goto_gie (s : State) (i : Instr) (ph : Phase) : (s.goto i ph).gie = s.gie := rfl
@[simp] theorem State.goto_drainIe (s : State) (i : Instr) (ph : Phase) : (s.goto i ph).drainIe = s.drainIe := rfl
@[simp] theorem State.goto_rxIe (s : State) (i : Instr) (ph : Phase) : (s.goto i ph).rxIe = s.rxIe := rfl
@[simp] theorem State.goto_sel (s : State) (i : Instr) (ph : Phase) : (s.goto i ph).sel = s.sel := rfl
@[simp] theorem State.goto_spiData (s : State) (i : Instr) (ph : Phase) : (s.goto i ph).spiData = s.spiData := rfl
@[simp] theorem State.goto_spiBusy (s : State) (i : Instr) (ph : Phase) : (s.goto i ph).spiBusy = s.spiBusy := rfl
@[simp] theorem State.goto_spiDone (s : State) (i : Instr) (ph : Phase) : (s.goto i ph).spiDone = s.spiDone := rfl
@[simp] theorem State.goto_busTrace (s : State) (i : Instr) (ph : Phase) : (s.goto i ph).busTrace = s.busTrace := rfl
@[simp] theorem State.goto_nvm (s : State) (i : Instr) (ph : Phase) : (s.goto i ph).nvm = s.nvm := rfl
@[simp] theorem State.goto_nvAddr (s : State) (i : Instr) (ph : Phase) : (s.goto i ph).nvAddr = s.nvAddr := rfl
@[simp] theorem State.goto_nvData (s : State) (i : Instr) (ph : Phase) : (s.goto i ph).nvData = s.nvData := rfl
@[simp] theorem State.goto_nvBusy (s : State) (i : Instr) (ph : Phase) : (s.goto i ph).nvBusy = s.nvBusy := rfl
@[simp] theorem State.goto_nvWriteCount (s : State) (i : Instr) (ph : Phase) : (s.goto i ph).nvWriteCount = s.nvWriteCount := rfl
@[simp] theorem State.goto_nvAccessCount (s : State) (i : Instr) (ph : Phase) : (s.goto i ph).nvAccessCount = s.nvAccessCount := rfl
@[simp] theorem State.goto_fg (s : State) (i : Instr) (ph : Phase) : (s.goto i ph).fg = .run i ph := rfl
@[simp] theorem State.goto_rsp (s : State) (i : Instr) (ph : Phase) : (s.goto i ph).rsp = s.rsp := rfl
@[simp] theorem State.goto_agenda (s : State) (i : Instr) (ph : Phase) : (s.goto i ph).agenda = s.agenda := rfl
@[simp] theorem State.goto_drawn (s : State) (i : Instr) (ph : Phase) : (s.goto i ph).drawn = s.drawn := rfl
@[simp] theorem State.goto_turn (s : State) (i : Instr) (ph : Phase) : (s.goto i ph).turn = s.turn := rfl
@[simp] theorem State.goto_fgDue (s : State) (i : Instr) (ph : Phase) : (s.goto i ph).fgDue = s.fgDue := rfl

/-! ### `State.draw` -/

@[simp] theorem State.draw_params (s : State) : s.draw.params = s.params := rfl
@[simp] theorem State.draw_outBuf (s : State) : s.draw.outBuf = s.outBuf := rfl
@[simp] theorem State.draw_inBuf (s : State) : s.draw.inBuf = s.inBuf := rfl
@[simp] theorem State.draw_overrun (s : State) : s.draw.overrun = s.overrun := rfl
@[simp] theorem State.draw_echo (s : State) : s.draw.echo = s.echo := rfl
@[simp] theorem State.draw_baud (s : State) : s.draw.baud = s.baud := rfl
@[simp] theorem State.draw_serInited (s : State) : s.draw.serInited = s.serInited := rfl
@[simp] theorem State.draw_txData (s : State) : s.draw.txData = s.txData := rfl
@[simp] theorem State.draw_txFull (s : State) : s.draw.txFull = s.txFull := rfl
@[simp] theorem State.draw_rxData (s : State) : s.draw.rxData = s.rxData := rfl
@[simp] theorem State.draw_rxFull (s : State) : s.draw.rxFull = s.rxFull := rfl
@[simp] theorem State.draw_hwRxLost (s : State) : s.draw.hwRxLost = s.hwRxLost := rfl
@[simp] theorem State.draw_txLine (s : State) : s.draw.txLine = s.txLine := rfl
@[simp] theorem State.draw_rxLine (s : State) : s.draw.rxLine = s.rxLine := rfl
@[simp] theorem State.draw_gie (s : State) : s.draw.gie = s.gie := rfl
@[simp] theorem State.draw_drainIe (s : State) : s.draw.drainIe = s.drainIe := rfl
@[simp] theorem State.draw_rxIe (s : State) : s.draw.rxIe = s.rxIe := rfl
@[simp] theorem State.draw_sel (s : State) : s.draw.sel = s.sel := rfl
@[simp] theorem State.draw_spiData (s : State) : s.draw.spiData = s.spiData := rfl
@[simp] theorem State.draw_spiBusy (s : State) : s.draw.spiBusy = s.spiBusy := rfl
@[simp] theorem State.draw_spiDone (s : State) : s.draw.spiDone = s.spiDone := rfl
@[simp] theorem State.draw_busTrace (s : State) : s.draw.busTrace = s.busTrace := rfl
@[simp] theorem State.draw_nvm (s : State) : s.draw.nvm = s.nvm := rfl
@[simp] theorem State.draw_nvAddr (s : State) : s.draw.nvAddr = s.nvAddr := rfl
@[simp] theorem State.draw_nvData (s : State) : s.draw.nvData = s.nvData := rfl
@[simp] theorem State.draw_nvBusy (s : State) : s.draw.nvBusy = s.nvBusy := rfl
@[simp] theorem State.draw_nvWriteCount (s : State) : s.draw.nvWriteCount = s.nvWriteCount := rfl
@[simp] theorem State.draw_nvAccessCount (s : State) : s.draw.nvAccessCount = s.nvAccessCount := rfl
@[simp] theorem State.draw_fg (s : State) : s.draw.fg = s.fg := rfl
@[simp] theorem State.draw_rsp (s : State) : s.draw.rsp = s.rsp := rfl
@[simp] theorem State.draw_agenda (s : State) : s.draw.agenda = s.agenda := rfl
@[simp] theorem State.draw_drawn (s : State) : s.draw.drawn = s.drawn + 1 := rfl
@[simp] theorem State.draw_turn (s : State) : s.draw.turn = s.turn := rfl
@[simp] theorem State.draw_fgDue (s : State) : s.draw.fgDue = s.fgDue := rfl

/-! ### `State.traceBus` -/

@[simp] theorem State.traceBus_params (s : State) (e : BusEvent) : (s.traceBus e).params = s.params := rfl
@[simp] theorem State.traceBus_outBuf (s : State) (e : BusEvent) : (s.traceBus e).outBuf = s.outBuf := rfl
@[simp] theorem State.traceBus_inBuf (s : State) (e : BusEvent) : (s.traceBus e).inBuf = s.inBuf := rfl
@[simp] theorem State.traceBus_overrun (s : State) (e : BusEvent) : (s.traceBus e).overrun = s.overrun := rfl
@[simp] theorem State.traceBus_echo (s : State) (e : BusEvent) : (s.traceBus e).echo = s.echo := rfl
@[simp] theorem State.traceBus_baud (s : State) (e : BusEvent) : (s.traceBus e).baud = s.baud := rfl
@[simp] theorem State.traceBus_serInited (s : State) (e : BusEvent) : (s.traceBus e).serInited = s.serInited := rfl
@[simp] theorem State.traceBus_txData (s : State) (e : BusEvent) : (s.traceBus e).txData = s.txData := rfl
@[simp] theorem State.traceBus_txFull (s : State) (e : BusEvent) : (s.traceBus e).txFull = s.txFull := rfl
@[simp] theorem State.traceBus_rxData (s : State) (e : BusEvent) : (s.traceBus e).rxData = s.rxData := rfl
@[simp] theorem State.traceBus_rxFull (s : State) (e : BusEvent) : (s.traceBus e).rxFull = s.rxFull := rfl
@[simp] theorem State.traceBus_hwRxLost (s : State) (e : BusEvent) : (s.traceBus e).hwRxLost = s.hwRxLost := rfl
@[simp] theorem State.traceBus_txLine (s : State) (e : BusEvent) : (s.traceBus e).txLine = s.txLine := rfl
@[simp] theorem State.traceBus_rxLine (s : State) (e : BusEvent) : (s.traceBus e).rxLine = s.rxLine := rfl
@[simp] theorem State.traceBus_gie (s : State) (e : BusEvent) : (s.traceBus e).gie = s.gie := rfl
@[simp] theorem State.traceBus_drainIe (s : State) (e : BusEvent) : (s.traceBus e).drainIe = s.drainIe := rfl
@[simp] theorem State.traceBus_rxIe (s : State) (e : BusEvent) : (s.traceBus e).rxIe = s.rxIe := rfl
@[simp] theorem State.traceBus_sel (s : State) (e : BusEvent) : (s.traceBus e).sel = s.sel := rfl
@[simp] theorem State.traceBus_spiData (s : State) (e : BusEvent) : (s.traceBus e).spiData = s.spiData := rfl
@[simp] theorem State.traceBus_spiBusy (s : State) (e : BusEvent) : (s.traceBus e).spiBusy = s.spiBusy := rfl
@[simp] theorem State.traceBus_spiDone (s : State) (e : BusEvent) : (s.traceBus e).spiDone = s.spiDone := rfl
@[simp] theorem State.traceBus_busTrace (s : State) (e : BusEvent) : (s.traceBus e).busTrace = s.busTrace ++ [e] := rfl
@[simp] theorem State.traceBus_nvm (s : State) (e : BusEvent) : (s.traceBus e).nvm = s.nvm := rfl
@[simp] theorem State.traceBus_nvAddr (s : State) (e : BusEvent) : (s.traceBus e).nvAddr = s.nvAddr := rfl
@[simp] theorem State.traceBus_nvData (s : State) (e : BusEvent) : (s.traceBus e).nvData = s.nvData := rfl
@[simp] theorem State.traceBus_nvBusy (s : State) (e : BusEvent) : (s.traceBus e).nvBusy = s.nvBusy := rfl
@[simp] theorem State.traceBus_nvWriteCount (s : State) (e : BusEvent) : (s.traceBus e).nvWriteCount = s.nvWriteCount := rfl
@[simp] theorem State.traceBus_nvAccessCount (s : State) (e : BusEvent) : (s.traceBus e).nvAccessCount = s.nvAccessCount := rfl
@[simp] theorem State.traceBus_fg (s : State) (e : BusEvent) : (s.traceBus e).fg = s.fg := rfl
@[simp] theorem State.traceBus_rsp (s : State) (e : BusEvent) : (s.traceBus e).rsp = s.rsp := rfl
@[simp] theorem State.traceBus_agenda (s : State) (e : BusEvent) : (s.traceBus e).agenda = s.agenda := rfl
@[simp] theorem State.traceBus_drawn (s : State) (e : BusEvent) : (s.traceBus e).drawn = s.drawn := rfl
@[simp] theorem State.traceBus_turn (s : State) (e : BusEvent) : (s.traceBus e).turn = s.turn := rfl
@[simp] theorem State.traceBus_fgDue (s : State) (e : BusEvent) : (s.traceBus e).fgDue = s.fgDue := rfl

/-! ### `State.driveActive` -/

@[simp] theorem State.driveActive_params (s : State) (p : Periph) : (s.driveActive p).params = s.params := rfl
@[simp] theorem State.driveActive_outBuf (s : State) (p : Periph) : (s.driveActive p).outBuf = s.outBuf := rfl
@[simp] theorem State.driveActive_inBuf (s : State) (p : Periph) : (s.driveActive p).inBuf = s.inBuf := rfl
@[simp] theorem State.driveActive_overrun (s : State) (p : Periph) : (s.driveActive p).overrun = s.overrun := rfl
@[simp] theorem State.driveActive_echo (s : State) (p : Periph) : (s.driveActive p).echo = s.echo := rfl
@[simp] theorem State.driveActive_baud (s : State) (p : Periph) : (s.driveActive p).baud = s.baud := rfl
@[simp] theorem State.driveActive_serInited (s : State) (p : Periph) : (s.driveActive p).serInited = s.serInited := rfl
@[simp] theorem State.driveActive_txData (s : State) (p : Periph) : (s.driveActive p).txData = s.txData := rfl
@[simp] theorem State.driveActive_txFull (s : State) (p : Periph) : (s.driveActive p).txFull = s.txFull := rfl
@[simp] theorem State.driveActive_rxData (s : State) (p : Periph) : (s.driveActive p).rxData = s.rxData := rfl
@[simp] theorem State.driveActive_rxFull (s : State) (p : Periph) : (s.driveActive p).rxFull = s.rxFull := rfl
@[simp] theorem State.driveActive_hwRxLost (s : State) (p : Periph) : (s.driveActive p).hwRxLost = s.hwRxLost := rfl
@[simp] theorem State.driveActive_txLine (s : State) (p : Periph) : (s.driveActive p).txLine = s.txLine := rfl
@[simp] theorem State.driveActive_rxLine (s : State) (p : Periph) : (s.driveActive p).rxLine = s.rxLine := rfl
@[simp] theorem State.driveActive_gie (s : State) (p : Periph) : (s.driveActive p).gie = s.gie := rfl
@[simp] theorem State.driveActive_drainIe (s : State) (p : Periph) : (s.driveActive p).drainIe = s.drainIe := rfl
@[simp] theorem State.driveActive_rxIe (s : State) (p : Periph) : (s.driveActive p).rxIe = s.rxIe := rfl
@[simp] theorem State.driveActive_sel (s : State) (p : Periph) : (s.driveActive p).sel = selOfPeriph p := rfl
@[simp] theorem State.driveActive_spiData (s : State) (p : Periph) : (s.driveActive p).spiData = s.spiData := rfl
@[simp] theorem State.driveActive_spiBusy (s : State) (p : Periph) : (s.driveActive p).spiBusy = s.spiBusy := rfl
@[simp] theorem State.driveActive_spiDone (s : State) (p : Periph) : (s.driveActive p).spiDone = s.spiDone := rfl
@[simp] theorem State.driveActive_busTrace (s : State) (p : Periph) : (s.driveActive p).busTrace = s.busTrace ++ [.sel p] := rfl
@[simp] theorem State.driveActive_nvm (s : State) (p : Periph) : (s.driveActive p).nvm = s.nvm := rfl
@[simp] theorem State.driveActive_nvAddr (s : State) (p : Periph) : (s.driveActive p).nvAddr = s.nvAddr := rfl
@[simp] theorem State.driveActive_nvData (s : State) (p : Periph) : (s.driveActive p).nvData = s.nvData := rfl
@[simp] theorem State.driveActive_nvBusy (s : State) (p : Periph) : (s.driveActive p).nvBusy = s.nvBusy := rfl
@[simp] theorem State.driveActive_nvWriteCount (s : State) (p : Periph) : (s.driveActive p).nvWriteCount = s.nvWriteCount := rfl
@[simp] theorem State.driveActive_nvAccessCount (s : State) (p : Periph) : (s.driveActive p).nvAccessCount = s.nvAccessCount := rfl
@[simp] theorem State.driveActive_fg (s : State) (p : Periph) : (s.driveActive p).fg = s.fg := rfl
@[simp] theorem State.driveActive_rsp (s : State) (p : Periph) : (s.driveActive p).rsp = s.rsp := rfl
@[simp] theorem State.driveActive_agenda (s : State) (p : Periph) : (s.driveActive p).agenda = s.agenda := rfl
@[simp] theorem State.driveActive_drawn (s : State) (p : Periph) : (s.driveActive p).drawn = s.drawn := rfl
@[simp] theorem State.driveActive_turn (s : State) (p : Periph) : (s.driveActive p).turn = s.turn := rfl
@[simp] theorem State.driveActive_fgDue (s : State) (p : Periph) : (s.driveActive p).fgDue = s.fgDue := rfl

/-! ### `State.driveInactive` -/

@[simp] theorem State.driveInactive_params (s : State) (p : Periph) : (s.driveInactive p).params = s.params := rfl
@[simp] theorem State.driveInactive_outBuf (s : State) (p : Periph) : (s.driveInactive p).outBuf = s.outBuf := rfl
@[simp] theorem State.driveInactive_inBuf (s : State) (p : Periph) : (s.driveInactive p).inBuf = s.inBuf := rfl
@[simp] theorem State.driveInactive_overrun (s : State) (p : Periph) : (s.driveInactive p).overrun = s.overrun := rfl
@[simp] theorem State.driveInactive_echo (s : State) (p : Periph) : (s.driveInactive p).echo = s.echo := rfl
@[simp] theorem State.driveInactive_baud (s : State) (p : Periph) : (s.driveInactive p).baud = s.baud := rfl
@[simp] theorem State.driveInactive_serInited (s : State) (p : Periph) : (s.driveInactive p).serInited = s.serInited := rfl
@[simp] theorem State.driveInactive_txData (s : State) (p : Periph) : (s.driveInactive p).txData = s.txData := rfl
@[simp] theorem State.driveInactive_txFull (s : State) (p : Periph) : (s.driveInactive p).txFull = s.txFull := rfl
@[simp] theorem State.driveInactive_rxData (s : State) (p : Periph) : (s.driveInactive p).rxData = s.rxData := rfl
@[simp] theorem State.driveInactive_rxFull (s : State) (p : Periph) : (s.driveInactive p).rxFull = s.rxFull := rfl
@[simp] theorem State.driveInactive_hwRxLost (s : State) (p : Periph) : (s.driveInactive p).hwRxLost = s.hwRxLost := rfl
@[simp] theorem State.driveInactive_txLine (s : State) (p : Periph) : (s.driveInactive p).txLine = s.txLine := rfl
@[simp] theorem State.driveInactive_rxLine (s : State) (p : Periph) : (s.driveInactive p).rxLine = s.rxLine := rfl
@[simp] theorem State.driveInactive_gie (s : State) (p : Periph) : (s.driveInactive p).gie = s.gie := rfl
@[simp] theorem State.driveInactive_drainIe (s : State) (p : Periph) : (s.driveInactive p).drainIe = s.drainIe := rfl
@[simp] theorem State.driveInactive_rxIe (s : State) (p : Periph) : (s.driveInactive p).rxIe = s.rxIe := rfl
@[simp] theorem State.driveInactive_sel (s : State) (p : Periph) : (s.driveInactive p).sel = .none := rfl
@[simp] theorem State.driveInactive_spiData (s : State) (p : Periph) : (s.driveInactive p).spiData = s.spiData := rfl
@[simp] theorem State.driveInactive_spiBusy (s : State) (p : Periph) : (s.driveInactive p).spiBusy = s.spiBusy := rfl
@[simp] theorem State.driveInactive_spiDone (s : State) (p : Periph) : (s.driveInactive p).spiDone = s.spiDone := rfl
@[simp] theorem State.driveInactive_busTrace (s : State) (p : Periph) : (s.driveInactive p).busTrace = s.busTrace ++ [.desel p] := rfl
@[simp] theorem State.driveInactive_nvm (s : State) (p : Periph) : (s.driveInactive p).nvm = s.nvm := rfl
@[simp] theorem State.driveInactive_nvAddr (s : State) (p : Periph) : (s.driveInactive p).nvAddr = s.nvAddr := rfl
@[simp] theorem State.driveInactive_nvData (s : State) (p : Periph) : (s.driveInactive p).nvData = s.nvData := rfl
@[simp] theorem State.driveInactive_nvBusy (s : State) (p : Periph) : (s.driveInactive p).nvBusy = s.nvBusy := rfl
@[simp] theorem State.driveInactive_nvWriteCount (s : State) (p : Periph) : (s.driveInactive p).nvWriteCount = s.nvWriteCount := rfl
@[simp] theorem State.driveInactive_nvAccessCount (s : State) (p : Periph) : (s.driveInactive p).nvAccessCount = s.nvAccessCount := rfl
@[simp] theorem State.driveInactive_fg (s : State) (p : Periph) : (s.driveInactive p).fg = s.fg := rfl
@[simp] theorem State.driveInactive_rsp (s : State) (p : Periph) : (s.driveInactive p).rsp = s.rsp := rfl
@[simp] theorem State.driveInactive_agenda (s : State) (p : Periph) : (s.driveInactive p).agenda = s.agenda := rfl
@[simp] theorem State.driveInactive_drawn (s : State) (p : Periph) : (s.driveInactive p).drawn = s.drawn := rfl
@[simp] theorem State.driveInactive_turn (s : State) (p : Periph) : (s.driveInactive p).turn = s.turn := rfl
@[simp] theorem State.driveInactive_fgDue (s : State) (p : Periph) : (s.driveInactive p).fgDue = s.fgDue := rfl

/-! ### `State.takeInterrupt` -/

@[simp] theorem State.takeInterrupt_params (s : State) : s.takeInterrupt.params = s.params := rfl
@[simp] theorem State.takeInterrupt_outBuf (s : State) : s.takeInterrupt.outBuf = s.outBuf := rfl
@[simp] theorem State.takeInterrupt_inBuf (s : State) : s.takeInterrupt.inBuf = s.inBuf := rfl
@[simp] theorem State.takeInterrupt_overrun (s : State) : s.takeInterrupt.overrun = s.overrun := rfl
@[simp] theorem State.takeInterrupt_echo (s : State) : s.takeInterrupt.echo = s.echo := rfl
@[simp] theorem State.takeInterrupt_baud (s : State) : s.takeInterrupt.baud = s.baud := rfl
@[simp] theorem State.takeInterrupt_serInited (s : State) : s.takeInterrupt.serInited = s.serInited := rfl
@[simp] theorem State.takeInterrupt_txData (s : State) : s.takeInterrupt.txData = s.txData := rfl
@[simp] theorem State.takeInterrupt_txFull (s : State) : s.takeInterrupt.txFull = s.txFull := rfl
@[simp] theorem State.takeInterrupt_rxData (s : State) : s.takeInterrupt.rxData = s.rxData := rfl
@[simp] theorem State.takeInterrupt_rxFull (s : State) : s.takeInterrupt.rxFull = s.rxFull := rfl
@[simp] theorem State.takeInterrupt_hwRxLost (s : State) : s.takeInterrupt.hwRxLost = s.hwRxLost := rfl
@[simp] theorem State.takeInterrupt_txLine (s : State) : s.takeInterrupt.txLine = s.txLine := rfl
@[simp] theorem State.takeInterrupt_rxLine (s : State) : s.takeInterrupt.rxLine = s.rxLine := rfl
@[simp] theorem State.takeInterrupt_gie (s : State) : s.takeInterrupt.gie = false := rfl
@[simp] theorem State.takeInterrupt_drainIe (s : State) : s.takeInterrupt.drainIe = s.drainIe := rfl
@[simp] theorem State.takeInterrupt_rxIe (s : State) : s.takeInterrupt.rxIe = s.rxIe := rfl
@[simp] theorem State.takeInterrupt_sel (s : State) : s.takeInterrupt.sel = s.sel := rfl
@[simp] theorem State.takeInterrupt_spiData (s : State) : s.takeInterrupt.spiData = s.spiData := rfl
@[simp] theorem State.takeInterrupt_spiBusy (s : State) : s.takeInterrupt.spiBusy = s.spiBusy := rfl
@[simp] theorem State.takeInterrupt_spiDone (s : State) : s.takeInterrupt.spiDone = s.spiDone := rfl
@[simp] theorem State.takeInterrupt_busTrace (s : State) : s.takeInterrupt.busTrace = s.busTrace := rfl
@[simp] theorem State.takeInterrupt_nvm (s : State) : s.takeInterrupt.nvm = s.nvm := rfl
@[simp] theorem State.takeInterrupt_nvAddr (s : State) : s.takeInterrupt.nvAddr = s.nvAddr := rfl
@[simp] theorem State.takeInterrupt_nvData (s : State) : s.takeInterrupt.nvData = s.nvData := rfl
@[simp] theorem State.takeInterrupt_nvBusy (s : State) : s.takeInterrupt.nvBusy = s.nvBusy := rfl
@[simp] theorem State.takeInterrupt_nvWriteCount (s : State) : s.takeInterrupt.nvWriteCount = s.nvWriteCount := rfl
@[simp] theorem State.takeInterrupt_nvAccessCount (s : State) : s.takeInterrupt.nvAccessCount = s.nvAccessCount := rfl
@[simp] theorem State.takeInterrupt_fg (s : State) : s.takeInterrupt.fg = s.fg := rfl
@[simp] theorem State.takeInterrupt_rsp (s : State) : s.takeInterrupt.rsp = s.rsp := rfl
@[simp] theorem State.takeInterrupt_agenda (s : State) : s.takeInterrupt.agenda = s.agenda := rfl
@[simp] theorem State.takeInterrupt_drawn (s : State) : s.takeInterrupt.drawn = s.drawn := rfl
@[simp] theorem State.takeInterrupt_turn (s : State) : s.takeInterrupt.turn = s.turn := rfl
@[simp] theorem State.takeInterrupt_fgDue (s : State) : s.takeInterrupt.fgDue = s.fgDue := rfl

/-! ### `State.returnFromInterrupt` -/

@[simp] theorem State.returnFromInterrupt_params (s : State) : s.returnFromInterrupt.params = s.params := rfl
@[simp] theorem State.returnFromInterrupt_outBuf (s : State) : s.returnFromInterrupt.outBuf = s.outBuf := rfl
@[simp] theorem State.returnFromInterrupt_inBuf (s : State) : s.returnFromInterrupt.inBuf = s.inBuf := rfl
@[simp] theorem State.returnFromInterrupt_overrun (s : State) : s.returnFromInterrupt.overrun = s.overrun := rfl
@[simp] theorem State.returnFromInterrupt_echo (s : State) : s.returnFromInterrupt.echo = s.echo := rfl
@[simp] theorem State.returnFromInterrupt_baud (s : State) : s.returnFromInterrupt.baud = s.baud := rfl
@[simp] theorem State.returnFromInterrupt_serInited (s : State) : s.returnFromInterrupt.serInited = s.serInited := rfl
@[simp] theorem State.returnFromInterrupt_txData (s : State) : s.returnFromInterrupt.txData = s.txData := rfl
@[simp] theorem State.returnFromInterrupt_txFull (s : State) : s.returnFromInterrupt.txFull = s.txFull := rfl
@[simp] theorem State.returnFromInterrupt_rxData (s : State) : s.returnFromInterrupt.rxData = s.rxData := rfl
@[simp] theorem State.returnFromInterrupt_rxFull (s : State) : s.returnFromInterrupt.rxFull = s.rxFull := rfl
@[simp] theorem State.returnFromInterrupt_hwRxLost (s : State) : s.returnFromInterrupt.hwRxLost = s.hwRxLost := rfl
@[simp] theorem State.returnFromInterrupt_txLine (s : State) : s.returnFromInterrupt.txLine = s.txLine := rfl
@[simp] theorem State.returnFromInterrupt_rxLine (s : State) : s.returnFromInterrupt.rxLine = s.rxLine := rfl
@[simp] theorem State.returnFromInterrupt_gie (s : State) : s.returnFromInterrupt.gie = true := rfl
@[simp] theorem State.returnFromInterrupt_drainIe (s : State) : s.returnFromInterrupt.drainIe = s.drainIe := rfl
@[simp] theorem State.returnFromInterrupt_rxIe (s : State) : s.returnFromInterrupt.rxIe = s.rxIe := rfl
@[simp] theorem State.returnFromInterrupt_sel (s : State) : s.returnFromInterrupt.sel = s.sel := rfl
@[simp] theorem State.returnFromInterrupt_spiData (s : State) : s.returnFromInterrupt.spiData = s.spiData := rfl
@[simp] theorem State.returnFromInterrupt_spiBusy (s : State) : s.returnFromInterrupt.spiBusy = s.spiBusy := rfl
@[simp] theorem State.returnFromInterrupt_spiDone (s : State) : s.returnFromInterrupt.spiDone = s.spiDone := rfl
@[simp] theorem State.returnFromInterrupt_busTrace (s : State) : s.returnFromInterrupt.busTrace = s.busTrace := rfl
@[simp] theorem State.returnFromInterrupt_nvm (s : State) : s.returnFromInterrupt.nvm = s.nvm := rfl
@[simp] theorem State.returnFromInterrupt_nvAddr (s : State) : s.returnFromInterrupt.nvAddr = s.nvAddr := rfl
@[simp] theorem State.returnFromInterrupt_nvData (s : State) : s.returnFromInterrupt.nvData = s.nvData := rfl
@[simp] theorem State.returnFromInterrupt_nvBusy (s : State) : s.returnFromInterrupt.nvBusy = s.nvBusy := rfl
@[simp] theorem State.returnFromInterrupt_nvWriteCount (s : State) : s.returnFromInterrupt.nvWriteCount = s.nvWriteCount := rfl
@[simp] theorem State.returnFromInterrupt_nvAccessCount (s : State) : s.returnFromInterrupt.nvAccessCount = s.nvAccessCount := rfl
@[simp] theorem State.returnFromInterrupt_fg (s : State) : s.returnFromInterrupt.fg = s.fg := rfl
@[simp] theorem State.returnFromInterrupt_rsp (s : State) : s.returnFromInterrupt.rsp = s.rsp := rfl
@[simp] theorem State.returnFromInterrupt_agenda (s : State) : s.returnFromInterrupt.agenda = s.agenda := rfl
@[simp] theorem State.returnFromInterrupt_drawn (s : State) : s.returnFromInterrupt.drawn = s.drawn := rfl
@[simp] theorem State.returnFromInterrupt_turn (s : State) : s.returnFromInterrupt.turn = s.turn := rfl
@[simp] theorem State.returnFromInterrupt_fgDue (s : State) : s.returnFromInterrupt.fgDue = s.fgDue := rfl

/-! ### `State.nvStore` -/

@[simp] theorem State.nvStore_params (s : State) (a : Addr) (v : Byte) : (s.nvStore a v).params = s.params := rfl
@[simp] theorem State.nvStore_outBuf (s : State) (a : Addr) (v : Byte) : (s.nvStore a v).outBuf = s.outBuf := rfl
@[simp] theorem State.nvStore_inBuf (s : State) (a : Addr) (v : Byte) : (s.nvStore a v).inBuf = s.inBuf := rfl
@[simp] theorem State.nvStore_overrun (s : State) (a : Addr) (v : Byte) : (s.nvStore a v).overrun = s.overrun := rfl
@[simp] theorem State.nvStore_echo (s : State) (a : Addr) (v : Byte) : (s.nvStore a v).echo = s.echo := rfl
@[simp] theorem State.nvStore_baud (s : State) (a : Addr) (v : Byte) : (s.nvStore a v).baud = s.baud := rfl
@[simp] theorem State.nvStore_serInited (s : State) (a : Addr) (v : Byte) : (s.nvStore a v).serInited = s.serInited := rfl
@[simp] theorem State.nvStore_txData (s : State) (a : Addr) (v : Byte) : (s.nvStore a v).txData = s.txData := rfl
@[simp] theorem State.nvStore_txFull (s : State) (a : Addr) (v : Byte) : (s.nvStore a v).txFull = s.txFull := rfl
@[simp] theorem State.nvStore_rxData (s : State) (a : Addr) (v : Byte) : (s.nvStore a v).rxData = s.rxData := rfl
@[simp] theorem State.nvStore_rxFull (s : State) (a : Addr) (v : Byte) : (s.nvStore a v).rxFull = s.rxFull := rfl
@[simp] theorem State.nvStore_hwRxLost (s : State) (a : Addr) (v : Byte) : (s.nvStore a v).hwRxLost = s.hwRxLost := rfl
@[simp] theorem State.nvStore_txLine (s : State) (a : Addr) (v : Byte) : (s.nvStore a v).txLine = s.txLine := rfl
@[simp] theorem State.nvStore_rxLine (s : State) (a : Addr) (v : Byte) : (s.nvStore a v).rxLine = s.rxLine := rfl
@[simp] theorem State.nvStore_gie (s : State) (a : Addr) (v : Byte) : (s.nvStore a v).gie = s.gie := rfl
@[simp] theorem State.nvStore_drainIe (s : State) (a : Addr) (v : Byte) : (s.nvStore a v).drainIe = s.drainIe := rfl
@[simp] theorem State.nvStore_rxIe (s : State) (a : Addr) (v : Byte) : (s.nvStore a v).rxIe = s.rxIe := rfl
@[simp] theorem State.nvStore_sel (s : State) (a : Addr) (v : Byte) : (s.nvStore a v).sel = s.sel := rfl
@[simp] theorem State.nvStore_spiData (s : State) (a : Addr) (v : Byte) : (s.nvStore a v).spiData = s.spiData := rfl
@[simp] theorem State.nvStore_spiBusy (s : State) (a : Addr) (v : Byte) : (s.nvStore a v).spiBusy = s.spiBusy := rfl
@[simp] theorem State.nvStore_spiDone (s : State) (a : Addr) (v : Byte) : (s.nvStore a v).spiDone = s.spiDone := rfl
@[simp] theorem State.nvStore_busTrace (s : State) (a : Addr) (v : Byte) : (s.nvStore a v).busTrace = s.busTrace := rfl
@[simp] theorem State.nvStore_nvm (s : State) (a : Addr) (v : Byte) : (s.nvStore a v).nvm = Memory.write s.params s.nvm a.toNat v := rfl
@[simp] theorem State.nvStore_nvAddr (s : State) (a : Addr) (v : Byte) : (s.nvStore a v).nvAddr = s.nvAddr := rfl
@[simp] theorem State.nvStore_nvData (s : State) (a : Addr) (v : Byte) : (s.nvStore a v).nvData = s.nvData := rfl
@[simp] theorem State.nvStore_nvBusy (s : State) (a : Addr) (v : Byte) : (s.nvStore a v).nvBusy = s.nvBusy := rfl
@[simp] theorem State.nvStore_nvWriteCount (s : State) (a : Addr) (v : Byte) : (s.nvStore a v).nvWriteCount = s.nvWriteCount := rfl
@[simp] theorem State.nvStore_nvAccessCount (s : State) (a : Addr) (v : Byte) : (s.nvStore a v).nvAccessCount = s.nvAccessCount := rfl
@[simp] theorem State.nvStore_fg (s : State) (a : Addr) (v : Byte) : (s.nvStore a v).fg = s.fg := rfl
@[simp] theorem State.nvStore_rsp (s : State) (a : Addr) (v : Byte) : (s.nvStore a v).rsp = s.rsp := rfl
@[simp] theorem State.nvStore_agenda (s : State) (a : Addr) (v : Byte) : (s.nvStore a v).agenda = s.agenda := rfl
@[simp] theorem State.nvStore_drawn (s : State) (a : Addr) (v : Byte) : (s.nvStore a v).drawn = s.drawn := rfl
@[simp] theorem State.nvStore_turn (s : State) (a : Addr) (v : Byte) : (s.nvStore a v).turn = s.turn := rfl
@[simp] theorem State.nvStore_fgDue (s : State) (a : Addr) (v : Byte) : (s.nvStore a v).fgDue = s.fgDue := rfl

/-! ### `State.presentWord` -/

@[simp] theorem State.presentWord_params (s : State) (w : Word) : (s.presentWord w).params = s.params := rfl
@[simp] theorem State.presentWord_outBuf (s : State) (w : Word) : (s.presentWord w).outBuf = s.outBuf := rfl
@[simp] theorem State.presentWord_inBuf (s : State) (w : Word) : (s.presentWord w).inBuf = s.inBuf := rfl
@[simp] theorem State.presentWord_overrun (s : State) (w : Word) : (s.presentWord w).overrun = s.overrun := rfl
@[simp] theorem State.presentWord_echo (s : State) (w : Word) : (s.presentWord w).echo = s.echo := rfl
@[simp] theorem State.presentWord_baud (s : State) (w : Word) : (s.presentWord w).baud = s.baud := rfl
@[simp] theorem State.presentWord_serInited (s : State) (w : Word) : (s.presentWord w).serInited = s.serInited := rfl
@[simp] theorem State.presentWord_txData (s : State) (w : Word) : (s.presentWord w).txData = s.txData := rfl
@[simp] theorem State.presentWord_txFull (s : State) (w : Word) : (s.presentWord w).txFull = s.txFull := rfl
@[simp] theorem State.presentWord_rxData (s : State) (w : Word) : (s.presentWord w).rxData = s.rxData := rfl
@[simp] theorem State.presentWord_rxFull (s : State) (w : Word) : (s.presentWord w).rxFull = s.rxFull := rfl
@[simp] theorem State.presentWord_hwRxLost (s : State) (w : Word) : (s.presentWord w).hwRxLost = s.hwRxLost := rfl
@[simp] theorem State.presentWord_txLine (s : State) (w : Word) : (s.presentWord w).txLine = s.txLine := rfl
@[simp] theorem State.presentWord_rxLine (s : State) (w : Word) : (s.presentWord w).rxLine = s.rxLine := rfl
@[simp] theorem State.presentWord_gie (s : State) (w : Word) : (s.presentWord w).gie = s.gie := rfl
@[simp] theorem State.presentWord_drainIe (s : State) (w : Word) : (s.presentWord w).drainIe = s.drainIe := rfl
@[simp] theorem State.presentWord_rxIe (s : State) (w : Word) : (s.presentWord w).rxIe = s.rxIe := rfl
@[simp] theorem State.presentWord_sel (s : State) (w : Word) : (s.presentWord w).sel = s.sel := rfl
@[simp] theorem State.presentWord_spiData (s : State) (w : Word) : (s.presentWord w).spiData = s.spiData := rfl
@[simp] theorem State.presentWord_spiBusy (s : State) (w : Word) : (s.presentWord w).spiBusy = s.spiBusy := rfl
@[simp] theorem State.presentWord_spiDone (s : State) (w : Word) : (s.presentWord w).spiDone = s.spiDone := rfl
@[simp] theorem State.presentWord_busTrace (s : State) (w : Word) : (s.presentWord w).busTrace = s.busTrace := rfl
@[simp] theorem State.presentWord_nvm (s : State) (w : Word) : (s.presentWord w).nvm = s.nvm := rfl
@[simp] theorem State.presentWord_nvAddr (s : State) (w : Word) : (s.presentWord w).nvAddr = s.nvAddr := rfl
@[simp] theorem State.presentWord_nvData (s : State) (w : Word) : (s.presentWord w).nvData = s.nvData := rfl
@[simp] theorem State.presentWord_nvBusy (s : State) (w : Word) : (s.presentWord w).nvBusy = s.nvBusy := rfl
@[simp] theorem State.presentWord_nvWriteCount (s : State) (w : Word) : (s.presentWord w).nvWriteCount = s.nvWriteCount := rfl
@[simp] theorem State.presentWord_nvAccessCount (s : State) (w : Word) : (s.presentWord w).nvAccessCount = s.nvAccessCount := rfl
@[simp] theorem State.presentWord_fg (s : State) (w : Word) : (s.presentWord w).fg = .idle := rfl
@[simp] theorem State.presentWord_rsp (s : State) (w : Word) : (s.presentWord w).rsp = s.rsp := rfl
@[simp] theorem State.presentWord_agenda (s : State) (w : Word) : (s.presentWord w).agenda = .command w :: s.agenda := rfl
@[simp] theorem State.presentWord_drawn (s : State) (w : Word) : (s.presentWord w).drawn = s.drawn := rfl
@[simp] theorem State.presentWord_turn (s : State) (w : Word) : (s.presentWord w).turn = s.turn := rfl
@[simp] theorem State.presentWord_fgDue (s : State) (w : Word) : (s.presentWord w).fgDue = s.fgDue := rfl

/-! ### `State.takeEvent`: only the agenda, the turn and `FG`'s due move -/

@[simp] theorem State.takeEvent_params (s : State) : s.takeEvent.params = s.params := by
  unfold State.takeEvent; split <;> [rfl; (split <;> rfl)]
@[simp] theorem State.takeEvent_outBuf (s : State) : s.takeEvent.outBuf = s.outBuf := by
  unfold State.takeEvent; split <;> [rfl; (split <;> rfl)]
@[simp] theorem State.takeEvent_inBuf (s : State) : s.takeEvent.inBuf = s.inBuf := by
  unfold State.takeEvent; split <;> [rfl; (split <;> rfl)]
@[simp] theorem State.takeEvent_overrun (s : State) : s.takeEvent.overrun = s.overrun := by
  unfold State.takeEvent; split <;> [rfl; (split <;> rfl)]
@[simp] theorem State.takeEvent_echo (s : State) : s.takeEvent.echo = s.echo := by
  unfold State.takeEvent; split <;> [rfl; (split <;> rfl)]
@[simp] theorem State.takeEvent_baud (s : State) : s.takeEvent.baud = s.baud := by
  unfold State.takeEvent; split <;> [rfl; (split <;> rfl)]
@[simp] theorem State.takeEvent_serInited (s : State) : s.takeEvent.serInited = s.serInited := by
  unfold State.takeEvent; split <;> [rfl; (split <;> rfl)]
@[simp] theorem State.takeEvent_txData (s : State) : s.takeEvent.txData = s.txData := by
  unfold State.takeEvent; split <;> [rfl; (split <;> rfl)]
@[simp] theorem State.takeEvent_txFull (s : State) : s.takeEvent.txFull = s.txFull := by
  unfold State.takeEvent; split <;> [rfl; (split <;> rfl)]
@[simp] theorem State.takeEvent_rxData (s : State) : s.takeEvent.rxData = s.rxData := by
  unfold State.takeEvent; split <;> [rfl; (split <;> rfl)]
@[simp] theorem State.takeEvent_rxFull (s : State) : s.takeEvent.rxFull = s.rxFull := by
  unfold State.takeEvent; split <;> [rfl; (split <;> rfl)]
@[simp] theorem State.takeEvent_hwRxLost (s : State) : s.takeEvent.hwRxLost = s.hwRxLost := by
  unfold State.takeEvent; split <;> [rfl; (split <;> rfl)]
@[simp] theorem State.takeEvent_txLine (s : State) : s.takeEvent.txLine = s.txLine := by
  unfold State.takeEvent; split <;> [rfl; (split <;> rfl)]
@[simp] theorem State.takeEvent_rxLine (s : State) : s.takeEvent.rxLine = s.rxLine := by
  unfold State.takeEvent; split <;> [rfl; (split <;> rfl)]
@[simp] theorem State.takeEvent_gie (s : State) : s.takeEvent.gie = s.gie := by
  unfold State.takeEvent; split <;> [rfl; (split <;> rfl)]
@[simp] theorem State.takeEvent_drainIe (s : State) : s.takeEvent.drainIe = s.drainIe := by
  unfold State.takeEvent; split <;> [rfl; (split <;> rfl)]
@[simp] theorem State.takeEvent_rxIe (s : State) : s.takeEvent.rxIe = s.rxIe := by
  unfold State.takeEvent; split <;> [rfl; (split <;> rfl)]
@[simp] theorem State.takeEvent_sel (s : State) : s.takeEvent.sel = s.sel := by
  unfold State.takeEvent; split <;> [rfl; (split <;> rfl)]
@[simp] theorem State.takeEvent_spiData (s : State) : s.takeEvent.spiData = s.spiData := by
  unfold State.takeEvent; split <;> [rfl; (split <;> rfl)]
@[simp] theorem State.takeEvent_spiBusy (s : State) : s.takeEvent.spiBusy = s.spiBusy := by
  unfold State.takeEvent; split <;> [rfl; (split <;> rfl)]
@[simp] theorem State.takeEvent_spiDone (s : State) : s.takeEvent.spiDone = s.spiDone := by
  unfold State.takeEvent; split <;> [rfl; (split <;> rfl)]
@[simp] theorem State.takeEvent_busTrace (s : State) : s.takeEvent.busTrace = s.busTrace := by
  unfold State.takeEvent; split <;> [rfl; (split <;> rfl)]
@[simp] theorem State.takeEvent_nvm (s : State) : s.takeEvent.nvm = s.nvm := by
  unfold State.takeEvent; split <;> [rfl; (split <;> rfl)]
@[simp] theorem State.takeEvent_nvAddr (s : State) : s.takeEvent.nvAddr = s.nvAddr := by
  unfold State.takeEvent; split <;> [rfl; (split <;> rfl)]
@[simp] theorem State.takeEvent_nvData (s : State) : s.takeEvent.nvData = s.nvData := by
  unfold State.takeEvent; split <;> [rfl; (split <;> rfl)]
@[simp] theorem State.takeEvent_nvBusy (s : State) : s.takeEvent.nvBusy = s.nvBusy := by
  unfold State.takeEvent; split <;> [rfl; (split <;> rfl)]
@[simp] theorem State.takeEvent_nvWriteCount (s : State) : s.takeEvent.nvWriteCount = s.nvWriteCount := by
  unfold State.takeEvent; split <;> [rfl; (split <;> rfl)]
@[simp] theorem State.takeEvent_nvAccessCount (s : State) : s.takeEvent.nvAccessCount = s.nvAccessCount := by
  unfold State.takeEvent; split <;> [rfl; (split <;> rfl)]
@[simp] theorem State.takeEvent_fg (s : State) : s.takeEvent.fg = s.fg := by
  unfold State.takeEvent; split <;> [rfl; (split <;> rfl)]
@[simp] theorem State.takeEvent_rsp (s : State) : s.takeEvent.rsp = s.rsp := by
  unfold State.takeEvent; split <;> [rfl; (split <;> rfl)]

@[simp] theorem State.takeEvent_drawn (s : State) : s.takeEvent.drawn = s.drawn := by
  unfold State.takeEvent; split <;> [rfl; (split <;> rfl)]

theorem State.takeEvent_owed (s : State) (h : s.agenda = []) (ho : s.fgOwed = true) :
    s.takeEvent = { s with fgDue := false } := by
  unfold State.takeEvent; rw [h]; exact if_pos ho

theorem State.event_owed (s : State) (h : s.agenda = []) (ho : s.fgOwed = true) : s.event = .fg := by
  unfold State.event; rw [h]; exact if_pos ho

theorem State.takeEvent_turn (s : State) (h : s.agenda = []) (ho : s.fgOwed = false) :
    s.takeEvent = { s with
      turn := s.turn + 1, fgDue := s.waits && (s.fgDue || decide (Config.arbiter s.turn = .fg)) } := by
  unfold State.takeEvent; rw [h]; exact if_neg (by simp [ho])

theorem State.event_turn (s : State) (h : s.agenda = []) (ho : s.fgOwed = false) :
    s.event = Config.arbiter s.turn := by
  unfold State.event; rw [h]; exact if_neg (by simp [ho])

theorem State.takeEvent_cons (s : State) (e : Event) (es : List Event) (h : s.agenda = e :: es) :
    s.takeEvent = { s with agenda := es } := by
  unfold State.takeEvent; rw [h]

theorem State.event_cons (s : State) (e : Event) (es : List Event) (h : s.agenda = e :: es) : s.event = e := by
  unfold State.event; rw [h]

/-! ### `State.critical`: the saved state is restored -/

@[simp] theorem State.critical_gie (s : State) (ie : Bool) (f : State → State) : (s.critical ie f).gie = ie := rfl

end Sys2Proof.Machine
end

