-- ==== Sys2Proof/Laws/Ops.lean ====
section
/-! SUPPORT. What each shared operation can do, said once: the enqueue, the sequencer's combinators, and one atomic
step of every inner phase sequence. Later proofs cite these instead of unfolding the operations. -/

namespace Sys2Proof.Machine

/-! ### The enqueue (R201) -/

/-- The state after a byte was enqueued by a caller whose interrupt state is `ie`. -/
def State.enqueued (s : State) (b : Byte) (ie : Bool) : State :=
  { s with outBuf := s.outBuf.enqueue s.params.outCap b, drainIe := true, gie := ie }

theorem State.putByte_room (s : State) (b : Byte) (ie : Bool) (h : s.outBuf.count < s.params.outCap) :
    s.putByte b ie = some (.ok, s.enqueued b ie) := by
  unfold State.putByte; rw [if_pos h]; rfl

theorem State.putByte_dropped (s : State) (b : Byte) (h : s.params.outCap ≤ s.outBuf.count) :
    s.putByte b false = some (.dropped, s) := by
  unfold State.putByte; rw [if_neg (by omega)]; rfl

theorem State.putByte_waits (s : State) (b : Byte) (h : s.params.outCap ≤ s.outBuf.count) :
    s.putByte b true = none := by
  unfold State.putByte; rw [if_neg (by omega)]; rfl

/-- Everything an enabled `PutByte` can do: enqueue where there is room, or drop with interrupts disabled. -/
theorem State.putByte_some (s t : State) (b : Byte) (ie : Bool) (r : PutResult) (h : s.putByte b ie = some (r, t)) :
    (r = .ok ∧ s.outBuf.count < s.params.outCap ∧ t = s.enqueued b ie) ∨
    (r = .dropped ∧ s.params.outCap ≤ s.outBuf.count ∧ ie = false ∧ t = s) := by
  by_cases hc : s.outBuf.count < s.params.outCap
  · rw [State.putByte_room s b ie hc] at h; cases h; exact .inl ⟨rfl, hc, rfl⟩
  · cases ie with
    | true => rw [State.putByte_waits s b (by omega)] at h; cases h
    | false => rw [State.putByte_dropped s b (by omega)] at h; cases h; exact .inr ⟨rfl, by omega, rfl, rfl⟩

/-- `PutByte` is not enabled exactly where the buffer is full and interrupts are enabled. -/
theorem State.putByte_none (s : State) (b : Byte) (ie : Bool) (h : s.putByte b ie = none) :
    s.params.outCap ≤ s.outBuf.count ∧ ie = true := by
  by_cases hc : s.outBuf.count < s.params.outCap
  · rw [State.putByte_room s b ie hc] at h; cases h
  · cases ie with
    | true => exact ⟨by omega, rfl⟩
    | false => rw [State.putByte_dropped s b (by omega)] at h; cases h

/-- The enqueue of a handler, result discarded: enqueued where there is room, else nothing. -/
theorem State.putOrDrop_eq (s : State) (b : Byte) :
    s.putOrDrop b = if s.outBuf.count < s.params.outCap then s.enqueued b false else s := by
  unfold State.putOrDrop
  split
  · next h => rcases State.putByte_some _ _ _ _ _ h with ⟨-, hc, rfl⟩ | ⟨-, hc, -, rfl⟩
              · rw [if_pos hc]
              · rw [if_neg (by omega)]
  · next h => cases (State.putByte_none _ _ _ h).2

/-! ### The sequencer's combinators -/

theorem State.foreground_idle (i : Instr) (first : Phase) (body : Phase → Result) (s : State) (h : s.fg = .idle) :
    s.foreground i first body = body first := by
  unfold State.foreground; rw [h]

theorem State.foreground_run (i : Instr) (first ph : Phase) (body : Phase → Result) (s : State)
    (h : s.fg = .run i ph) : s.foreground i first body = body ph := by
  unfold State.foreground; rw [h]; simp

/-- Everything the foreground shape can do when it is not refused as busy: the first phase when idle, the named phase
of this very command. -/
theorem State.foreground_cases (i : Instr) (first : Phase) (body : Phase → Result) (s : State) :
    (s.fg = .idle ∧ s.foreground i first body = body first) ∨
    (∃ ph, s.fg = .run i ph ∧ s.foreground i first body = body ph) ∨
    (∃ j ph, s.fg = .run j ph ∧ j ≠ i ∧ s.foreground i first body = .refused .commandWhileBusy) := by
  cases h : s.fg with
  | idle => exact .inl ⟨rfl, State.foreground_idle i first body s h⟩
  | run j ph =>
    by_cases hj : j = i
    · subst hj; exact .inr (.inl ⟨ph, rfl, State.foreground_run j first ph body s h⟩)
    · refine .inr (.inr ⟨j, ph, rfl, hj, ?_⟩)
      unfold State.foreground; rw [h]; simp [hj]

theorem Sub.run_next {π α : Type} (x : Sub π α) (i : Instr) (wrap : π → Phase) (fin : α → State → State) (t : State)
    (h : x.run i wrap fin = .next t) :
    (∃ q s, x = .ok (.more q) s ∧ t = s.goto i (wrap q)) ∨ (∃ a s, x = .ok (.done a) s ∧ t = fin a s) := by
  match x with
  | .ok (.more q) s => cases h; exact .inl ⟨q, s, rfl, rfl⟩
  | .ok (.done a) s => cases h; exact .inr ⟨a, s, rfl, rfl⟩
  | .refuse r => cases h
  | .fault f => cases h

theorem Sub.andThen_ok {π α ρ β : Type} (x : Sub π α) (wrap : π → ρ) (follow : α → Progress ρ β) (r : Progress ρ β)
    (t : State) (h : x.andThen wrap follow = .ok r t) :
    (∃ q, x = .ok (.more q) t ∧ r = .more (wrap q)) ∨ (∃ a, x = .ok (.done a) t ∧ r = follow a) := by
  match x with
  | .ok (.more q) s => cases h; exact .inl ⟨q, rfl, rfl⟩
  | .ok (.done a) s => cases h; exact .inr ⟨a, rfl, rfl⟩
  | .refuse r => cases h
  | .fault f => cases h

/-! ### One atomic step of each inner phase sequence -/

/-- NR0, NR1 (R141): the bound check, the wait, the access. -/
theorem readStep_ok (addr : Addr) (r : ReadPhase) (s t : State) (p : Progress ReadPhase (Option Byte))
    (h : readStep addr r s = .ok p t) :
    (r = .nr0 ∧ t = s ∧
      ((addrValid s.params addr = true ∧ p = .more .nr1) ∨ (addrValid s.params addr = false ∧ p = .done none))) ∨
    (r = .nr1 ∧ s.nvBusy = true ∧ t = s ∧ p = .more .nr1) ∨
    (∃ b, r = .nr1 ∧ s.nvBusy = false ∧ s.nvRead addr = some b ∧ p = .done (some b) ∧
      t = { s with nvAddr := addr, nvData := b, nvAccessCount := s.nvAccessCount + 1 }) := by
  cases r with
  | nr0 => cases h; cases hv : addrValid s.params addr <;> simp
  | nr1 =>
    unfold readStep at h
    cases hb : s.nvBusy with
    | true => simp only [hb, if_true] at h; cases h; exact .inr (.inl ⟨rfl, rfl, rfl, rfl⟩)
    | false =>
      simp only [hb] at h
      cases hr : s.nvRead addr with
      | none => simp only [hr] at h; cases h
      | some b => simp only [hr] at h; cases h; exact .inr (.inr ⟨b, rfl, rfl, rfl, rfl, by simp⟩)

/-- W0, W1 (R142): the bound check, the wait, the issue. -/
theorem writeStep_ok (addr : Addr) (v : Byte) (w : WritePhase) (s t : State) (p : Progress WritePhase Status)
    (h : writeStep addr v w s = .ok p t) :
    (w = .w0 ∧ t = s ∧
      ((addrValid s.params addr = true ∧ p = .more .w1) ∨
       (addrValid s.params addr = false ∧ p = .done .invalidAddress))) ∨
    (w = .w1 ∧ s.nvBusy = true ∧ t = s ∧ p = .more .w1) ∨
    (w = .w1 ∧ s.nvBusy = false ∧ p = .done .success ∧
      t = { s with
        nvAddr := addr, nvData := v, nvBusy := true,
        nvWriteCount := s.nvWriteCount + 1, nvAccessCount := s.nvAccessCount + 1 }) := by
  cases w with
  | w0 => cases h; cases hv : addrValid s.params addr <;> simp
  | w1 =>
    unfold writeStep at h
    cases hb : s.nvBusy with
    | true => simp only [hb, if_true] at h; cases h; exact .inr (.inl ⟨rfl, rfl, rfl, rfl⟩)
    | false => simp only [hb] at h; cases h; exact .inr (.inr ⟨rfl, rfl, rfl, rfl⟩)

/-- X1, X2 (R172): the byte put out, the wait, the byte taken. -/
theorem xferStep_ok (b : Byte) (x : XferPhase) (s t : State) (p : Progress XferPhase Byte)
    (h : xferStep b x s = .ok p t) :
    (x = .x1 ∧ p = .more .x2 ∧ t = { s with spiData := b, spiDone := false, spiBusy := true }) ∨
    (x = .x2 ∧ s.spiDone = false ∧ p = .more .x2 ∧ t = s) ∨
    (x = .x2 ∧ s.spiDone = true ∧ p = .done s.spiData ∧ t = { s with spiDone := false }) := by
  cases x with
  | x1 => cases h; exact .inl ⟨rfl, rfl, rfl⟩
  | x2 =>
    unfold xferStep at h
    cases hd : s.spiDone with
    | true => simp only [hd, if_true] at h; cases h; exact .inr (.inr ⟨rfl, rfl, rfl, rfl⟩)
    | false => simp only [hd] at h; cases h; exact .inr (.inl ⟨rfl, rfl, rfl, rfl⟩)

/-- A transfer never refuses and never faults. -/
theorem xferStep_total (b : Byte) (x : XferPhase) (s : State) : ∃ p t, xferStep b x s = .ok p t := by
  cases x with
  | x1 => exact ⟨_, _, rfl⟩
  | x2 => cases h : s.spiDone <;> simp [xferStep, h]

/-- V0 to V2 (R202): the choice of phase, then each byte put or awaited. -/
theorem charStep_ok (c : Byte) (q : CharPhase) (s t : State) (p : Progress CharPhase PutResult)
    (h : charStep c q s = .ok p t) :
    (q = .v0 ∧ s.serInited = true ∧ t = s ∧ p = .more (if needsCarriageReturn c then .v1 else .v2)) ∨
    (q ≠ .v0 ∧ s.params.outCap ≤ s.outBuf.count ∧ s.gie = true ∧ t = s ∧ p = .more q) ∨
    (q = .v1 ∧ p = .more .v2 ∧ ∃ r, s.putByte carriageReturn s.gie = some (r, t)) ∨
    (∃ r, q = .v2 ∧ p = .done r ∧ s.putByte c s.gie = some (r, t)) := by
  cases q with
  | v0 =>
    unfold charStep at h
    cases hi : s.serInited with
    | true => simp only [hi, if_true] at h; cases h; exact .inl ⟨rfl, rfl, rfl, rfl⟩
    | false => simp only [hi] at h; cases h
  | v1 =>
    unfold charStep at h
    cases hp : s.putByte carriageReturn s.gie with
    | none =>
      have hn := State.putByte_none _ _ _ hp
      simp only [hp] at h; cases h; exact .inr (.inl ⟨by simp, hn.1, hn.2, rfl, rfl⟩)
    | some r => simp only [hp] at h; cases h; exact .inr (.inr (.inl ⟨rfl, rfl, r.1, rfl⟩))
  | v2 =>
    unfold charStep at h
    cases hp : s.putByte c s.gie with
    | none =>
      have hn := State.putByte_none _ _ _ hp
      simp only [hp] at h; cases h; exact .inr (.inl ⟨by simp, hn.1, hn.2, rfl, rfl⟩)
    | some r => simp only [hp] at h; cases h; exact .inr (.inr (.inr ⟨r.1, rfl, rfl, rfl⟩))

/-! ### Handlers and engines -/

/-- Everything an event of `H_DRAIN` can do (R212, R291): pass, disable itself, or move the oldest byte. -/
theorem drainHandler_cases (s : State) :
    (s.drainEnabled = false ∧ drainHandler s = s) ∨
    (s.drainEnabled = true ∧ s.outBuf.count = 0 ∧ drainHandler s = { s with drainIe := false, gie := true }) ∨
    (s.drainEnabled = true ∧ 0 < s.outBuf.count ∧
      drainHandler s = { s with
        outBuf := s.outBuf.dequeue, txData := s.outBuf.front s.params.outCap, txFull := true, gie := true }) := by
  unfold drainHandler
  cases h : s.drainEnabled with
  | false => simp
  | true =>
    by_cases hc : s.outBuf.count = 0
    · refine .inr (.inl ⟨rfl, hc, ?_⟩)
      simp [State.runHandler, drainBody, State.takeInterrupt, State.returnFromInterrupt, hc]
    · refine .inr (.inr ⟨rfl, by omega, ?_⟩)
      simp [State.runHandler, drainBody, State.takeInterrupt, State.returnFromInterrupt, hc]

/-- Everything the capture of a received byte can do (R213): store it, or set `OVERRUN`. -/
theorem capture_cases (c : Byte) (s : State) :
    (s.inBuf.count < s.params.inCap ∧
      capture c s = { s with inBuf := s.inBuf.enqueue s.params.inCap (storedByte c) }) ∨
    (s.params.inCap ≤ s.inBuf.count ∧ capture c s = { s with overrun := true }) := by
  unfold capture
  by_cases h : s.inBuf.count < s.params.inCap
  · rw [if_pos h]; exact .inl ⟨h, rfl⟩
  · rw [if_neg h]; exact .inr ⟨by omega, rfl⟩

/-- A stored byte is never a carriage-return (R131, R203 corner case b). -/
theorem storedByte_ne (c : Byte) : storedByte c ≠ carriageReturn := by
  unfold storedByte
  split
  · decide
  · next h => simpa using h

end Sys2Proof.Machine
end

