-- ==== Sys2Proof/Laws/Phases.lean ====
section
/-! SUPPORT. What one atomic step of each composite phase sequence can do (the verify machine, the two framing protocols,
the host line), of the engines with a choice, and of a step of the whole block: said once, for later proofs to cite. -/

namespace Sys2Proof.Machine

/-- U0 to U4 (R143, R149): an inner read or write goes on or is followed by its successor, a comparison branches. -/
theorem updateStep_ok (addr : Addr) (v : Byte) (u : UpdatePhase) (s t : State) (p : Progress UpdatePhase Status)
    (h : updateStep addr v u s = .ok p t) :
    (∃ r q, u = .u0 r ∧ readStep addr r s = .ok q t ∧
      p = (match q with
        | .more r' => .more (.u0 r')
        | .done none => .done .invalidAddress
        | .done (some cur) => .more (.u1 cur))) ∨
    (∃ cur, u = .u1 cur ∧ t = s ∧ p = if cur = v then .done .success else .more (.u2 .w0)) ∨
    (∃ w q, u = .u2 w ∧ writeStep addr v w s = .ok q t ∧
      p = (match q with
        | .more w' => .more (.u2 w')
        | .done st => if st = .success then .more (.u3 .nr0) else .done st)) ∨
    (∃ r q, u = .u3 r ∧ readStep addr r s = .ok q t ∧
      p = (match q with
        | .more r' => .more (.u3 r')
        | .done none => .done .invalidAddress
        | .done (some rb) => .more (.u4 rb))) ∨
    (∃ rb, u = .u4 rb ∧ t = s ∧ p = .done (if rb = v then .success else .verifyFail)) := by
  cases u with
  | u0 r =>
    rcases Sub.andThen_ok _ _ _ _ _ h with ⟨q, hq, rfl⟩ | ⟨a, hq, rfl⟩
    · exact .inl ⟨r, .more q, rfl, hq, rfl⟩
    · cases a <;> exact .inl ⟨r, .done _, rfl, hq, rfl⟩
  | u1 cur => cases h; exact .inr (.inl ⟨cur, rfl, rfl, rfl⟩)
  | u2 w =>
    rcases Sub.andThen_ok _ _ _ _ _ h with ⟨q, hq, rfl⟩ | ⟨a, hq, rfl⟩
    · exact .inr (.inr (.inl ⟨w, .more q, rfl, hq, rfl⟩))
    · exact .inr (.inr (.inl ⟨w, .done a, rfl, hq, rfl⟩))
  | u3 r =>
    rcases Sub.andThen_ok _ _ _ _ _ h with ⟨q, hq, rfl⟩ | ⟨a, hq, rfl⟩
    · exact .inr (.inr (.inr (.inl ⟨r, .more q, rfl, hq, rfl⟩)))
    · cases a <;> exact .inr (.inr (.inr (.inl ⟨r, .done _, rfl, hq, rfl⟩)))
  | u4 rb => cases h; exact .inr (.inr (.inr (.inr ⟨rb, rfl, rfl, rfl⟩)))

/-- The four transfer phases of the register-write protocol: the byte sent and the phase that follows (R176). -/
def FramePhase.transfer (reg data : Byte) (f : FramePhase) : Option (XferPhase × Byte × (XferPhase → FramePhase) × FramePhase) :=
  match f with
  | .p0 => none
  | .p1 => none
  | .p2 x => some (x, reg, .p2, .p3 .x1)
  | .p3 x => some (x, data, .p3, .p4)
  | .p4 => none
  | .p5 => none
  | .p6 => none
  | .p7 x => some (x, commitMarker, .p7, .p8 .x1)
  | .p8 x => some (x, commitData, .p8, .p9)
  | .p9 => none

/-- P0 to P9 (R176): a delay, a selection, a deselection, or one atomic step of a transfer. -/
theorem frameStep_ok (reg data : Byte) (f : FramePhase) (s t : State) (p : Progress FramePhase Unit)
    (h : frameStep reg data f s = .ok p t) :
    (f = .p0 ∧ s.sel = .none ∧ p = .more .p1 ∧ t = s.traceBus (.gap .recover)) ∨
    (f = .p1 ∧ p = .more (.p2 .x1) ∧ t = s.driveActive .pd) ∨
    (f = .p4 ∧ p = .more .p5 ∧ t = s.driveInactive .pd) ∨
    (f = .p5 ∧ p = .more .p6 ∧ t = s.traceBus (.gap .commit)) ∨
    (f = .p6 ∧ p = .more (.p7 .x1) ∧ t = s.driveActive .pd) ∨
    (f = .p9 ∧ p = .done () ∧ t = s.driveInactive .pd) ∨
    (∃ x b wrap after q, f.transfer reg data = some (x, b, wrap, after) ∧ f = wrap x ∧ xferStep b x s = .ok q t ∧
      p = (match q with
        | .more y => .more (wrap y)
        | .done _ => .more after)) := by
  have key : ∀ (x : XferPhase) (b : Byte) (wrap : XferPhase → FramePhase) (after : FramePhase),
      (xferStep b x s).andThen wrap (fun _ => .more after) = .ok p t →
      ∃ q, xferStep b x s = .ok q t ∧ p = (match q with
        | .more y => .more (wrap y)
        | .done _ => .more after) := by
    intro x b wrap after hx
    rcases Sub.andThen_ok _ _ _ _ _ hx with ⟨q, hq, rfl⟩ | ⟨a, hq, rfl⟩
    · exact ⟨.more q, hq, rfl⟩
    · exact ⟨.done a, hq, rfl⟩
  cases f with
  | p0 =>
    by_cases hs : s.sel = .none
    · simp only [frameStep, hs, if_true] at h; cases h; exact .inl ⟨rfl, hs, rfl, rfl⟩
    · simp only [frameStep, hs, if_false] at h; cases h
  | p1 => cases h; exact .inr (.inl ⟨rfl, rfl, rfl⟩)
  | p4 => cases h; exact .inr (.inr (.inl ⟨rfl, rfl, rfl⟩))
  | p5 => cases h; exact .inr (.inr (.inr (.inl ⟨rfl, rfl, rfl⟩)))
  | p6 => cases h; exact .inr (.inr (.inr (.inr (.inl ⟨rfl, rfl, rfl⟩))))
  | p9 => cases h; exact .inr (.inr (.inr (.inr (.inr (.inl ⟨rfl, rfl, rfl⟩)))))
  | p2 x => obtain ⟨q, hq, hp⟩ := key x _ _ _ h
            exact .inr (.inr (.inr (.inr (.inr (.inr ⟨x, _, _, _, q, rfl, rfl, hq, hp⟩)))))
  | p3 x => obtain ⟨q, hq, hp⟩ := key x _ _ _ h
            exact .inr (.inr (.inr (.inr (.inr (.inr ⟨x, _, _, _, q, rfl, rfl, hq, hp⟩)))))
  | p7 x => obtain ⟨q, hq, hp⟩ := key x _ _ _ h
            exact .inr (.inr (.inr (.inr (.inr (.inr ⟨x, _, _, _, q, rfl, rfl, hq, hp⟩)))))
  | p8 x => obtain ⟨q, hq, hp⟩ := key x _ _ _ h
            exact .inr (.inr (.inr (.inr (.inr (.inr ⟨x, _, _, _, q, rfl, rfl, hq, hp⟩)))))

/-- Q0 to Q3 (R177): the selection, one atomic step of a transfer, or the deselection. -/
theorem potStep_ok (w1 w2 : Byte) (q : PotPhase) (s t : State) (p : Progress PotPhase Unit)
    (h : potStep w1 w2 q s = .ok p t) :
    (q = .q0 ∧ s.sel = .none ∧ p = .more (.q1 .x1) ∧ t = s.driveActive .pot) ∨
    (∃ x r, q = .q1 x ∧ xferStep w1 x s = .ok r t ∧
      p = (match r with
        | .more y => .more (.q1 y)
        | .done _ => .more (.q2 .x1))) ∨
    (∃ x r, q = .q2 x ∧ xferStep w2 x s = .ok r t ∧
      p = (match r with
        | .more y => .more (.q2 y)
        | .done _ => .more .q3)) ∨
    (q = .q3 ∧ p = .done () ∧ t = s.driveInactive .pot) := by
  cases q with
  | q0 =>
    by_cases hs : s.sel = .none
    · simp only [potStep, hs, if_true] at h; cases h; exact .inl ⟨rfl, hs, rfl, rfl⟩
    · simp only [potStep, hs, if_false] at h; cases h
  | q1 x =>
    rcases Sub.andThen_ok _ _ _ _ _ h with ⟨r, hr, rfl⟩ | ⟨a, hr, rfl⟩
    · exact .inr (.inl ⟨x, .more r, rfl, hr, rfl⟩)
    · exact .inr (.inl ⟨x, .done a, rfl, hr, rfl⟩)
  | q2 x =>
    rcases Sub.andThen_ok _ _ _ _ _ h with ⟨r, hr, rfl⟩ | ⟨a, hr, rfl⟩
    · exact .inr (.inr (.inl ⟨x, .more r, rfl, hr, rfl⟩))
    · exact .inr (.inr (.inl ⟨x, .done a, rfl, hr, rfl⟩))
  | q3 => cases h; exact .inr (.inr (.inr ⟨rfl, rfl, rfl⟩))

/-- H0 to H3 (R251): the precondition, or one atomic step of the write of tag, data or line-feed. -/
theorem lineStep_ok (tag data : Byte) (l : LinePhase) (s t : State) (p : Progress LinePhase Bool)
    (h : lineStep tag data l s = .ok p t) :
    (l = .h0 ∧ s.serInited = true ∧ t = s ∧ p = .more (.h1 .v0 false)) ∨
    (∃ c d q, l = .h1 c d ∧ charStep tag c s = .ok q t ∧
      p = (match q with
        | .more c' => .more (.h1 c' d)
        | .done r => .more (.h2 .v0 (d || r == .dropped)))) ∨
    (∃ c d q, l = .h2 c d ∧ charStep data c s = .ok q t ∧
      p = (match q with
        | .more c' => .more (.h2 c' d)
        | .done r => .more (.h3 .v0 (d || r == .dropped)))) ∨
    (∃ c d q, l = .h3 c d ∧ charStep lineFeed c s = .ok q t ∧
      p = (match q with
        | .more c' => .more (.h3 c' d)
        | .done r => .done (d || r == .dropped))) := by
  cases l with
  | h0 =>
    unfold lineStep at h
    cases hi : s.serInited with
    | true => simp only [hi, if_true] at h; cases h; exact .inl ⟨rfl, rfl, rfl, rfl⟩
    | false => simp only [hi] at h; cases h
  | h1 c d =>
    rcases Sub.andThen_ok _ _ _ _ _ h with ⟨q, hq, rfl⟩ | ⟨a, hq, rfl⟩
    · exact .inr (.inl ⟨c, d, .more q, rfl, hq, rfl⟩)
    · exact .inr (.inl ⟨c, d, .done a, rfl, hq, rfl⟩)
  | h2 c d =>
    rcases Sub.andThen_ok _ _ _ _ _ h with ⟨q, hq, rfl⟩ | ⟨a, hq, rfl⟩
    · exact .inr (.inr (.inl ⟨c, d, .more q, rfl, hq, rfl⟩))
    · exact .inr (.inr (.inl ⟨c, d, .done a, rfl, hq, rfl⟩))
  | h3 c d =>
    rcases Sub.andThen_ok _ _ _ _ _ h with ⟨q, hq, rfl⟩ | ⟨a, hq, rfl⟩
    · exact .inr (.inr (.inr ⟨c, d, .more q, rfl, hq, rfl⟩))
    · exact .inr (.inr (.inr ⟨c, d, .done a, rfl, hq, rfl⟩))

/-! ### Handlers, engines, reset -/

/-- Everything an event of `H_RX` can do (R213, R291): pass, or take the byte, echo it if asked, and capture it. -/
theorem rxHandler_cases (s : State) :
    (s.rxEnabled = false ∧ rxHandler s = s) ∨
    (s.rxEnabled = true ∧ s.echo = false ∧
      rxHandler s = (capture s.rxData { s with rxFull := false, gie := false }).returnFromInterrupt) ∨
    (s.rxEnabled = true ∧ s.echo = true ∧
      rxHandler s =
        (capture s.rxData (State.echoChar s.rxData { s with rxFull := false, gie := false })).returnFromInterrupt) := by
  unfold rxHandler
  cases h : s.rxEnabled with
  | false => exact .inl ⟨rfl, rfl⟩
  | true =>
    cases he : s.echo with
    | false =>
      refine .inr (.inl ⟨rfl, rfl, ?_⟩)
      simp [State.runHandler, rxBody, State.takeInterrupt, he]
    | true =>
      refine .inr (.inr ⟨rfl, rfl, ?_⟩)
      simp [State.runHandler, rxBody, State.takeInterrupt, he]

/-- Everything an event of `NVU` can do (R144): pass, store into a cell that exists, or fault on one that does not. -/
theorem nvuStep_cases (worn : Option Byte) (s : State) :
    (s.nvBusy = false ∧ nvuStep worn s = .next s) ∨
    (s.nvBusy = true ∧ addrValid s.params s.nvAddr = true ∧
      nvuStep worn s = .next { s.nvStore s.nvAddr (worn.getD s.nvData) with nvBusy := false }) ∨
    (s.nvBusy = true ∧ addrValid s.params s.nvAddr = false ∧ nvuStep worn s = .fault (.noSuchCell s.nvAddr)) := by
  unfold nvuStep
  cases hb : s.nvBusy with
  | false => exact .inl ⟨rfl, rfl⟩
  | true =>
    cases hv : addrValid s.params s.nvAddr with
    | true => exact .inr (.inl ⟨rfl, rfl, rfl⟩)
    | false => exact .inr (.inr ⟨rfl, rfl, rfl⟩)

/-- A reset is a power-on with the cells kept, but for the cell of a pending write (R320 to R323). -/
theorem resetBlock_cases (s : State) :
    (∃ d, s.nvBusy = true ∧ addrValid s.params s.nvAddr = true ∧
      resetBlock s = State.powerOn s.params (Memory.write s.params s.nvm s.nvAddr.toNat d) s.agenda (s.drawn + 1) s.turn) ∨
    ((s.nvBusy = false ∨ addrValid s.params s.nvAddr = false) ∧
      resetBlock s = State.powerOn s.params s.nvm s.agenda s.drawn s.turn) := by
  unfold resetBlock
  cases hb : s.nvBusy with
  | false => exact .inr ⟨.inl rfl, rfl⟩
  | true =>
    cases hv : addrValid s.params s.nvAddr with
    | true => exact .inl ⟨_, rfl, rfl, rfl⟩
    | false => exact .inr ⟨.inr rfl, rfl⟩

/-! ### The step -/

/-- Everything a step that goes on can be: a phase of a command, or an event that runs none (R10, R11). -/
theorem step_next (s t : State) (h : step s = .next t) :
    (∃ i, commandOf s.event s.takeEvent = .ok (some i) ∧ exec i s.takeEvent = .next t) ∨
    (commandOf s.event s.takeEvent = .ok none ∧ agentStep s.event s.takeEvent = .next t) := by
  unfold step at h
  cases hc : commandOf s.event s.takeEvent with
  | error r => rw [hc] at h; cases h
  | ok o =>
    cases o with
    | none => rw [hc] at h; exact .inr ⟨rfl, h⟩
    | some i => rw [hc] at h; exact .inl ⟨i, rfl, h⟩

/-- A command phase runs for a word presented to the idle sequencer, or for the command under way (R57). -/
theorem commandOf_some (e : Event) (s : State) (i : Instr) (h : commandOf e s = .ok (some i)) :
    (∃ w, e = .command w ∧ s.fg = .idle ∧ decode w = .ok i) ∨ (∃ ph, e = .fg ∧ s.fg = .run i ph) := by
  cases e with
  | command w =>
    cases hf : s.fg with
    | run j ph => simp [commandOf, hf] at h
    | idle =>
      cases hd : decode w with
      | ok j =>
        simp only [commandOf, hf, hd, Except.ok.injEq, Option.some.injEq] at h
        subst h; exact .inl ⟨w, rfl, rfl, hd⟩
      | error d => cases d <;> simp [commandOf, hf, hd] at h
  | fg =>
    cases hf : s.fg with
    | idle => simp [commandOf, hf] at h
    | run j ph =>
      simp only [commandOf, hf, Except.ok.injEq, Option.some.injEq] at h
      subst h; exact .inr ⟨ph, rfl, rfl⟩
  | hDrain => cases h
  | hRx => cases h
  | txu => cases h
  | rxu b => cases h
  | spiu m => cases h
  | nvu worn => cases h
  | reset => cases h

end Sys2Proof.Machine
end

