-- ==== Sys2Proof/Laws/Interleaving.lean ====
section
/-! SUPPORT. The laws of interleavings (R11): what a step of an agent beside the foreground leaves alone, said once for
the agents that share nothing with the store and once for those that share nothing with the bus, and how a run over an
interleaving is taken one own event at a time. -/

namespace Sys2Proof.Machine

/-! ### Runs -/

theorem run_add (m n : Nat) (s : State) :
    Host.Core.run Sys2Proof.core (m + n) s =
      match Host.Core.run Sys2Proof.core m s with
      | .next t => Host.Core.run Sys2Proof.core n t
      | .fault f => .fault f
      | .refused r => .refused r := by
  induction m generalizing s with
  | zero => rw [Nat.zero_add]; rfl
  | succ m ih =>
    rw [Nat.succ_add]
    simp only [Host.Core.run]
    cases h : Sys2Proof.core.step s with
    | next t => exact ih t
    | fault f => rfl
    | refused r => rfl

/-- Two runs in a row. -/
theorem run_trans {m n : Nat} {s t u : State} (h : Host.Core.run Sys2Proof.core m s = .next t)
    (h' : Host.Core.run Sys2Proof.core n t = .next u) : Host.Core.run Sys2Proof.core (m + n) s = .next u := by
  rw [run_add, h]; exact h'

theorem run_one {s t : State} (h : step s = .next t) : Host.Core.run Sys2Proof.core 1 s = .next t := by
  have hc : Sys2Proof.core.step s = .next t := h
  simp only [Host.Core.run, hc]

/-! ### Interleavings -/

theorem Interleaves.nil_iff (other : Event → Bool) (es : List Event) :
    Interleaves [] other es ↔ ∀ e ∈ es, other e = true := by
  simp [Interleaves]

/-- An interleaving reaches its first own event after some events of the others. -/
theorem Interleaves.cons_split {own : List Event} {other : Event → Bool} {e : Event} {es : List Event}
    (h : Interleaves (e :: own) other es) :
    ∃ bs es', es = bs ++ e :: es' ∧ (∀ b ∈ bs, other b = true) ∧ Interleaves own other es' := by
  obtain ⟨bs, es', rfl, hb, -, hr⟩ := List.filter_eq_cons_iff.1 h
  exact ⟨bs, es', rfl, fun b hm => by simpa using hb b hm, hr⟩

/-- A run over an interleaving up to and with its first own event: a property that the others' steps keep holds until
then, and the own step turns it into the next one. -/
theorem Interleaves.run_cons {own : List Event} {other : Event → Bool} {e : Event} {es rest : List Event}
    {P Q : State → Prop} (hes : Interleaves (e :: own) other es)
    (hother : ∀ (u : State) (b : Event) (k : List Event), b ∈ es → other b = true → P u → u.agenda = b :: k →
      ∃ v, step u = .next v ∧ v.agenda = k ∧ P v)
    (hown : ∀ (u : State) (k : List Event), P u → u.agenda = e :: k → ∃ v, step u = .next v ∧ v.agenda = k ∧ Q v)
    (s : State) (hs : P s) (ha : s.agenda = es ++ rest) :
    ∃ (n : Nat) (es' : List Event) (t : State),
      es.length = n + es'.length ∧ es' ⊆ es ∧ Interleaves own other es' ∧
      Host.Core.run Sys2Proof.core n s = .next t ∧ t.agenda = es' ++ rest ∧ Q t := by
  obtain ⟨bs, es', rfl, hb, hr⟩ := hes.cons_split
  have walk : ∀ (cs : List Event) (u : State), (∀ c ∈ cs, c ∈ bs) → P u →
      u.agenda = cs ++ e :: (es' ++ rest) →
      ∃ v, Host.Core.run Sys2Proof.core cs.length u = .next v ∧ v.agenda = e :: (es' ++ rest) ∧ P v := by
    intro cs
    induction cs with
    | nil => intro u _ hu hua; exact ⟨u, rfl, hua, hu⟩
    | cons c cs ih =>
      intro u hc hu hua
      have hcb := hc c (by simp)
      obtain ⟨v, hv, hva, hvp⟩ := hother u c _ (by simp [hcb]) (hb c hcb) hu hua
      obtain ⟨w, hw, hwa, hwp⟩ := ih v (fun d hd => hc d (by simp [hd])) hvp hva
      refine ⟨w, ?_, hwa, hwp⟩
      rw [List.length_cons, Nat.add_comm]
      exact run_trans (run_one hv) hw
  obtain ⟨u, hu, hua, hup⟩ := walk bs s (fun _ h => h) hs (by simpa using ha)
  obtain ⟨v, hv, hva, hvq⟩ := hown u _ hup hua
  exact ⟨bs.length + 1, es', v, by simp; omega, by intro x hx; simp [hx], hr, run_trans hu (run_one hv), hva, hvq⟩

/-- A run over an interleaving up to and with `n` own events of one kind that keep a property, as the others' steps do. -/
theorem Interleaves.run_replicate {own : List Event} {other : Event → Bool} {e : Event} {rest : List Event}
    {P : State → Prop} (n : Nat) {es : List Event} (hes : Interleaves (List.replicate n e ++ own) other es)
    (hother : ∀ (u : State) (b : Event) (k : List Event), b ∈ es → other b = true → P u → u.agenda = b :: k →
      ∃ v, step u = .next v ∧ v.agenda = k ∧ P v)
    (hown : ∀ (u : State) (k : List Event), P u → u.agenda = e :: k → ∃ v, step u = .next v ∧ v.agenda = k ∧ P v)
    (s : State) (hs : P s) (ha : s.agenda = es ++ rest) :
    ∃ (m : Nat) (es' : List Event) (t : State),
      es.length = m + es'.length ∧ es' ⊆ es ∧ Interleaves own other es' ∧
      Host.Core.run Sys2Proof.core m s = .next t ∧ t.agenda = es' ++ rest ∧ P t := by
  induction n generalizing es s with
  | zero => exact ⟨0, es, s, (Nat.zero_add _).symm, fun _ h => h, by simpa using hes, rfl, ha, hs⟩
  | succ n ih =>
    rw [List.replicate_succ, List.cons_append] at hes
    obtain ⟨m, es', t, hl, hsub, hr, hrun, hta, ht⟩ := hes.run_cons hother hown s hs ha
    obtain ⟨m', es'', t', hl', hsub', hr', hrun', hta', ht'⟩ :=
      ih hr (fun u b k hb => hother u b k (hsub hb)) t ht hta
    exact ⟨m + m', es'', t', by omega, fun _ h => hsub (hsub' h), hr', run_trans hrun hrun', hta', ht'⟩

/-! ### What the others leave alone -/

/-- The step of an event that is taken from the agenda and runs no command. -/
theorem step_agent (u : State) (b : Event) (k : List Event) (ha : u.agenda = b :: k)
    (hc : commandOf b { u with agenda := k } = .ok none) : step u = agentStep b { u with agenda := k } := by
  have h1 : u.event = b := by unfold State.event; rw [ha]
  have h2 : u.takeEvent = { u with agenda := k } := by unfold State.takeEvent; rw [ha]
  unfold step
  rw [h1, h2, hc]

theorem rxHandler_frame (s : State) :
    ∃ (ob ib : Ring) (d o f : Bool), s.inBuf.count ≤ ib.count ∧
      rxHandler s = { s with outBuf := ob, inBuf := ib, drainIe := d, overrun := o, rxFull := f } := by
  have hcap : ∀ (c : Byte) (u : State), ∃ ib o, u.inBuf.count ≤ ib.count ∧ capture c u = { u with inBuf := ib, overrun := o } := by
    intro c u
    rcases capture_cases c u with ⟨-, h⟩ | ⟨-, h⟩ <;> rw [h]
    · exact ⟨_, u.overrun, Nat.le_succ _, rfl⟩
    · exact ⟨u.inBuf, _, Nat.le_refl _, rfl⟩
  have hput : ∀ (c : Byte) (u : State), u.gie = false →
      ∃ ob d, u.putOrDrop c = { u with outBuf := ob, drainIe := d } := by
    intro c u hu
    rw [State.putOrDrop_eq]
    split
    · exact ⟨u.outBuf.enqueue u.params.outCap c, true, by simp only [State.enqueued, hu]⟩
    · exact ⟨u.outBuf, u.drainIe, rfl⟩
  have hecho : ∀ (c : Byte) (u : State), u.gie = false →
      ∃ ob d, u.echoChar c = { u with outBuf := ob, drainIe := d } := by
    intro c u hu
    unfold State.echoChar
    split
    · obtain ⟨ob, d, h⟩ := hput carriageReturn u hu
      rw [h]
      obtain ⟨ob', d', h'⟩ := hput c { u with outBuf := ob, drainIe := d } hu
      exact ⟨ob', d', h'⟩
    · exact hput c u hu
  have hgie : s.rxEnabled = true → s.gie = true := by
    unfold State.rxEnabled; cases s.gie <;> simp
  rcases rxHandler_cases s with ⟨-, h⟩ | ⟨he, -, h⟩ | ⟨he, -, h⟩
  · exact ⟨s.outBuf, s.inBuf, s.drainIe, s.overrun, s.rxFull, Nat.le_refl _, h⟩
  · obtain ⟨ib, o, hle, hc⟩ := hcap s.rxData { s with rxFull := false, gie := false }
    refine ⟨s.outBuf, ib, s.drainIe, o, false, hle, ?_⟩
    rw [h, hc]; simp only [State.returnFromInterrupt, hgie he]
  · obtain ⟨ob, d, hq⟩ := hecho s.rxData { s with rxFull := false, gie := false } rfl
    obtain ⟨ib, o, hle, hc⟩ := hcap s.rxData { s with rxFull := false, gie := false, outBuf := ob, drainIe := d }
    refine ⟨ob, ib, d, o, false, hle, ?_⟩
    rw [h, hq, hc]; simp only [State.returnFromInterrupt, hgie he]

theorem drainHandler_frame (s : State) :
    ∃ (ob : Ring) (d f : Bool) (x : Byte),
      drainHandler s = { s with outBuf := ob, drainIe := d, txFull := f, txData := x } := by
  have hgie : s.drainEnabled = true → s.gie = true := by
    unfold State.drainEnabled; cases s.gie <;> simp
  rcases drainHandler_cases s with ⟨-, h⟩ | ⟨he, -, h⟩ | ⟨he, -, h⟩
  · exact ⟨s.outBuf, s.drainIe, s.txFull, s.txData, h⟩
  · exact ⟨s.outBuf, false, s.txFull, s.txData, by rw [h]; simp only [hgie he]⟩
  · exact ⟨s.outBuf.dequeue, s.drainIe, true, s.outBuf.front s.params.outCap, by rw [h]; simp only [hgie he]⟩

/-- The serial part of the state: what the handlers, the transmitter and the receiver write. -/
structure SerialPart where
  outBuf : Ring
  inBuf : Ring
  overrun : Bool
  txData : Byte
  txFull : Bool
  rxData : Byte
  rxFull : Bool
  hwRxLost : Bool
  txLine : List Byte
  rxLine : List Byte
  drainIe : Bool

/-- The state with another serial part. -/
def State.withSerial (s : State) (p : SerialPart) : State :=
  { s with
    outBuf := p.outBuf, inBuf := p.inBuf, overrun := p.overrun, txData := p.txData, txFull := p.txFull,
    rxData := p.rxData, rxFull := p.rxFull, hwRxLost := p.hwRxLost, txLine := p.txLine, rxLine := p.rxLine,
    drainIe := p.drainIe }

/-- The serial part of a state. -/
def State.serial (s : State) : SerialPart :=
  ⟨s.outBuf, s.inBuf, s.overrun, s.txData, s.txFull, s.rxData, s.rxFull, s.hwRxLost, s.txLine, s.rxLine, s.drainIe⟩

/-- A step of a handler, of the transmitter or of the receiver changes the serial part only (`GIE` is as it was). -/
theorem step_serial (u : State) (b : Event) (k : List Event) (ha : u.agenda = b :: k)
    (hb : isBackground b = true) (ho : isOffBus b = true) :
    ∃ p, step u = .next ({ u with agenda := k }.withSerial p) := by
  have hc : commandOf b { u with agenda := k } = .ok none := by
    cases b <;> first | rfl | cases hb
  rw [step_agent u b k ha hc]
  cases b with
  | hDrain =>
    obtain ⟨ob, d, f, x, h⟩ := drainHandler_frame { u with agenda := k }
    exact ⟨{ u.serial with outBuf := ob, drainIe := d, txFull := f, txData := x }, by simp only [agentStep, h]; rfl⟩
  | hRx =>
    obtain ⟨ob, ib, d, o, f, -, h⟩ := rxHandler_frame { u with agenda := k }
    exact ⟨{ u.serial with outBuf := ob, inBuf := ib, drainIe := d, overrun := o, rxFull := f },
      by simp only [agentStep, h]; rfl⟩
  | txu =>
    by_cases h : u.txFull = true
    · exact ⟨{ u.serial with txLine := u.txLine ++ [u.txData], txFull := false },
        by simp only [agentStep, txuStep, h, if_true]; rfl⟩
    · exact ⟨u.serial, by simp only [agentStep, txuStep]; rw [if_neg h]; rfl⟩
  | rxu c =>
    by_cases h : u.serInited = true
    · by_cases hf : u.rxFull = true
      · exact ⟨{ u.serial with rxLine := u.rxLine ++ [c], hwRxLost := true },
          by simp only [agentStep, rxuStep]; rw [if_pos h, if_pos hf]; rfl⟩
      · exact ⟨{ u.serial with rxLine := u.rxLine ++ [c], rxData := c, rxFull := true },
          by simp only [agentStep, rxuStep]; rw [if_pos h, if_neg hf]; rfl⟩
    · exact ⟨u.serial, by simp only [agentStep, rxuStep]; rw [if_neg h]; rfl⟩
  | command w => cases hb
  | fg => cases hb
  | spiu m => cases ho
  | nvu w => cases hb
  | reset => cases hb

/-- A background step changes the serial part and the shifter's part only: nothing of the store, of the sequencer, of the
configuration and of the interrupt enables (R150). -/
theorem step_background (u : State) (b : Event) (k : List Event) (ha : u.agenda = b :: k) (hb : isBackground b = true) :
    ∃ (p : SerialPart) (x : Byte) (y d : Bool) (tr : List BusEvent),
      step u = .next { { u with agenda := k }.withSerial p with
        spiData := x, spiBusy := y, spiDone := d, busTrace := tr } := by
  by_cases ho : isOffBus b = true
  · obtain ⟨p, h⟩ := step_serial u b k ha hb ho
    exact ⟨p, u.spiData, u.spiBusy, u.spiDone, u.busTrace, h⟩
  · cases b with
    | spiu m =>
      rw [step_agent u _ k ha rfl]
      by_cases h : u.spiBusy = true
      · exact ⟨u.serial, m, false, true, u.busTrace ++ [.xfer u.sel u.spiData m],
          by simp only [agentStep, spiuStep, h, if_true]; rfl⟩
      · exact ⟨u.serial, u.spiData, u.spiBusy, u.spiDone, u.busTrace, by
        simp only [agentStep, spiuStep]; rw [if_neg h]; rfl⟩
    | command w => cases hb
    | fg => cases hb
    | nvu w => cases hb
    | reset => cases hb
    | hDrain => cases ho rfl
    | hRx => cases ho rfl
    | txu => cases ho rfl
    | rxu c => cases ho rfl

/-- A step of an agent off the bus changes the serial part, or completes a pending write: nothing of the bus, of the
sequencer, of the configuration and of `GIE` (R170). A pending write is to a cell that exists, before and after. -/
theorem step_offBus (u : State) (b : Event) (k : List Event) (ha : u.agenda = b :: k) (ho : isOffBus b = true)
    (hw : u.nvBusy = true → addrValid u.params u.nvAddr = true) :
    ∃ (p : SerialPart) (m : Memory) (y : Bool), (y = true → u.nvBusy = true) ∧
      step u = .next { { u with agenda := k }.withSerial p with nvm := m, nvBusy := y } := by
  by_cases hb : isBackground b = true
  · obtain ⟨p, h⟩ := step_serial u b k ha hb ho
    exact ⟨p, u.nvm, u.nvBusy, fun h => h, h⟩
  · cases b with
    | nvu w =>
      rw [step_agent u _ k ha rfl]
      rcases nvuStep_cases w { u with agenda := k } with ⟨h0, h⟩ | ⟨h0, -, h⟩ | ⟨h0, hv, h⟩
      · exact ⟨u.serial, u.nvm, u.nvBusy, fun h => h, by simp only [agentStep, h]; rfl⟩
      · exact ⟨u.serial, Memory.write u.params u.nvm u.nvAddr.toNat (w.getD u.nvData), false, fun h => (by cases h),
          by simp only [agentStep, h]; rfl⟩
      · have hn : addrValid u.params u.nvAddr = false := hv
        rw [hw h0] at hn; cases hn
    | command w => cases ho
    | fg => cases ho
    | spiu m => cases ho
    | reset => cases ho
    | hDrain => cases hb rfl
    | hRx => cases hb rfl
    | txu => cases hb rfl
    | rxu c => cases hb rfl

end Sys2Proof.Machine
end

