-- ==== Sys2Proof/Laws/Fairness.lean ====
section
/-! SUPPORT. The laws of fairness (R14): every step takes exactly one event, from the agenda or from the fair order; an
agent that is not enabled passes; and the rule that turns weak fairness into progress. -/

namespace Sys2Proof.Machine

/-! ### Which event comes next -/

/-- Two states have the same events before them. -/
structure State.SameEvents (s t : State) : Prop where
  agenda : t.agenda = s.agenda
  turn : t.turn = s.turn
  fgDue : t.fgDue = s.fgDue

theorem State.SameEvents.trans {s t u : State} (h : s.SameEvents t) (h' : t.SameEvents u) : s.SameEvents u :=
  ⟨h'.agenda.trans h.agenda, h'.turn.trans h.turn, h'.fgDue.trans h.fgDue⟩

/-- Where an inner sequence goes on, it leaves the events before it. -/
def Sub.KeepsEvents {π α : Type} (x : Sub π α) (s : State) : Prop :=
  ∀ p t, x = .ok p t → s.SameEvents t

theorem Sub.KeepsEvents.ok {π α : Type} {p : Progress π α} {s t : State} (h : s.SameEvents t) :
    (Sub.ok p t).KeepsEvents s := by
  intro _ _ he; cases he; exact h

theorem Sub.KeepsEvents.refuse {π α : Type} {r : Refusal} {s : State} : (Sub.refuse r : Sub π α).KeepsEvents s :=
  fun _ _ he => nomatch he

theorem Sub.KeepsEvents.fault {π α : Type} {f : Fault} {s : State} : (Sub.fault f : Sub π α).KeepsEvents s :=
  fun _ _ he => nomatch he

theorem Sub.KeepsEvents.ite {π α : Type} {c : Prop} [Decidable c] {x y : Sub π α} {s : State} (h : x.KeepsEvents s)
    (h' : y.KeepsEvents s) : (if c then x else y).KeepsEvents s := by
  by_cases hc : c
  · rw [if_pos hc]; exact h
  · rw [if_neg hc]; exact h'

theorem Sub.KeepsEvents.andThen {π α ρ β : Type} {x : Sub π α} {s : State} (h : x.KeepsEvents s) (wrap : π → ρ)
    (follow : α → Progress ρ β) : (x.andThen wrap follow).KeepsEvents s := by
  intro p t ht
  rcases Sub.andThen_ok _ _ _ _ _ ht with ⟨q, hq, -⟩ | ⟨a, hq, -⟩ <;> exact h _ _ hq

theorem Sub.KeepsEvents.run {π α : Type} {x : Sub π α} {s : State} (h : x.KeepsEvents s) (i : Instr) (wrap : π → Phase)
    (fin : α → State → State) (hfin : ∀ (a : α) (u : State), u.SameEvents (fin a u)) (t : State)
    (ht : x.run i wrap fin = .next t) : s.SameEvents t := by
  rcases Sub.run_next _ _ _ _ _ ht with ⟨q, u, hu, rfl⟩ | ⟨a, u, hu, rfl⟩
  · exact (h _ _ hu).trans ⟨rfl, rfl, rfl⟩
  · exact (h _ _ hu).trans (hfin a u)

theorem readStep_events (addr : Addr) (r : ReadPhase) (s : State) : (readStep addr r s).KeepsEvents s := by
  cases r with
  | nr0 => exact .ok ⟨rfl, rfl, rfl⟩
  | nr1 =>
    refine .ite (.ok ⟨rfl, rfl, rfl⟩) ?_
    cases s.nvRead addr
    · exact .fault
    · exact .ok ⟨rfl, rfl, rfl⟩

theorem writeStep_events (addr : Addr) (v : Byte) (w : WritePhase) (s : State) :
    (writeStep addr v w s).KeepsEvents s := by
  cases w with
  | w0 => exact .ok ⟨rfl, rfl, rfl⟩
  | w1 => exact .ite (.ok ⟨rfl, rfl, rfl⟩) (.ok ⟨rfl, rfl, rfl⟩)

theorem updateStep_events (addr : Addr) (v : Byte) (u : UpdatePhase) (s : State) :
    (updateStep addr v u s).KeepsEvents s := by
  cases u with
  | u0 r => exact (readStep_events addr r s).andThen _ _
  | u1 cur => exact .ok ⟨rfl, rfl, rfl⟩
  | u2 w => exact (writeStep_events addr v w s).andThen _ _
  | u3 r => exact (readStep_events addr r s).andThen _ _
  | u4 rb => exact .ok ⟨rfl, rfl, rfl⟩

theorem xferStep_events (b : Byte) (x : XferPhase) (s : State) : (xferStep b x s).KeepsEvents s := by
  cases x with
  | x1 => exact .ok ⟨rfl, rfl, rfl⟩
  | x2 => exact .ite (.ok ⟨rfl, rfl, rfl⟩) (.ok ⟨rfl, rfl, rfl⟩)

theorem State.traceBus_events (s : State) (e : BusEvent) : s.SameEvents (s.traceBus e) := ⟨rfl, rfl, rfl⟩

theorem State.driveActive_events (s : State) (p : Periph) : s.SameEvents (s.driveActive p) := ⟨rfl, rfl, rfl⟩

theorem State.driveInactive_events (s : State) (p : Periph) : s.SameEvents (s.driveInactive p) := ⟨rfl, rfl, rfl⟩

theorem frameStep_events (reg data : Byte) (f : FramePhase) (s : State) : (frameStep reg data f s).KeepsEvents s := by
  cases f with
  | p0 => exact .ite (.ok (s.traceBus_events _)) .refuse
  | p1 => exact .ok (s.driveActive_events .pd)
  | p2 x => exact (xferStep_events reg x s).andThen _ _
  | p3 x => exact (xferStep_events data x s).andThen _ _
  | p4 => exact .ok (s.driveInactive_events .pd)
  | p5 => exact .ok (s.traceBus_events _)
  | p6 => exact .ok (s.driveActive_events .pd)
  | p7 x => exact (xferStep_events commitMarker x s).andThen _ _
  | p8 x => exact (xferStep_events commitData x s).andThen _ _
  | p9 => exact .ok (s.driveInactive_events .pd)

theorem potStep_events (w1 w2 : Byte) (q : PotPhase) (s : State) : (potStep w1 w2 q s).KeepsEvents s := by
  cases q with
  | q0 => exact .ite (.ok (s.driveActive_events .pot)) .refuse
  | q1 x => exact (xferStep_events w1 x s).andThen _ _
  | q2 x => exact (xferStep_events w2 x s).andThen _ _
  | q3 => exact .ok (s.driveInactive_events .pot)

/-- An enqueue that is enabled leaves the events before it. -/
theorem State.putByte_events (s t : State) (b : Byte) (ie : Bool) (r : PutResult) (h : s.putByte b ie = some (r, t)) :
    s.SameEvents t := by
  rcases State.putByte_some s t b ie r h with ⟨-, -, rfl⟩ | ⟨-, -, -, rfl⟩
  · exact ⟨rfl, rfl, rfl⟩
  · exact ⟨rfl, rfl, rfl⟩

theorem charStep_events (c : Byte) (q : CharPhase) (s : State) : (charStep c q s).KeepsEvents s := by
  cases q with
  | v0 => exact .ite (.ok ⟨rfl, rfl, rfl⟩) .refuse
  | v1 =>
    unfold charStep
    cases hp : s.putByte carriageReturn s.gie with
    | none => exact .ok ⟨rfl, rfl, rfl⟩
    | some rt => exact .ok (s.putByte_events _ _ _ _ hp)
  | v2 =>
    unfold charStep
    cases hp : s.putByte c s.gie with
    | none => exact .ok ⟨rfl, rfl, rfl⟩
    | some rt => exact .ok (s.putByte_events _ _ _ _ hp)

theorem lineStep_events (tag data : Byte) (l : LinePhase) (s : State) : (lineStep tag data l s).KeepsEvents s := by
  cases l with
  | h0 => exact .ite (.ok ⟨rfl, rfl, rfl⟩) .refuse
  | h1 c d => exact (charStep_events tag c s).andThen _ _
  | h2 c d => exact (charStep_events data c s).andThen _ _
  | h3 c d => exact (charStep_events lineFeed c s).andThen _ _

/-- A phase of a command leaves the events before it. -/
theorem exec_events (i : Instr) (s t : State) (h : exec i s = .next t) : s.SameEvents t := by
  have fg : ∀ (j : Instr) (first : Phase) (body : Phase → Result),
      (∀ ph v, body ph = .next v → s.SameEvents v) → s.foreground j first body = .next t → s.SameEvents t := by
    intro j first body hb hf
    rcases State.foreground_cases j first body s with ⟨-, e⟩ | ⟨ph, -, e⟩ | ⟨k, ph, -, -, e⟩ <;> rw [e] at hf
    · exact hb _ _ hf
    · exact hb _ _ hf
    · cases hf
  cases i <;> simp only [exec, execNvRead, execNvWrite, execNvUpdate, execSpiXfer, execCsSelect, execCsDeselect,
    execPdRegwrite, execPotWrite, execSerInit, execSerWrite, execSerRead, execSerAvail, execSerOverrun, execFacUpdatePd,
    execFacNotify, execFacUpdate, execFacSetWiper, execIrqSuppress, execIrqRestore] at h <;>
    refine fg _ _ _ ?_ h <;> clear h fg <;> intro ph v hv <;> cases ph <;> first
    | cases hv; done
    | exact (readStep_events _ _ s).run _ _ _ (by intro a u; cases a <;> exact ⟨rfl, rfl, rfl⟩) _ hv
    | (refine (writeStep_events _ _ _ s).run _ _ _ ?_ _ hv; intro a u; exact ⟨rfl, rfl, rfl⟩)
    | (refine (updateStep_events _ _ _ s).run _ _ _ ?_ _ hv; intro a u; exact ⟨rfl, rfl, rfl⟩)
    | (refine (xferStep_events _ _ s).run _ _ _ ?_ _ hv; intro a u; exact ⟨rfl, rfl, rfl⟩)
    | (refine (frameStep_events _ _ _ s).run _ _ _ ?_ _ hv; intro a u; exact ⟨rfl, rfl, rfl⟩)
    | (refine (potStep_events _ _ _ s).run _ _ _ ?_ _ hv; intro a u; exact ⟨rfl, rfl, rfl⟩)
    | (refine (charStep_events _ _ s).run _ _ _ ?_ _ hv; intro a u; exact ⟨rfl, rfl, rfl⟩)
    | (refine (lineStep_events _ _ _ s).run _ _ _ ?_ _ hv; intro a u; exact ⟨rfl, rfl, rfl⟩)
    | (dsimp only at hv; repeat' split at hv) <;> cases hv <;> exact ⟨rfl, rfl, rfl⟩

/-- A step that runs no phase leaves the events before it; a reset takes back what `FG` is due. -/
theorem agentStep_events (e : Event) (s t : State) (h : agentStep e s = .next t) :
    s.SameEvents t ∨ (e = .reset ∧ t.fg = .idle ∧ t.agenda = s.agenda ∧ t.turn = s.turn ∧ t.fgDue = false) := by
  cases e with
  | reset =>
    cases h
    rcases resetBlock_cases s with ⟨d, -, -, hd⟩ | ⟨-, hd⟩ <;> rw [hd] <;> exact .inr ⟨rfl, rfl, rfl, rfl, rfl⟩
  | command w => cases h; exact .inl ⟨rfl, rfl, rfl⟩
  | fg => cases h; exact .inl ⟨rfl, rfl, rfl⟩
  | hDrain =>
    obtain ⟨ob, d, f, x, hd⟩ := drainHandler_frame s
    cases h; rw [hd]; exact .inl ⟨rfl, rfl, rfl⟩
  | hRx =>
    obtain ⟨ob, ib, d, o, f, -, hx⟩ := rxHandler_frame s
    cases h; rw [hx]; exact .inl ⟨rfl, rfl, rfl⟩
  | txu => cases h; unfold txuStep; split <;> exact .inl ⟨rfl, rfl, rfl⟩
  | rxu b => cases h; unfold rxuStep; split <;> (try split) <;> exact .inl ⟨rfl, rfl, rfl⟩
  | spiu m => cases h; unfold spiuStep; split <;> exact .inl ⟨rfl, rfl, rfl⟩
  | nvu w =>
    left
    rcases nvuStep_cases w s with ⟨-, hn⟩ | ⟨-, -, hn⟩ | ⟨-, -, hn⟩ <;> rw [agentStep, hn] at h
    · cases h; exact ⟨rfl, rfl, rfl⟩
    · cases h; exact ⟨rfl, rfl, rfl⟩
    · cases h

/-- A step takes exactly one event; a reset takes back what `FG` is due. -/
theorem step_events (s t : State) (h : step s = .next t) :
    s.takeEvent.SameEvents t ∨
      (t.fg = .idle ∧ t.agenda = s.takeEvent.agenda ∧ t.turn = s.takeEvent.turn ∧ t.fgDue = false) := by
  rcases step_next s t h with ⟨i, -, h⟩ | ⟨-, h⟩
  · exact .inl (exec_events i _ _ h)
  · exact (agentStep_events _ _ _ h).imp id And.right

/-- The events before the state a step leads to, but for what `FG` is due. -/
theorem step_agenda_turn (s t : State) (h : step s = .next t) :
    t.agenda = s.takeEvent.agenda ∧ t.turn = s.takeEvent.turn := by
  rcases step_events s t h with h | ⟨-, ha, ht, -⟩
  · exact ⟨h.agenda, h.turn⟩
  · exact ⟨ha, ht⟩

/-! ### An agent that is not enabled passes -/

theorem State.goto_self (s : State) (i : Instr) (ph : Phase) (h : s.fg = .run i ph) : s.goto i ph = s := by
  unfold State.goto; rw [← h]

/-- A phase whose condition does not hold awaits the store, a transfer, room or a byte. -/
theorem State.awaitHolds_false (s : State) (ph : Phase) (h : s.awaitHolds ph = false) :
    (ph.awaitsStore = true ∧ s.nvBusy = true) ∨ (ph.awaitsTransfer = true ∧ s.spiDone = false) ∨
    (ph.awaitsRoom = true ∧ s.params.outCap ≤ s.outBuf.count ∧ s.gie = true) ∨ (ph = .rd1 ∧ s.inBuf.count = 0) := by
  unfold State.awaitHolds at h
  split at h
  · next hs => exact .inl ⟨hs, by simpa using h⟩
  · split at h
    · next ht => exact .inr (.inl ⟨ht, h⟩)
    · split at h
      · next hr => exact .inr (.inr (.inl ⟨hr, by simp at h; omega, by simp at h; exact h.1⟩))
      · split at h
        · next hp => exact .inr (.inr (.inr ⟨hp, by simpa [State.inAvail] using h⟩))
        · cases h

theorem xferStep_waits (b : Byte) (s : State) (h : s.spiDone = false) : xferStep b .x2 s = .ok (.more .x2) s := by
  simp [xferStep, h]

theorem charStep_waits (c : Byte) (q : CharPhase) (s : State) (hq : q.awaitsRoom = true)
    (hc : s.params.outCap ≤ s.outBuf.count) (hg : s.gie = true) : charStep c q s = .ok (.more q) s := by
  cases q with
  | v0 => cases hq
  | v1 => simp only [charStep, hg, State.putByte_waits s carriageReturn hc]
  | v2 => simp only [charStep, hg, State.putByte_waits s c hc]

theorem frameStep_waits (reg data : Byte) (f : FramePhase) (s : State) (hf : (Phase.pd f).awaitsTransfer = true)
    (h : s.spiDone = false) : frameStep reg data f s = .ok (.more f) s := by
  rcases f with _ | _ | x | x | _ | _ | _ | x | x | _ <;> try first | (cases hf) | cases x <;> first
    | (cases hf; done)
    | simp only [frameStep, xferStep_waits _ s h, Sub.andThen]

theorem potStep_waits (w1 w2 : Byte) (q : PotPhase) (s : State) (hq : (Phase.pot q).awaitsTransfer = true)
    (h : s.spiDone = false) : potStep w1 w2 q s = .ok (.more q) s := by
  rcases q with _ | x | x | _ <;> try first | (cases hq) | cases x <;> first
    | (cases hq; done)
    | simp only [potStep, xferStep_waits _ s h, Sub.andThen]

theorem lineStep_waits (tag data : Byte) (l : LinePhase) (s : State) (hl : (Phase.line l).awaitsRoom = true)
    (hc : s.params.outCap ≤ s.outBuf.count) (hg : s.gie = true) : lineStep tag data l s = .ok (.more l) s := by
  cases l with
  | h0 => cases hl
  | h1 q d => simp only [lineStep, charStep_waits tag q s hl hc hg, Sub.andThen]
  | h2 q d => simp only [lineStep, charStep_waits data q s hl hc hg, Sub.andThen]
  | h3 q d => simp only [lineStep, charStep_waits lineFeed q s hl hc hg, Sub.andThen]

theorem updateStep_waits (addr : Addr) (v : Byte) (u : UpdatePhase) (s : State)
    (hu : (Phase.nvUpdate u).awaitsStore = true) (h : s.nvBusy = true) : updateStep addr v u s = .ok (.more u) s := by
  rcases u with r | _ | w | r | _ <;> try first | (cases hu) | (first | cases r | cases w) <;> first
    | (cases hu; done)
    | simp [updateStep, readStep, writeStep, h, Sub.andThen]

/-- A phase that awaits a condition which does not hold leaves the state as it is (R8; log 2). -/
theorem exec_waits (i : Instr) (ph : Phase) (s : State) (hf : s.fg = .run i ph) (hu : s.underWay i ph)
    (h : s.awaitHolds ph = false) : exec i s = .next s := by
  have g := State.goto_self s i ph hf
  cases i <;> simp only [exec, execNvRead, execNvWrite, execNvUpdate, execSpiXfer, execCsSelect, execCsDeselect,
    execPdRegwrite, execPotWrite, execSerInit, execSerWrite, execSerRead, execSerAvail, execSerOverrun, execFacUpdatePd,
    execFacNotify, execFacUpdate, execFacSetWiper, execIrqSuppress, execIrqRestore] <;>
    rw [State.foreground_run _ _ _ _ _ hf] <;> cases ph <;> (try cases hu; done) <;>
    rcases State.awaitHolds_false _ _ h with ⟨ha, hb⟩ | ⟨ha, hb⟩ | ⟨ha, hc, hg⟩ | ⟨ha, hb⟩ <;> (try cases ha; done)
  all_goals dsimp only
  case nvRead.nvRead.inl r => cases r <;> first | (cases ha; done) | simp only [readStep, hb, if_true, Sub.run, g]
  case nvWrite.nvWrite.inl w => cases w <;> first | (cases ha; done) | simp only [writeStep, hb, if_true, Sub.run, g]
  case nvUpdate.nvUpdate.inl u => rw [updateStep_waits _ _ _ _ ha hb]; simp only [Sub.run, g]
  case spiXfer.xfer.inr.inl x => cases x <;> first | (cases ha; done) | simp only [xferStep_waits _ _ hb, Sub.run, g]
  case pdRegwrite.pd.inr.inl f => rw [frameStep_waits _ _ _ _ ha hb]; simp only [Sub.run, g]
  case potWrite.pot.inr.inl q => rw [potStep_waits _ _ _ _ ha hb]; simp only [Sub.run, g]
  case serWrite.char.inr.inr.inl c => rw [charStep_waits _ _ _ ha hc hg]; simp only [Sub.run, g]
  case serRead.rd1.inr.inr.inr => simp only [hb, if_true, g]
  case facUpdatePd.pd.inr.inl f => rw [frameStep_waits _ _ _ _ ha hb]; simp only [Sub.run, g]
  case facNotify.line.inr.inr.inl l => rw [lineStep_waits _ _ _ _ ha hc hg]; simp only [Sub.run, g]
  case facUpdate.pd.inr.inl f => rw [frameStep_waits _ _ _ _ ha hb]; simp only [Sub.run, g]
  case facUpdate.line.inr.inr.inl l => rw [lineStep_waits _ _ _ _ ha hc hg]; simp only [Sub.run, g]
  case facSetWiper.pot.inr.inl q => rw [potStep_waits _ _ _ _ ha hb]; simp only [Sub.run, g]

/-- An agent that is not enabled passes: its event changes nothing but that it is taken (log 2). -/
theorem step_not_enabled (u : State) (a : Agent) (ha : u.event.agent = some a) (hu : u.SequencerOk)
    (h : u.enables a = false) : step u = .next u.takeEvent := by
  unfold step
  cases he : u.event with
  | command w => rw [he] at ha; cases ha
  | reset => rw [he] at ha; cases ha
  | fg =>
    rw [he] at ha; cases ha
    cases hf : u.fg with
    | idle => simp only [commandOf, State.takeEvent_fg, hf, agentStep]
    | run i ph =>
      simp only [commandOf, State.takeEvent_fg, hf]
      simp only [State.enables, hf] at h
      have hw : u.underWay i ph := by unfold State.SequencerOk at hu; rw [hf] at hu; exact hu
      refine exec_waits i ph _ (by simp [hf]) ?_ ?_
      · unfold State.takeEvent; split <;> [exact hw; (split <;> exact hw)]
      · simpa [State.awaitHolds, State.inAvail] using h
  | hDrain =>
    rw [he] at ha; cases ha
    simp only [commandOf, agentStep, drainHandler]
    rw [if_neg]; simpa [State.drainEnabled, State.drainPending, State.enables] using h
  | hRx =>
    rw [he] at ha; cases ha
    simp only [commandOf, agentStep, rxHandler]
    rw [if_neg]; simpa [State.rxEnabled, State.rxPending, State.enables] using h
  | txu => rw [he] at ha; cases ha; simp only [State.enables] at h; simp [commandOf, agentStep, txuStep, h]
  | rxu b => rw [he] at ha; cases ha; simp only [State.enables] at h; simp [commandOf, agentStep, rxuStep, h]
  | spiu m => rw [he] at ha; cases ha; simp only [State.enables] at h; simp [commandOf, agentStep, spiuStep, h]
  | nvu w => rw [he] at ha; cases ha; simp only [State.enables] at h; simp [commandOf, agentStep, nvuStep, h]

/-! ### Runs that may stop -/

theorem State.after_zero {s : State} {P : State → Prop} (h : P s) : s.after 0 P := h

/-- What holds after `m` and `n` steps holds after `n` steps from the state `m` steps on. -/
theorem State.after_add (s : State) (m n : Nat) (P : State → Prop) :
    s.after (m + n) P ↔ s.after m fun t => t.after n P := by
  unfold State.after
  rw [run_add]
  cases Host.Core.run Sys2Proof.core m s <;> rfl

theorem State.after_one (s : State) (P : State → Prop) :
    s.after 1 P ↔ ∀ t, step s = .next t → P t := by
  unfold State.after
  simp only [Host.Core.run]
  rw [show Sys2Proof.core.step s = step s from rfl]
  cases step s <;> simp

theorem State.after_mono {s : State} {n : Nat} {P Q : State → Prop} (h : s.after n P) (hPQ : ∀ t, P t → Q t) :
    s.after n Q := by
  unfold State.after at h ⊢
  cases hr : Host.Core.run Sys2Proof.core n s with
  | next t => rw [hr] at h; exact hPQ t h
  | fault f => trivial
  | refused r => trivial

theorem State.after_and {s : State} {n : Nat} {P Q : State → Prop} (h : s.after n P) (h' : s.after n Q) :
    s.after n fun t => P t ∧ Q t := by
  unfold State.after at h h' ⊢
  cases hr : Host.Core.run Sys2Proof.core n s with
  | next t => rw [hr] at h h'; exact ⟨h, h'⟩
  | fault f => trivial
  | refused r => trivial

theorem State.Eventually.now {P : State → Prop} {s : State} (h : P s) : s.Eventually P := ⟨0, h⟩

theorem State.Eventually.mono {P Q : State → Prop} {s : State} (h : s.Eventually P) (hPQ : ∀ t, P t → Q t) :
    s.Eventually Q :=
  h.imp fun _ h => State.after_mono h hPQ

/-- What a state some steps on reaches, the run reaches. -/
theorem State.Eventually.later {P : State → Prop} {s : State} (n : Nat) (h : s.after n fun t => t.Eventually P) :
    s.Eventually P := by
  unfold State.after at h
  cases hr : Host.Core.run Sys2Proof.core n s with
  | next t =>
    rw [hr] at h
    obtain ⟨m, hm⟩ := h
    refine ⟨n + m, (State.after_add s n m P).2 ?_⟩
    unfold State.after
    rw [hr]; exact hm
  | fault f => exact ⟨n, by unfold State.after; rw [hr]; trivial⟩
  | refused r => exact ⟨n, by unfold State.after; rw [hr]; trivial⟩

/-- A fair run stays fair. -/
theorem State.WeaklyFair.later {a : Agent} {s : State} (h : s.WeaklyFair a) (n : Nat) :
    s.after n fun t => t.WeaklyFair a := by
  unfold State.after
  cases hr : Host.Core.run Sys2Proof.core n s with
  | fault f => trivial
  | refused r => trivial
  | next t =>
    intro k
    obtain ⟨m, hm, ha⟩ := h (n + k)
    obtain ⟨d, rfl⟩ := Nat.exists_eq_add_of_le hm
    refine ⟨k + d, by omega, ?_⟩
    rw [Nat.add_assoc, State.after_add] at ha
    unfold State.after at ha
    rw [hr] at ha
    exact ha

/-- A property that steps keep or turn into another holds, or the other held before. -/
theorem State.after_or_eventually {P Q : State → Prop} {s : State} (hP : P s)
    (hkeep : ∀ u v, P u → step u = .next v → P v ∨ v.Eventually Q) (n : Nat) : s.Eventually Q ∨ s.after n P := by
  induction n with
  | zero => exact .inr hP
  | succ n ih =>
    rcases ih with h | h
    · exact .inl h
    · rw [State.after_add]
      unfold State.after at h ⊢
      cases hr : Host.Core.run Sys2Proof.core n s with
      | fault f => exact .inr trivial
      | refused r => exact .inr trivial
      | next u =>
        rw [hr] at h
        cases hs : step u with
        | fault f => exact .inr ((State.after_one u P).2 (fun t ht => by rw [hs] at ht; cases ht))
        | refused r => exact .inr ((State.after_one u P).2 (fun t ht => by rw [hs] at ht; cases ht))
        | next v =>
          rcases hkeep u v h hs with hv | hv
          · exact .inr ((State.after_one u P).2 (fun t ht => by rw [hs] at ht; cases ht; exact hv))
          · refine .inl (State.Eventually.later (n + 1) ?_)
            rw [State.after_add]
            unfold State.after
            rw [hr]
            exact (State.after_one u _).2 (fun t ht => by rw [hs] at ht; cases ht; exact hv)

/-- The rule of progress: while `P` holds the agent is enabled, its step leads to `Q`, and every other step keeps `P` or
leads to `Q` too; then a run that is weakly fair to the agent comes to `Q`. -/
theorem State.WeaklyFair.leads {a : Agent} {P Q : State → Prop} {s : State} (hfair : s.WeaklyFair a) (hP : P s)
    (hen : ∀ u, P u → u.enables a = true)
    (hkeep : ∀ u v, P u → step u = .next v → P v ∨ v.Eventually Q)
    (hstep : ∀ u v, P u → u.event.agent = some a → step u = .next v → v.Eventually Q) : s.Eventually Q := by
  obtain ⟨m, -, hm⟩ := hfair 0
  rcases State.after_or_eventually hP hkeep m with h | h
  · exact h
  · refine State.Eventually.later (m + 1) ((State.after_add s m 1 _).2 ?_)
    refine State.after_mono (State.after_and hm h) fun u hu => (State.after_one u _).2 fun v hv => ?_
    rcases hu.1 with hd | he
    · rw [hen u hu.2] at hd; cases hd
    · exact hstep u v hu.2 he hv

theorem State.WeaklyFair.step {a : Agent} {u v : State} (h : u.WeaklyFair a) (hs : step u = .next v) : v.WeaklyFair a :=
  (State.after_one u _).1 (h.later 1) v hs

/-- A run that a refusal stops asks nothing of an agent. -/
theorem State.WeaklyFair.of_refused {a : Agent} {s : State} {m : Nat} {r : Refusal}
    (h : Host.Core.run Sys2Proof.core m s = .refused r) : s.WeaklyFair a := by
  intro n
  refine ⟨m + n, by omega, (State.after_add s m n _).2 ?_⟩
  unfold State.after
  rw [h]; trivial

end Sys2Proof.Machine
end

