-- ==== Sys2Proof/Laws/Memory.lean ====
section
/-! SUPPORT. The laws of the non-volatile cells: a read after a write, every other cell unchanged, and the canonical
form kept by every operation. -/

namespace Sys2Proof.Machine

/-- Addresses strictly rising, the first half of the canonical form. -/
def Memory.Rising (m : Memory) : Prop :=
  m.Pairwise fun c d => c.1 < d.1

theorem Memory.wf_iff (p : Params) (m : Memory) :
    Memory.wf p m = true ↔
      Memory.Rising m ∧ ∀ c ∈ m, c.1 ≤ p.maxAddress.toNat ∧ c.2 ≠ unlisted p c.1 := by
  simp [Memory.wf, Memory.Rising]

theorem Memory.wf_nil (p : Params) : Memory.wf p [] = true := by
  simp [Memory.wf]

theorem Memory.find_eq_none_of_lt (m : Memory) (a : Nat) (h : ∀ c ∈ m, a < c.1) : Memory.find m a = none := by
  induction m with
  | nil => rfl
  | cons c m ih =>
    obtain ⟨k, b⟩ := c
    have hk : a < k := h (k, b) (by simp)
    have hne : k ≠ a := by omega
    simp only [Memory.find, hne, if_false]
    exact ih fun d hd => h d (by simp [hd])

theorem Memory.find_put_same (m : Memory) (a : Nat) (v : Byte) : Memory.find (Memory.put m a v) a = some v := by
  induction m with
  | nil => simp [Memory.put, Memory.find]
  | cons c m ih =>
    obtain ⟨k, b⟩ := c
    unfold Memory.put
    split
    · simp [Memory.find]
    · split
      · simp [Memory.find]
      · next h2 => simp only [Memory.find, if_neg (fun h => h2 (Eq.symm h))]; exact ih

theorem Memory.find_put_other (m : Memory) (a b : Nat) (v : Byte) (h : b ≠ a) :
    Memory.find (Memory.put m a v) b = Memory.find m b := by
  induction m with
  | nil => simp [Memory.put, Memory.find, Ne.symm h]
  | cons c m ih =>
    obtain ⟨k, w⟩ := c
    unfold Memory.put
    split
    · simp [Memory.find, Ne.symm h]
    · split
      · next h2 => subst h2; simp [Memory.find, Ne.symm h]
      · simp only [Memory.find]; split
        · rfl
        · exact ih

theorem Memory.find_remove_other (m : Memory) (a b : Nat) (h : b ≠ a) :
    Memory.find (Memory.remove m a) b = Memory.find m b := by
  induction m with
  | nil => rfl
  | cons c m ih =>
    obtain ⟨k, w⟩ := c
    unfold Memory.remove
    split
    · next h2 => subst h2; simp [Memory.find, Ne.symm h]
    · simp only [Memory.find]; split
      · rfl
      · exact ih

theorem Memory.find_remove_same (m : Memory) (a : Nat) (hm : Memory.Rising m) :
    Memory.find (Memory.remove m a) a = none := by
  induction m with
  | nil => rfl
  | cons c m ih =>
    obtain ⟨k, w⟩ := c
    have hc := List.pairwise_cons.1 hm
    unfold Memory.remove
    split
    · next h2 => subst h2; exact Memory.find_eq_none_of_lt m k hc.1
    · next h2 => simp only [Memory.find, h2, if_false]; exact ih hc.2

theorem Memory.read_write_same (p : Params) (m : Memory) (a : Nat) (v : Byte) (hm : Memory.Rising m) :
    Memory.read p (Memory.write p m a v) a = v := by
  unfold Memory.read Memory.write
  split
  · next h => rw [Memory.find_remove_same m a hm]; exact h.symm
  · rw [Memory.find_put_same]; rfl

theorem Memory.read_write_other (p : Params) (m : Memory) (a b : Nat) (v : Byte) (h : b ≠ a) :
    Memory.read p (Memory.write p m a v) b = Memory.read p m b := by
  unfold Memory.read Memory.write
  split
  · rw [Memory.find_remove_other m a b h]
  · rw [Memory.find_put_other m a b v h]

theorem Memory.mem_put (m : Memory) (a : Nat) (v : Byte) (c : Host.Cell) (h : c ∈ Memory.put m a v) :
    c = (a, v) ∨ c ∈ m := by
  induction m with
  | nil => simpa [Memory.put] using h
  | cons d m ih =>
    obtain ⟨k, w⟩ := d
    unfold Memory.put at h
    split at h
    · simpa using h
    · split at h
      · rcases List.mem_cons.1 h with h | h
        · exact .inl h
        · exact .inr (by simp [h])
      · rcases List.mem_cons.1 h with h | h
        · exact .inr (by simp [h])
        · rcases ih h with h | h
          · exact .inl h
          · exact .inr (by simp [h])

theorem Memory.mem_remove (m : Memory) (a : Nat) (c : Host.Cell) (h : c ∈ Memory.remove m a) : c ∈ m := by
  induction m with
  | nil => simp [Memory.remove] at h
  | cons d m ih =>
    obtain ⟨k, w⟩ := d
    unfold Memory.remove at h
    split at h
    · simp [h]
    · rcases List.mem_cons.1 h with h | h
      · simp [h]
      · simp [ih h]

theorem Memory.rising_put (m : Memory) (a : Nat) (v : Byte) (hm : Memory.Rising m) :
    Memory.Rising (Memory.put m a v) := by
  induction m with
  | nil => simp [Memory.put, Memory.Rising]
  | cons d m ih =>
    obtain ⟨k, w⟩ := d
    have hc := List.pairwise_cons.1 hm
    unfold Memory.put
    split
    · next h1 =>
      refine List.pairwise_cons.2 ⟨fun c hcm => ?_, hm⟩
      rcases List.mem_cons.1 hcm with rfl | hcm
      · exact h1
      · exact lt_trans h1 (hc.1 c hcm)
    · split
      · next h2 => subst h2; exact List.pairwise_cons.2 ⟨hc.1, hc.2⟩
      · next h1 h2 =>
        refine List.pairwise_cons.2 ⟨fun c hcm => ?_, ih hc.2⟩
        rcases Memory.mem_put m a v c hcm with rfl | hcm
        · show k < a; omega
        · exact hc.1 c hcm

theorem Memory.rising_remove (m : Memory) (a : Nat) (hm : Memory.Rising m) : Memory.Rising (Memory.remove m a) := by
  induction m with
  | nil => exact hm
  | cons d m ih =>
    obtain ⟨k, w⟩ := d
    have hc := List.pairwise_cons.1 hm
    unfold Memory.remove
    split
    · exact hc.2
    · exact List.pairwise_cons.2 ⟨fun c hcm => hc.1 c (Memory.mem_remove m a c hcm), ih hc.2⟩

/-- Every write to a cell that exists keeps the canonical form. -/
theorem Memory.wf_write (p : Params) (m : Memory) (a : Nat) (v : Byte) (hm : Memory.wf p m = true)
    (ha : a ≤ p.maxAddress.toNat) : Memory.wf p (Memory.write p m a v) = true := by
  rw [Memory.wf_iff] at hm ⊢
  unfold Memory.write
  split
  · exact ⟨Memory.rising_remove m a hm.1, fun c hc => hm.2 c (Memory.mem_remove m a c hc)⟩
  · next hv =>
    refine ⟨Memory.rising_put m a v hm.1, fun c hc => ?_⟩
    rcases Memory.mem_put m a v c hc with rfl | hc
    · exact ⟨ha, hv⟩
    · exact hm.2 c hc

/-- A memory in canonical form is determined by what its cells read as, so equal memories are equal data: listed
entries are exactly the addresses that do not read as `NVM_INIT`. -/
theorem Memory.find_eq_some_iff (p : Params) (m : Memory) (a : Nat) (b : Byte) (hm : Memory.wf p m = true) :
    Memory.find m a = some b ↔ Memory.read p m a = b ∧ b ≠ unlisted p a := by
  rw [Memory.wf_iff] at hm
  have key : ∀ (m : Memory), (∀ c ∈ m, c.2 ≠ unlisted p c.1) → ∀ b, Memory.find m a = some b → b ≠ unlisted p a := by
    intro m
    induction m with
    | nil => intro _ b h; simp [Memory.find] at h
    | cons d m ih =>
      obtain ⟨k, w⟩ := d
      intro hall b h
      unfold Memory.find at h
      split at h
      · next hk =>
        have hw := hall (k, w) (by simp)
        have hb : w = b := Option.some.inj h
        rw [← hb, ← hk]; exact hw
      · exact ih (fun c hc => hall c (by simp [hc])) b h
  constructor
  · intro h
    exact ⟨by simp [Memory.read, h], key m (fun c hc => (hm.2 c hc).2) b h⟩
  · rintro ⟨h, hb⟩
    unfold Memory.read at h
    cases hf : Memory.find m a with
    | none => rw [hf] at h; exact absurd h.symm hb
    | some w => rw [hf] at h; exact congrArg some h

theorem State.nvRead_eq_some (s : State) (a : Addr) (h : addrValid s.params a = true) :
    s.nvRead a = some (s.cell a) := by
  unfold State.nvRead State.cell; rw [if_pos h]

/-- A store changes no cell but the one addressed. -/
theorem State.cell_nvStore (s : State) (a b : Addr) (v : Byte) (h : Memory.wf s.params s.nvm = true) :
    (s.nvStore a v).cell b = if b = a then v else s.cell b := by
  unfold State.cell State.nvStore
  split
  · next hb => subst hb; exact Memory.read_write_same _ _ _ _ ((Memory.wf_iff _ _).1 h).1
  · next hb => exact Memory.read_write_other _ _ _ _ _ (fun hn => hb (BitVec.eq_of_toNat_eq hn))

end Sys2Proof.Machine
end

