-- ==== Sys2Proof/Laws/PerInstr.lean ====
section
/-! SUPPORT. The per-instruction family `OpcodeRow`: the word of every command stands in the row of the opcode map that
bears the command's mnemonic (spec/30_encoding.md R113: "a word `w` is that command iff `w & mask == match`"). -/

namespace Sys2Proof.Laws

/-- The word of a command matches a row of the opcode map with that command's mnemonic. -/
def OpcodeRow.Statement (i : Instr) : Prop :=
  ∃ r ∈ opcodeMap, r.mnemonic = i.mnemonic ∧ r.hits (encode i) = true

/-! ### The words of each format under the masks of R113 -/

theorem OpcodeRow.mask_formatB (b : Byte) (op : Byte) :
    formatB op b &&& 0xFFFFFF00#32 = place op 24 := by
  apply BitVec.eq_of_getLsbD_eq; intro k hk
  interval_cases k <;> simp [formatB, place]

theorem OpcodeRow.mask_formatBB (op a b : Byte) :
    formatBB op a b &&& 0xFFFF0000#32 = place op 24 := by
  apply BitVec.eq_of_getLsbD_eq; intro k hk
  interval_cases k <;> simp [formatBB, place]

theorem OpcodeRow.mask_formatBBB (op a b c : Byte) :
    formatBBB op a b c &&& 0xFF000000#32 = place op 24 := by
  apply BitVec.eq_of_getLsbD_eq; intro k hk
  interval_cases k <;> simp [formatBBB, place]

theorem OpcodeRow.mask_formatAV (op : Byte) (addr : Addr) (v : Byte) :
    formatAV op addr v &&& 0xFF000000#32 = place op 24 := by
  apply BitVec.eq_of_getLsbD_eq; intro k hk
  interval_cases k <;> simp [formatAV, place]

theorem OpcodeRow.mask_formatA (op : Byte) (addr : Addr) :
    formatAV op addr 0#8 &&& 0xFF0000FF#32 = place op 24 := by
  apply BitVec.eq_of_getLsbD_eq; intro k hk
  interval_cases k <;> simp [formatAV, place]

theorem OpcodeRow.mask_formatBit (op : Byte) (t : Bool) :
    formatBit op t &&& 0xFFFFFFFE#32 = place op 24 := by
  apply BitVec.eq_of_getLsbD_eq; intro k hk
  interval_cases k <;> simp [formatBit, place]

theorem OpcodeRow.mask_formatI (op : Byte) (e : Bool) (baud : BitVec 23) :
    formatI op e baud &&& 0xFF000000#32 = place op 24 := by
  apply BitVec.eq_of_getLsbD_eq; intro k hk
  interval_cases k <;> simp [formatI, place]

/-- A row of the map that the masked word meets gives the statement. -/
theorem OpcodeRow.of_row {i : Instr} (r : Sys2Proof.OpcodeRow) (op : Byte) (hr : r ∈ opcodeMap)
    (hm : r.mnemonic = i.mnemonic) (hw : encode i &&& r.mask = place op 24) (hv : place op 24 = r.value) :
    OpcodeRow.Statement i :=
  ⟨r, hr, hm, by simp [Sys2Proof.OpcodeRow.hits, hw, hv]⟩

/-! ### One lemma per command -/

theorem OpcodeRow.nvRead (addr : Addr) : OpcodeRow.Statement (.nvRead addr) :=
  OpcodeRow.of_row ⟨"NV_READ", 0x10000000, 0xFF0000FF⟩ 0x10 (by decide) rfl (OpcodeRow.mask_formatA _ _) (by decide)

theorem OpcodeRow.nvWrite (addr : Addr) (v : Byte) : OpcodeRow.Statement (.nvWrite addr v) :=
  OpcodeRow.of_row ⟨"NV_WRITE", 0x11000000, 0xFF000000⟩ 0x11 (by decide) rfl (OpcodeRow.mask_formatAV _ _ _) (by decide)

theorem OpcodeRow.nvUpdate (addr : Addr) (v : Byte) : OpcodeRow.Statement (.nvUpdate addr v) :=
  OpcodeRow.of_row ⟨"NV_UPDATE", 0x12000000, 0xFF000000⟩ 0x12 (by decide) rfl (OpcodeRow.mask_formatAV _ _ _) (by decide)

theorem OpcodeRow.spiXfer (b : Byte) : OpcodeRow.Statement (.spiXfer b) :=
  OpcodeRow.of_row ⟨"SPI_XFER", 0x20000000, 0xFFFFFF00⟩ 0x20 (by decide) rfl (OpcodeRow.mask_formatB _ _) (by decide)

theorem OpcodeRow.csSelect (p : Periph) : OpcodeRow.Statement (.csSelect p) :=
  OpcodeRow.of_row ⟨"CS_SELECT", 0x21000000, 0xFFFFFFFE⟩ 0x21 (by decide) rfl (OpcodeRow.mask_formatBit _ _) (by decide)

theorem OpcodeRow.csDeselect (p : Periph) : OpcodeRow.Statement (.csDeselect p) :=
  OpcodeRow.of_row ⟨"CS_DESELECT", 0x22000000, 0xFFFFFFFE⟩ 0x22 (by decide) rfl (OpcodeRow.mask_formatBit _ _) (by decide)

theorem OpcodeRow.pdRegwrite (reg data : Byte) : OpcodeRow.Statement (.pdRegwrite reg data) :=
  OpcodeRow.of_row ⟨"PD_REGWRITE", 0x23000000, 0xFFFF0000⟩ 0x23 (by decide) rfl (OpcodeRow.mask_formatBB _ _ _) (by decide)

theorem OpcodeRow.potWrite (w1 w2 : Byte) : OpcodeRow.Statement (.potWrite w1 w2) :=
  OpcodeRow.of_row ⟨"POT_WRITE", 0x24000000, 0xFFFF0000⟩ 0x24 (by decide) rfl (OpcodeRow.mask_formatBB _ _ _) (by decide)

theorem OpcodeRow.serInit (e : Bool) (baud : BitVec 23) : OpcodeRow.Statement (.serInit e baud) :=
  OpcodeRow.of_row ⟨"SER_INIT", 0x30000000, 0xFF000000⟩ 0x30 (by decide) rfl (OpcodeRow.mask_formatI _ _ _) (by decide)

theorem OpcodeRow.serWrite (c : Byte) : OpcodeRow.Statement (.serWrite c) :=
  OpcodeRow.of_row ⟨"SER_WRITE", 0x31000000, 0xFFFFFF00⟩ 0x31 (by decide) rfl (OpcodeRow.mask_formatB _ _) (by decide)

theorem OpcodeRow.serRead : OpcodeRow.Statement .serRead :=
  OpcodeRow.of_row ⟨"SER_READ", 0x32000000, 0xFFFFFFFF⟩ 0x32 (by decide) rfl (by decide) (by decide)

theorem OpcodeRow.serAvail : OpcodeRow.Statement .serAvail :=
  OpcodeRow.of_row ⟨"SER_AVAIL", 0x33000000, 0xFFFFFFFF⟩ 0x33 (by decide) rfl (by decide) (by decide)

theorem OpcodeRow.serOverrun : OpcodeRow.Statement .serOverrun :=
  OpcodeRow.of_row ⟨"SER_OVERRUN", 0x34000000, 0xFFFFFFFF⟩ 0x34 (by decide) rfl (by decide) (by decide)

theorem OpcodeRow.facUpdatePd (reg data : Byte) : OpcodeRow.Statement (.facUpdatePd reg data) :=
  OpcodeRow.of_row ⟨"FAC_UPDATE_PD", 0x40000000, 0xFFFF0000⟩ 0x40 (by decide) rfl (OpcodeRow.mask_formatBB _ _ _) (by decide)

theorem OpcodeRow.facNotify (tag data : Byte) : OpcodeRow.Statement (.facNotify tag data) :=
  OpcodeRow.of_row ⟨"FAC_NOTIFY", 0x41000000, 0xFFFF0000⟩ 0x41 (by decide) rfl (OpcodeRow.mask_formatBB _ _ _) (by decide)

theorem OpcodeRow.facUpdate (tag reg data : Byte) : OpcodeRow.Statement (.facUpdate tag reg data) :=
  OpcodeRow.of_row ⟨"FAC_UPDATE", 0x42000000, 0xFF000000⟩ 0x42 (by decide) rfl (OpcodeRow.mask_formatBBB _ _ _ _) (by decide)

theorem OpcodeRow.facSetWiper (w1 w2 : Byte) : OpcodeRow.Statement (.facSetWiper w1 w2) :=
  OpcodeRow.of_row ⟨"FAC_SET_WIPER", 0x43000000, 0xFFFF0000⟩ 0x43 (by decide) rfl (OpcodeRow.mask_formatBB _ _ _) (by decide)

theorem OpcodeRow.irqSuppress : OpcodeRow.Statement .irqSuppress :=
  OpcodeRow.of_row ⟨"IRQ_SUPPRESS", 0x50000000, 0xFFFFFFFF⟩ 0x50 (by decide) rfl (by decide) (by decide)

theorem OpcodeRow.irqRestore (t : Bool) : OpcodeRow.Statement (.irqRestore t) :=
  OpcodeRow.of_row ⟨"IRQ_RESTORE", 0x51000000, 0xFFFFFFFE⟩ 0x51 (by decide) rfl (OpcodeRow.mask_formatBit _ _) (by decide)

end Sys2Proof.Laws
end

