-- ==== Sys2Proof/Laws/Progress.lean ====
section
/-! SUPPORT. The laws of progress (R13, R306): every turn of the free order comes; a phase whose condition comes again and
again is left; and, given fairness, what each phase awaits comes. -/

namespace Sys2Proof.Machine

/-! ### Eventually -/

theorem State.Eventually.step {P : State → Prop} {s : State} (h : ∀ t, step s = .next t → t.Eventually P) :
    s.Eventually P :=
  State.Eventually.later 1 ((State.after_one s _).2 h)

theorem State.Eventually.bind {P Q : State → Prop} {s : State} (h : s.Eventually P)
    (hPQ : ∀ t, P t → t.Eventually Q) : s.Eventually Q := by
  obtain ⟨n, hn⟩ := h
  exact State.Eventually.later n (State.after_mono hn hPQ)

/-! ### The turns of the free order -/

/-- The pending events come to an end. -/
theorem agenda_ends (s : State) : s.Eventually fun u => u.agenda = [] ∧ u.turn = s.turn := by
  generalize hl : s.agenda = l
  induction l generalizing s with
  | nil => exact .now ⟨hl, rfl⟩
  | cons e es ih =>
    refine .step fun v hv => ?_
    obtain ⟨ha, ht⟩ := step_agenda_turn s v hv
    rw [State.takeEvent_cons s e es hl] at ha ht
    have ht : v.turn = s.turn := ht
    exact ht ▸ ih v ha

/-- What `FG` is owed is given at once, and then the next turn comes. -/
theorem next_turn (s : State) (ha : s.agenda = []) :
    s.Eventually fun u => u.agenda = [] ∧ u.turn = s.turn ∧ u.fgOwed = false := by
  cases ho : s.fgOwed with
  | false => exact .now ⟨ha, rfl, ho⟩
  | true =>
    refine .step fun v hv => .now ?_
    have hd : v.fgDue = false := by
      rcases step_events s v hv with h | ⟨-, -, -, h⟩
      · rw [h.fgDue, State.takeEvent_owed s ha ho]
      · exact h
    obtain ⟨hva, hvt⟩ := step_agenda_turn s v hv
    rw [State.takeEvent_owed s ha ho] at hva hvt
    exact ⟨hva.trans ha, hvt, by simp [State.fgOwed, hd]⟩

/-- Every turn comes. -/
theorem turn_comes (n : Nat) (s : State) :
    s.Eventually fun u => u.agenda = [] ∧ u.turn = s.turn + n ∧ u.fgOwed = false := by
  induction n generalizing s with
  | zero => exact (agenda_ends s).bind fun u hu => (next_turn u hu.1).mono fun v hv => ⟨hv.1, hv.2.1.trans hu.2, hv.2.2⟩
  | succ n ih =>
    refine (ih s).bind fun u hu => .step fun v hv => ?_
    obtain ⟨hva, hvt⟩ := step_agenda_turn u v hv
    rw [State.takeEvent_turn u hu.1 hu.2.2] at hva hvt
    refine (next_turn v (hva.trans hu.1)).mono fun w hw => ⟨hw.1, ?_, hw.2.2⟩
    have h1 : v.turn = u.turn + 1 := hvt
    have h2 := hu.2.1
    have h3 := hw.2.1
    omega

/-! ### The foreground -/

/-- While a command is under way, a step that is not the foreground's leaves it in its phase, takes no byte from the
inbound buffer and gives the transmitter none but by `H_DRAIN`; or it is a reset (R57, R93). -/
theorem step_beside (u v : State) (i : Instr) (ph : Phase) (hf : u.fg = .run i ph) (h : step u = .next v)
    (hne : u.event ≠ .fg) :
    v.fg = .idle ∨ (v.fg = .run i ph ∧ u.inBuf.count ≤ v.inBuf.count ∧
      (u.event ≠ .hDrain → u.txFull = false → v.txFull = false)) := by
  rcases step_next u v h with ⟨j, hc, -⟩ | ⟨-, ha⟩
  · rcases commandOf_some _ _ _ hc with ⟨w, -, hi, -⟩ | ⟨ph', he, -⟩
    · simp [hf] at hi
    · exact absurd he hne
  · cases hev : u.event with
    | fg => exact absurd hev hne
    | command w => rw [hev] at ha; cases ha; simp [hf]
    | hDrain =>
      rw [hev] at ha
      obtain ⟨ob, d, f, x, hd⟩ := drainHandler_frame u.takeEvent
      cases ha; rw [hd]; simp [hf]
    | hRx =>
      rw [hev] at ha
      obtain ⟨ob, ib, d, o, f, hle, hx⟩ := rxHandler_frame u.takeEvent
      cases ha; rw [hx]
      exact .inr ⟨by simp [hf], by simpa using hle, fun _ ht => by simpa using ht⟩
    | txu => rw [hev] at ha; cases ha; unfold txuStep; split <;> simp [hf]
    | rxu b => rw [hev] at ha; cases ha; unfold rxuStep; split <;> (try split) <;> simp [hf]
    | spiu m => rw [hev] at ha; cases ha; unfold spiuStep; split <;> simp [hf, State.traceBus]
    | nvu w =>
      rw [hev] at ha
      rcases nvuStep_cases w u.takeEvent with ⟨-, hn⟩ | ⟨-, -, hn⟩ | ⟨-, -, hn⟩ <;> rw [agentStep, hn] at ha
      · cases ha; simp [hf]
      · cases ha; simp [hf]
      · cases ha
    | reset =>
      rw [hev] at ha
      cases ha
      rcases resetBlock_cases u.takeEvent with ⟨d, -, -, hd⟩ | ⟨-, hd⟩ <;> rw [hd] <;> exact .inl rfl

/-- A step of the foreground runs the phase of the command under way. -/
theorem step_phase (u v : State) (i : Instr) (ph : Phase) (hf : u.fg = .run i ph) (he : u.event = .fg)
    (h : step u = .next v) : exec i u.takeEvent = .next v := by
  rcases step_next u v h with ⟨j, hc, hx⟩ | ⟨hc, -⟩ <;> rw [he] at hc
  · simp only [commandOf, State.takeEvent_fg, hf, Except.ok.injEq, Option.some.injEq] at hc
    exact hc ▸ hx
  · simp [commandOf, hf] at hc

/-- A foreground that waits passes. -/
theorem step_waiting (u v : State) (i : Instr) (ph : Phase) (hf : u.fg = .run i ph) (hu : u.SequencerOk)
    (hw : u.awaitHolds ph = false) (he : u.event = .fg) (h : step u = .next v) : v = u.takeEvent := by
  have hs := step_not_enabled u .fg (by rw [he]; rfl) hu (by simp only [State.enables, hf, hw])
  rw [hs] at h
  cases h; rfl

/-- The rule of progress of the foreground (R13, R306): a command stays in a phase for ever only where what the phase
awaits never comes. `K` is an invariant; where the condition of the phase comes again and again, and the phase then leads
on to `Q`, as does leaving it by a reset, the run comes to `Q`. -/
theorem phase_left {K Q : State → Prop} (i : Instr) (ph : Phase)
    (hK : ∀ u v, K u → u.fg = .run i ph → step u = .next v → K v)
    (hseq : ∀ u, K u → u.SequencerOk)
    (hcomes : ∀ u, K u → u.fg = .run i ph → u.Eventually fun v => v.fg ≠ .run i ph ∨ v.awaitHolds ph = true)
    (hidle : ∀ u, K u → u.fg = .idle → u.Eventually Q)
    (hexec : ∀ u v, K u → u.fg = .run i ph → u.awaitHolds ph = true → step u = .next v → u.event = .fg → v.Eventually Q)
    (s : State) (hs : K s) (hf : s.fg = .run i ph) : s.Eventually Q := by
  have move : ∀ u v, K u → u.fg = .run i ph → step u = .next v →
      (u.awaitHolds ph = true → u.event ≠ .fg) → v.fg = .run i ph ∨ v.Eventually Q := by
    intro u v hu huf hv hne
    by_cases he : u.event = .fg
    · cases hw : u.awaitHolds ph with
      | true => exact absurd he (hne hw)
      | false =>
        rw [step_waiting u v i ph huf (hseq u hu) hw he hv, State.takeEvent_fg]
        exact .inl huf
    · rcases step_beside u v i ph huf hv he with h | ⟨h, -⟩
      · exact .inr (hidle v (hK u v hu huf hv) h)
      · exact .inl h
  have moveOr : ∀ u v, K u → u.fg = .run i ph → step u = .next v → v.fg = .run i ph ∨ v.Eventually Q := by
    intro u v hu huf hv
    by_cases hh : u.awaitHolds ph = true ∧ u.event = .fg
    · exact .inr (hexec u v hu huf hh.1 hv hh.2)
    · exact move u v hu huf hv fun h he => hh ⟨h, he⟩
  have owed : ∀ u, K u → u.fg = .run i ph → u.agenda = [] → u.fgDue = true → u.Eventually Q := by
    intro u hu huf hua hud
    obtain ⟨n, hn⟩ := hcomes u hu huf
    have keep := State.after_or_eventually (Q := Q)
      (P := fun w => K w ∧ w.fg = .run i ph ∧ w.agenda = [] ∧ w.fgDue = true) ⟨hu, huf, hua, hud⟩
      (by
        rintro w x ⟨hw, hwf, hwa, hwd⟩ hx
        cases hh : w.awaitHolds ph with
        | true =>
          have ho : w.fgOwed = true := by simp [State.fgOwed, hwd, State.enables, hwf, hh]
          exact .inr (hexec w x hw hwf hh hx (State.event_owed w hwa ho))
        | false =>
          have ho : w.fgOwed = false := by simp [State.fgOwed, State.enables, hwf, hh]
          have hwait : w.waits = true := by simp [State.waits, hwf, hh]
          rcases moveOr w x hw hwf hx with hxf | hq
          · rcases step_events w x hx with h | ⟨h, -⟩
            · refine .inl ⟨hK w x hw hwf hx, hxf, ?_, ?_⟩
              · rw [h.agenda, State.takeEvent_turn w hwa ho]; exact hwa
              · rw [h.fgDue, State.takeEvent_turn w hwa ho]; simp [hwait, hwd]
            · rw [h] at hxf; cases hxf
          · exact .inr hq) n
    rcases keep with hq | hp
    · exact hq
    · refine State.Eventually.later n (State.after_mono (State.after_and hn hp) ?_)
      rintro w ⟨hw, hwK, hwf, hwa, hwd⟩
      have hh : w.awaitHolds ph = true := hw.resolve_left fun h => h hwf
      have ho : w.fgOwed = true := by simp [State.fgOwed, hwd, State.enables, hwf, hh]
      exact .step fun x hx => hexec w x hwK hwf hh hx (State.event_owed w hwa ho)
  obtain ⟨m, hm, hfg⟩ := Config.order.fair .fg rfl s.turn
  obtain ⟨n, hn⟩ := turn_comes (m - s.turn) s
  rcases State.after_or_eventually (Q := Q) (P := fun u => K u ∧ u.fg = .run i ph) ⟨hs, hf⟩
    (fun u v hu hv => (moveOr u v hu.1 hu.2 hv).imp_left fun h => ⟨hK u v hu.1 hu.2 hv, h⟩) n with hq | hp
  · exact hq
  · refine State.Eventually.later n (State.after_mono (State.after_and hn hp) ?_)
    rintro u ⟨⟨hua, hut, huo⟩, hu, huf⟩
    have hev : u.event = .fg := by
      rw [State.event_turn u hua huo, hut, Nat.add_sub_cancel' hm]
      cases h : Config.order.event m <;> simp [Config.arbiter, h, Event.agent] at hfg ⊢
    refine .step fun v hv => ?_
    cases hh : u.awaitHolds ph with
    | true => exact hexec u v hu huf hh hv hev
    | false =>
      have hwait : u.waits = true := by simp [State.waits, huf, hh]
      have ht := step_waiting u v i ph huf (hseq u hu) hh hev hv
      rw [ht] at hv ⊢
      refine owed _ (hK u _ hu huf hv) (by simp [huf]) ?_ ?_
      · rw [State.takeEvent_turn u hua huo]; exact hua
      · rw [State.takeEvent_turn u hua huo]
        rw [State.event_turn u hua huo] at hev
        simp [hwait, hev]

/-! ### What a phase awaits comes (R14, R306) -/

/-- A step whose event runs no phase of a command is that agent's. -/
theorem step_event (u v : State) (e : Event) (he : u.event = e) (hc : commandOf e u.takeEvent = .ok none)
    (h : step u = .next v) : agentStep e u.takeEvent = .next v := by
  rcases step_next u v h with ⟨j, hj, -⟩ | ⟨-, ha⟩
  · rw [he, hc] at hj; cases hj
  · exact he ▸ ha

/-- An enabled `H_DRAIN` takes a byte out of a buffer that holds one, and changes neither `GIE` nor the capacity. -/
theorem step_drains (u v : State) (he : u.event = .hDrain) (hen : u.drainEnabled = true) (hc : 0 < u.outBuf.count)
    (h : step u = .next v) :
    v.outBuf.count + 1 = u.outBuf.count ∧ v.params = u.params ∧ v.fg = u.fg := by
  have ha := step_event u v .hDrain he rfl h
  cases ha
  rcases drainHandler_cases u.takeEvent with ⟨hn, -⟩ | ⟨-, h0, -⟩ | ⟨-, -, hn⟩
  · have hsame : u.takeEvent.drainEnabled = u.drainEnabled := by simp [State.drainEnabled, State.drainPending]
    rw [hsame, hen] at hn; cases hn
  · simp only [State.takeEvent_outBuf] at h0; omega
  · rw [hn]
    refine ⟨?_, u.takeEvent_params, u.takeEvent_fg⟩
    simp only [Ring.dequeue, State.takeEvent_outBuf]
    omega

/-- A pending write is completed, in a run fair to `NVU`. -/
theorem store_comes (i : Instr) (ph : Phase) (hst : ph.awaitsStore = true) (u : State) (hfair : u.WeaklyFair .nvu)
    (hf : u.fg = .run i ph) : u.Eventually fun v => v.fg ≠ .run i ph ∨ v.awaitHolds ph = true := by
  have ready : ∀ v : State, v.nvBusy = false → v.awaitHolds ph = true := by
    intro v hv; unfold State.awaitHolds; rw [if_pos hst, hv]; rfl
  cases hb : u.nvBusy with
  | false => exact .now (.inr (ready u hb))
  | true =>
    refine hfair.leads (P := fun w => w.fg = .run i ph ∧ w.nvBusy = true) ⟨hf, hb⟩ (fun w hw => hw.2) ?_ ?_
    · rintro w x - -
      cases hx : x.nvBusy with
      | false => exact .inr (.now (.inr (ready x hx)))
      | true =>
        by_cases hxf : x.fg = .run i ph
        · exact .inl ⟨hxf, rfl⟩
        · exact .inr (.now (.inl hxf))
    · rintro w x ⟨-, hw⟩ he hx
      refine .now (.inr (ready x ?_))
      obtain ⟨b, hev⟩ : ∃ b, w.event = .nvu b := by cases h : w.event <;> simp [h, Event.agent] at he ⊢
      have ha := step_event w x _ hev rfl hx
      rcases nvuStep_cases b w.takeEvent with ⟨h0, -⟩ | ⟨-, -, hn⟩ | ⟨-, -, hn⟩
      · simp [hw] at h0
      · rw [agentStep, hn] at ha; cases ha; rfl
      · rw [agentStep, hn] at ha; cases ha

/-- A transfer is completed, in a run in which the bus is fair (`SPIU`, a premise of R14). -/
theorem transfer_comes (i : Instr) (ph : Phase) (hK : ∀ u v : State, u.Inv → step u = .next v → v.Inv)
    (hst : ph.awaitsStore = false) (htr : ph.awaitsTransfer = true) (u : State) (hu : u.Inv)
    (hfair : u.WeaklyFair .spiu) (hf : u.fg = .run i ph) :
    u.Eventually fun v => v.fg ≠ .run i ph ∨ v.awaitHolds ph = true := by
  have ready : ∀ v : State, v.spiDone = true → v.awaitHolds ph = true := by
    intro v hv; unfold State.awaitHolds; rw [if_neg (by simp [hst]), if_pos htr, hv]
  have under : ∀ v : State, v.Inv → v.fg = .run i ph → v.spiDone = false → v.spiBusy = true := by
    intro v hv hvf hd
    have h := hv.transfer.1
    rw [hvf] at h
    simpa [Fg.awaitsTransfer, htr, hd] using h
  cases hd : u.spiDone with
  | true => exact .now (.inr (ready u hd))
  | false =>
    refine hfair.leads (P := fun w => w.Inv ∧ w.fg = .run i ph ∧ w.spiBusy = true) ⟨hu, hf, under u hu hf hd⟩
      (fun w hw => hw.2.2) ?_ ?_
    · rintro w x ⟨hw, -, -⟩ hx
      by_cases hxf : x.fg = .run i ph
      · cases hxd : x.spiDone with
        | true => exact .inr (.now (.inr (ready x hxd)))
        | false => exact .inl ⟨hK w x hw hx, hxf, under x (hK w x hw hx) hxf hxd⟩
      · exact .inr (.now (.inl hxf))
    · rintro w x ⟨-, -, hw⟩ he hx
      refine .now (.inr (ready x ?_))
      obtain ⟨m, hev⟩ : ∃ m, w.event = .spiu m := by cases h : w.event <;> simp [h, Event.agent] at he ⊢
      have ha := step_event w x _ hev rfl hx
      cases ha; simp [spiuStep, hw]

/-- Room comes in the outbound buffer, in a run fair to `H_DRAIN` and `TXU`. -/
theorem room_comes (i : Instr) (ph : Phase) (hK : ∀ u v : State, u.Inv → step u = .next v → v.Inv)
    (hst : ph.awaitsStore = false) (htr : ph.awaitsTransfer = false) (hro : ph.awaitsRoom = true)
    (hdr : ∀ u : State, u.WeaklyFair .hDrain) (htx : ∀ u : State, u.WeaklyFair .txu)
    (u : State) (hu : u.Inv) (hf : u.fg = .run i ph) :
    u.Eventually fun v => v.fg ≠ .run i ph ∨ v.awaitHolds ph = true := by
  have hawait : ∀ v : State, v.awaitHolds ph = (!v.gie || decide (v.outBuf.count < v.params.outCap)) := by
    intro v; unfold State.awaitHolds
    rw [if_neg (by simp [hst]), if_neg (by simp [htr]), if_pos hro]
  have full : ∀ v : State, v.Inv → v.awaitHolds ph = false →
      v.gie = true ∧ v.params.outCap ≤ v.outBuf.count ∧ 0 < v.outBuf.count ∧ v.drainIe = true := by
    intro v hv hh
    rw [hawait] at hh
    simp only [Bool.or_eq_false_iff, Bool.not_eq_false', decide_eq_false_iff_not] at hh
    have hcap := hv.params.1
    exact ⟨hh.1, by omega, by omega, hv.drain (by omega)⟩
  have enabled : ∀ v : State, v.Inv → v.awaitHolds ph = false → v.txFull = false → v.drainEnabled = true := by
    intro v hv hh ht
    obtain ⟨hg, -, -, hd⟩ := full v hv hh
    simp [State.drainEnabled, State.drainPending, hg, hd, ht]
  have drained : ∀ v x : State, v.Inv → v.awaitHolds ph = false → v.txFull = false → v.event = .hDrain →
      step v = .next x → x.awaitHolds ph = true := by
    intro v x hv hh ht he hx
    obtain ⟨hc, hp, -⟩ := step_drains v x he (enabled v hv hh ht) (full v hv hh).2.2.1 hx
    have hok := hv.outBuf.2.2
    rw [hawait, hp]
    simp only [Bool.or_eq_true, decide_eq_true_eq]
    exact .inr (by omega)
  have free : ∀ v : State, v.Inv → v.fg = .run i ph → v.awaitHolds ph = false → v.txFull = false →
      v.Eventually fun v => v.fg ≠ .run i ph ∨ v.awaitHolds ph = true := by
    intro v hv hvf hh ht
    refine (hdr v).leads (P := fun w => w.Inv ∧ w.fg = .run i ph ∧ w.awaitHolds ph = false ∧ w.txFull = false)
      ⟨hv, hvf, hh, ht⟩ (fun w hw => enabled w hw.1 hw.2.2.1 hw.2.2.2) ?_ ?_
    all_goals rintro w x ⟨hw, hwf, hwh, hwt⟩
    · intro hx
      cases hxh : x.awaitHolds ph with
      | true => exact .inr (.now (.inr hxh))
      | false =>
        by_cases he : w.event = .fg
        · rw [step_waiting w x i ph hwf hw.sequencer hwh he hx] at hxh ⊢
          exact .inl ⟨hK w _ hw (step_waiting w x i ph hwf hw.sequencer hwh he hx ▸ hx), by simpa using hwf, rfl,
            by simpa using hwt⟩
        · rcases step_beside w x i ph hwf hx he with h | ⟨hxf, -, h⟩
          · exact .inr (.now (.inl (by rw [h]; simp)))
          · refine .inl ⟨hK w x hw hx, hxf, rfl, h (fun hd => ?_) hwt⟩
            rw [drained w x hw hwh hwt hd hx] at hxh; cases hxh
    · intro he hx
      have hev : w.event = .hDrain := by cases h : w.event <;> simp [h, Event.agent] at he ⊢
      exact .now (.inr (drained w x hw hwh hwt hev hx))
  cases hh : u.awaitHolds ph with
  | true => exact .now (.inr hh)
  | false =>
    cases ht : u.txFull with
    | false => exact free u hu hf hh ht
    | true =>
      refine (htx u).leads (P := fun w => w.Inv ∧ w.fg = .run i ph ∧ w.txFull = true) ⟨hu, hf, ht⟩ (fun w hw => hw.2.2)
        ?_ ?_
      all_goals rintro w x ⟨hw, hwf, hwt⟩
      · intro hx
        by_cases hxf : x.fg = .run i ph
        · cases hxh : x.awaitHolds ph with
          | true => exact .inr (.now (.inr hxh))
          | false =>
            cases hxt : x.txFull with
            | true => exact .inl ⟨hK w x hw hx, hxf, rfl⟩
            | false => exact .inr (free x (hK w x hw hx) hxf hxh hxt)
        · exact .inr (.now (.inl hxf))
      · intro he hx
        have hev : w.event = .txu := by cases h : w.event <;> simp [h, Event.agent] at he ⊢
        by_cases hxf : x.fg = .run i ph
        · cases hxh : x.awaitHolds ph with
          | true => exact .now (.inr hxh)
          | false =>
            refine free x (hK w x hw hx) hxf hxh ?_
            have ha := step_event w x _ hev rfl hx
            cases ha; simp [txuStep, hwt]
        · exact .now (.inl hxf)

/-- A byte stays in the inbound buffer while `SER_READ` awaits one, until the read ends. -/
theorem byte_stays (u v : State) (hf : u.fg = .run .serRead .rd1) (hc : 0 < u.inBuf.count)
    (h : step u = .next v) : v.fg = .idle ∨ (v.fg = .run .serRead .rd1 ∧ 0 < v.inBuf.count) := by
  by_cases he : u.event = .fg
  · have hx := step_phase u v _ _ hf he h
    have hft : u.takeEvent.fg = .run .serRead .rd1 := by rw [State.takeEvent_fg]; exact hf
    simp only [exec, execSerRead] at hx
    rw [State.foreground_run _ _ _ _ _ hft] at hx
    have h0 : u.takeEvent.inBuf.count ≠ 0 := by rw [State.takeEvent_inBuf]; omega
    simp only [if_neg h0] at hx
    cases hx; exact .inl rfl
  · rcases step_beside u v _ _ hf h he with h | ⟨hvf, hle, -⟩
    · exact .inl h
    · exact .inr ⟨hvf, by omega⟩

/-! ### Every phase leads towards the end of its command (R57) -/

/-- How many phases a transfer still has. -/
def XferPhase.left (x : XferPhase) : Nat :=
  match x with
  | .x1 => 2
  | .x2 => 1

/-- How many phases a read still has. -/
def ReadPhase.left (r : ReadPhase) : Nat :=
  match r with
  | .nr0 => 2
  | .nr1 => 1

/-- How many phases a write still has. -/
def WritePhase.left (w : WritePhase) : Nat :=
  match w with
  | .w0 => 2
  | .w1 => 1

/-- How many phases an update has left at most. -/
def UpdatePhase.left (u : UpdatePhase) : Nat :=
  match u with
  | .u0 r => 6 + r.left
  | .u1 _ => 6
  | .u2 w => 3 + w.left
  | .u3 r => 1 + r.left
  | .u4 _ => 1

/-- How many phases a register write still has. -/
def FramePhase.left (f : FramePhase) : Nat :=
  match f with
  | .p0 => 14
  | .p1 => 13
  | .p2 x => 10 + x.left
  | .p3 x => 8 + x.left
  | .p4 => 8
  | .p5 => 7
  | .p6 => 6
  | .p7 x => 3 + x.left
  | .p8 x => 1 + x.left
  | .p9 => 1

/-- How many phases a potentiometer write still has. -/
def PotPhase.left (q : PotPhase) : Nat :=
  match q with
  | .q0 => 6
  | .q1 x => 3 + x.left
  | .q2 x => 1 + x.left
  | .q3 => 1

/-- How many phases a write of a character has left at most. -/
def CharPhase.left (c : CharPhase) : Nat :=
  match c with
  | .v0 => 3
  | .v1 => 2
  | .v2 => 1

/-- How many phases a line has left at most. -/
def LinePhase.left (l : LinePhase) : Nat :=
  match l with
  | .h0 => 10
  | .h1 c _ => 6 + c.left
  | .h2 c _ => 3 + c.left
  | .h3 c _ => c.left

/-- How many phases a command has left at most. -/
def Phase.left (ph : Phase) : Nat :=
  match ph with
  | .nvRead r => r.left
  | .nvWrite w => w.left
  | .nvUpdate u => u.left
  | .xfer x => x.left
  | .s0 => 1
  | .d0 => 1
  | .pd f => 10 + f.left
  | .pot q => q.left
  | .i0 => 1
  | .char c => c.left
  | .rd0 => 2
  | .rd1 => 1
  | .a0 => 1
  | .o0 => 1
  | .line l => l.left
  | .j0 => 25
  | .k0 => 1
  | .l0 => 1

/-- An inner sequence whose condition holds goes on to a phase with fewer left. -/
def Sub.Advances {π α : Type} (x : Sub π α) (left : π → Nat) (n : Nat) : Prop :=
  ∀ q t, x = .ok (.more q) t → left q < n

theorem readStep_advances (addr : Addr) (r : ReadPhase) (s : State) (h : r = .nr1 → s.nvBusy = false) :
    (readStep addr r s).Advances ReadPhase.left r.left := by
  intro q t hq
  rcases readStep_ok _ _ _ _ _ hq with ⟨rfl, -, ⟨-, hp⟩ | ⟨-, hp⟩⟩ | ⟨hr, hb, -⟩ | ⟨b, -, -, -, hp, -⟩
  · cases hp; decide
  · cases hp
  · rw [h hr] at hb; cases hb
  · cases hp

theorem writeStep_advances (addr : Addr) (v : Byte) (w : WritePhase) (s : State) (h : w = .w1 → s.nvBusy = false) :
    (writeStep addr v w s).Advances WritePhase.left w.left := by
  intro q t hq
  rcases writeStep_ok _ _ _ _ _ _ hq with ⟨rfl, -, ⟨-, hp⟩ | ⟨-, hp⟩⟩ | ⟨hw, hb, -⟩ | ⟨-, -, hp, -⟩
  · cases hp; decide
  · cases hp
  · rw [h hw] at hb; cases hb
  · cases hp

theorem xferStep_advances (b : Byte) (x : XferPhase) (s : State) (h : x = .x2 → s.spiDone = true) :
    (xferStep b x s).Advances XferPhase.left x.left := by
  intro q t hq
  rcases xferStep_ok _ _ _ _ _ hq with ⟨rfl, hp, -⟩ | ⟨hx, hd, -⟩ | ⟨-, -, hp, -⟩
  · cases hp; decide
  · rw [h hx] at hd; cases hd
  · cases hp

theorem charStep_advances (c : Byte) (q : CharPhase) (s : State)
    (h : q.awaitsRoom = true → s.gie = true → s.outBuf.count < s.params.outCap) :
    (charStep c q s).Advances CharPhase.left q.left := by
  intro q' t hq
  rcases charStep_ok _ _ _ _ _ hq with ⟨rfl, -, -, hp⟩ | ⟨hv, hc, hg, -⟩ | ⟨rfl, hp, -⟩ | ⟨r, -, hp, -⟩
  · cases hp; split <;> decide
  · have hr : q.awaitsRoom = true := by cases q <;> simp [CharPhase.awaitsRoom] at hv ⊢
    have := h hr hg; omega
  · cases hp; decide
  · cases hp

theorem Sub.Advances.andThen {π α ρ β : Type} {x : Sub π α} {left : π → Nat} {n : Nat} (h : x.Advances left n)
    {wrap : π → ρ} {follow : α → Progress ρ β} {left' : ρ → Nat} {n' : Nat}
    (hw : ∀ q, left q < n → left' (wrap q) < n') (hfo : ∀ a q, follow a = .more q → left' q < n') :
    (x.andThen wrap follow).Advances left' n' := by
  intro q t hq
  rcases Sub.andThen_ok _ _ _ _ _ hq with ⟨q', hx, hp⟩ | ⟨a, -, hp⟩
  · cases hp; exact hw q' (h q' t hx)
  · exact hfo a q hp.symm

theorem updateStep_advances (addr : Addr) (v : Byte) (u : UpdatePhase) (s : State)
    (h : (Phase.nvUpdate u).awaitsStore = true → s.nvBusy = false) :
    (updateStep addr v u s).Advances UpdatePhase.left u.left := by
  cases u with
  | u0 r =>
    refine (readStep_advances addr r s (by rintro rfl; exact h rfl)).andThen ?_ ?_
    · intro q hq; simp only [UpdatePhase.left]; omega
    · intro a q ha; cases a <;> cases ha; cases r <;> simp [UpdatePhase.left, ReadPhase.left]
  | u1 cur => intro q t hq; simp only [updateStep] at hq; split at hq <;> cases hq; simp [UpdatePhase.left, WritePhase.left]
  | u2 w =>
    refine (writeStep_advances addr v w s (by rintro rfl; exact h rfl)).andThen ?_ ?_
    · intro q hq; simp only [UpdatePhase.left]; omega
    · intro a q ha; split at ha <;> cases ha; cases w <;> simp [UpdatePhase.left, ReadPhase.left, WritePhase.left]
  | u3 r =>
    refine (readStep_advances addr r s (by rintro rfl; exact h rfl)).andThen ?_ ?_
    · intro q hq; simp only [UpdatePhase.left]; omega
    · intro a q ha; cases a <;> cases ha; cases r <;> simp [UpdatePhase.left, ReadPhase.left]
  | u4 rb => intro q t hq; cases hq

theorem frameStep_advances (reg data : Byte) (f : FramePhase) (s : State)
    (h : (Phase.pd f).awaitsTransfer = true → s.spiDone = true) :
    (frameStep reg data f s).Advances FramePhase.left f.left := by
  cases f with
  | p0 => intro q t hq; simp only [frameStep] at hq; split at hq <;> cases hq; decide
  | p1 => intro q t hq; cases hq; decide
  | p4 => intro q t hq; cases hq; decide
  | p5 => intro q t hq; cases hq; decide
  | p6 => intro q t hq; cases hq; decide
  | p9 => intro q t hq; cases hq
  | p2 x =>
    refine (xferStep_advances reg x s (by rintro rfl; exact h rfl)).andThen ?_ ?_
    · intro q hq; simp only [FramePhase.left]; omega
    · intro a q ha; cases ha; cases x <;> decide
  | p3 x =>
    refine (xferStep_advances data x s (by rintro rfl; exact h rfl)).andThen ?_ ?_
    · intro q hq; simp only [FramePhase.left]; omega
    · intro a q ha; cases ha; cases x <;> decide
  | p7 x =>
    refine (xferStep_advances commitMarker x s (by rintro rfl; exact h rfl)).andThen ?_ ?_
    · intro q hq; simp only [FramePhase.left]; omega
    · intro a q ha; cases ha; cases x <;> decide
  | p8 x =>
    refine (xferStep_advances commitData x s (by rintro rfl; exact h rfl)).andThen ?_ ?_
    · intro q hq; simp only [FramePhase.left]; omega
    · intro a q ha; cases ha; cases x <;> decide

theorem potStep_advances (w1 w2 : Byte) (p : PotPhase) (s : State)
    (h : (Phase.pot p).awaitsTransfer = true → s.spiDone = true) :
    (potStep w1 w2 p s).Advances PotPhase.left p.left := by
  cases p with
  | q0 => intro q t hq; simp only [potStep] at hq; split at hq <;> cases hq; decide
  | q1 x =>
    refine (xferStep_advances w1 x s (by rintro rfl; exact h rfl)).andThen ?_ ?_
    · intro q hq; simp only [PotPhase.left]; omega
    · intro a q ha; cases ha; cases x <;> decide
  | q2 x =>
    refine (xferStep_advances w2 x s (by rintro rfl; exact h rfl)).andThen ?_ ?_
    · intro q hq; simp only [PotPhase.left]; omega
    · intro a q ha; cases ha; cases x <;> decide
  | q3 => intro q t hq; cases hq

theorem lineStep_advances (tag data : Byte) (l : LinePhase) (s : State)
    (h : (Phase.line l).awaitsRoom = true → s.gie = true → s.outBuf.count < s.params.outCap) :
    (lineStep tag data l s).Advances LinePhase.left l.left := by
  cases l with
  | h0 => intro q t hq; simp only [lineStep] at hq; split at hq <;> cases hq; decide
  | h1 c d =>
    refine (charStep_advances tag c s h).andThen ?_ ?_
    · intro q hq; simp only [LinePhase.left]; omega
    · intro a q ha; cases ha; cases c <;> simp [LinePhase.left, CharPhase.left]
  | h2 c d =>
    refine (charStep_advances data c s h).andThen ?_ ?_
    · intro q hq; simp only [LinePhase.left]; omega
    · intro a q ha; cases ha; cases c <;> simp [LinePhase.left, CharPhase.left]
  | h3 c d =>
    refine (charStep_advances lineFeed c s h).andThen ?_ ?_
    · intro q hq; simp only [LinePhase.left]; omega
    · intro a q ha; cases ha

/-- A command ended, or went on to a phase of its own with fewer left. -/
def State.WentOn (i : Instr) (n : Nat) (t : State) : Prop :=
  t.fg = .idle ∨ ∃ ph, t.fg = .run i ph ∧ ph.left < n

theorem Sub.Advances.run {π α : Type} {x : Sub π α} {left : π → Nat} {n : Nat} (h : x.Advances left n) {i : Instr}
    {wrap : π → Phase} {fin : α → State → State} {n' : Nat} (hw : ∀ q, left q < n → (wrap q).left < n')
    (hfin : ∀ a u, (fin a u).WentOn i n') (t : State) (ht : x.run i wrap fin = .next t) : t.WentOn i n' := by
  rcases Sub.run_next _ _ _ _ _ ht with ⟨q, u, hx, rfl⟩ | ⟨a, u, -, rfl⟩
  · exact .inr ⟨wrap q, rfl, hw q (h q u hx)⟩
  · exact hfin a u

/-- What a phase that does not wait has: the store ready, the transfer done, room or no interrupts, a byte. -/
theorem State.awaitHolds_true (s : State) (ph : Phase) (h : s.awaitHolds ph = true) :
    (ph.awaitsStore = true → s.nvBusy = false) ∧
    (ph.awaitsStore = false → ph.awaitsTransfer = true → s.spiDone = true) ∧
    (ph.awaitsStore = false → ph.awaitsTransfer = false → ph.awaitsRoom = true → s.gie = true →
      s.outBuf.count < s.params.outCap) ∧
    (ph = .rd1 → s.inBuf.count ≠ 0) := by
  refine ⟨fun ha => ?_, fun ha hb => ?_, fun ha hb hc hg => ?_, fun ha => ?_⟩
  · simpa [State.awaitHolds, ha] using h
  · simpa [State.awaitHolds, ha, hb] using h
  · simpa [State.awaitHolds, ha, hb, hc, hg] using h
  · subst ha; simpa [State.awaitHolds, Phase.awaitsStore, Phase.awaitsTransfer, Phase.awaitsRoom, State.inAvail] using h

/-- A phase whose condition holds ends the command or leads on to a phase with fewer left (R57). -/
theorem exec_advances (i : Instr) (ph : Phase) (s t : State) (hf : s.fg = .run i ph) (hu : s.underWay i ph)
    (hh : s.awaitHolds ph = true) (h : exec i s = .next t) : t.WentOn i ph.left := by
  obtain ⟨hst, htr, hro, hby⟩ := s.awaitHolds_true ph hh
  have idle : ∀ (st : Status) (d : Byte) (n : Nat) (u : State), (u.respond st d).WentOn i n := fun _ _ _ _ => .inl rfl
  cases i <;> simp only [exec, execNvRead, execNvWrite, execNvUpdate, execSpiXfer, execCsSelect, execCsDeselect,
    execPdRegwrite, execPotWrite, execSerInit, execSerWrite, execSerRead, execSerAvail, execSerOverrun, execFacUpdatePd,
    execFacNotify, execFacUpdate, execFacSetWiper, execIrqSuppress, execIrqRestore] at h <;>
    rw [State.foreground_run _ _ _ _ _ hf] at h <;> cases ph <;> (try cases hu; done)
  case nvRead.nvRead addr r =>
    refine (readStep_advances addr r s (by rintro rfl; exact hst rfl)).run (fun _ hq => hq) ?_ t h
    intro a u; cases a <;> exact .inl rfl
  case nvWrite.nvWrite addr v w =>
    exact (writeStep_advances addr v w s (by rintro rfl; exact hst rfl)).run (fun _ hq => hq) (fun _ u => idle _ _ _ u) t h
  case nvUpdate.nvUpdate addr v u =>
    exact (updateStep_advances addr v u s hst).run (fun _ hq => hq) (fun _ u => idle _ _ _ u) t h
  case spiXfer.xfer b x =>
    exact (xferStep_advances b x s (by rintro rfl; exact htr rfl rfl)).run (fun _ hq => hq) (fun _ u => idle _ _ _ u) t h
  case pdRegwrite.pd reg data f =>
    exact (frameStep_advances reg data f s (htr rfl)).run (fun _ hq => Nat.add_lt_add_left hq 10)
      (fun _ u => idle _ _ _ u) t h
  case potWrite.pot w1 w2 q =>
    exact (potStep_advances w1 w2 q s (htr rfl)).run (fun _ hq => hq) (fun _ u => idle _ _ _ u) t h
  case serWrite.char c q =>
    exact (charStep_advances c q s (hro rfl rfl)).run (fun _ hq => hq) (fun _ u => idle _ _ _ u) t h
  case serRead.rd1 => simp only [if_neg (hby rfl)] at h; cases h; exact .inl rfl
  case facUpdatePd.pd reg data f =>
    exact (frameStep_advances reg data f s (htr rfl)).run (fun _ hq => Nat.add_lt_add_left hq 10)
      (fun _ u => idle _ _ _ u) t h
  case facNotify.line tag data l =>
    exact (lineStep_advances tag data l s (hro rfl rfl)).run (fun _ hq => hq) (fun _ u => idle _ _ _ u) t h
  case facUpdate.pd tag reg data f =>
    refine (frameStep_advances reg data f s (htr rfl)).run (fun _ hq => Nat.add_lt_add_left hq 10) ?_ t h
    intro a u; refine .inr ⟨.line .h0, rfl, ?_⟩
    cases f <;> simp only [Phase.left, LinePhase.left, FramePhase.left] <;> omega
  case facUpdate.line tag reg data l =>
    exact (lineStep_advances tag data l s (hro rfl rfl)).run (fun _ hq => hq) (fun _ u => idle _ _ _ u) t h
  case facSetWiper.pot w1 w2 q =>
    exact (potStep_advances w1 w2 q s (htr rfl)).run (fun _ hq => hq) (fun _ u => idle _ _ _ u) t h

end Sys2Proof.Machine
end

