-- ==== Sys2Proof/Tests/Slice0.lean ====
section
/-! SUPPORT. The model's own tests: words written out from the spec's encodings, one-step tests with results from
spec/95_test_vectors.md and the examples of the rules (the vector is named at each), and for every statement with
hypotheses a witness that meets them. The test instantiation is `Config.testParams`. -/

namespace Sys2Proof.Tests

open Sys2Proof.Machine

/-! ### Helpers -/

/-- The block right after reset, in the test instantiation. -/
def rest : State := State.powerOn Config.testParams [] [] 0 0

/-- The same with the transport initialized. -/
def inited : State := { rest with serInited := true, rxIe := true }

/-- The same with interrupts on. -/
def live : State := { inited with gie := true }

/-- The outbound buffer full with `61 62 63 64` (vector T1). -/
def outFull : State := { inited with outBuf := ⟨[0x61, 0x62, 0x63, 0x64], 0, 4⟩, drainIe := true }

/-- The inbound buffer full with `56 0A 7A` (vector T6). -/
def inFull : State := { live with inBuf := ⟨[0x56, 0x0A, 0x7A], 0, 3⟩ }

/-- The state with the sequencer in a phase of a command. -/
def running (s : State) (i : Instr) (ph : Phase) : State := { s with fg := .run i ph }

/-- The next state of an outcome, if it is one. -/
def next? (r : Result) : Option State :=
  match r with
  | .next s => some s
  | .fault _ => none
  | .refused _ => none

/-- The refusal of an outcome, if it is one. -/
def refusal? (r : Result) : Option Refusal :=
  match r with
  | .next _ => none
  | .fault _ => none
  | .refused x => some x

/-! ### Ill-formed words are refused (spec/95_test_vectors.md 2.1, R114, R115) -/

theorem test_reserved_opcode_00 : wordWellFormed 0x00000000 = false ∧ decodeTableWord 32 0x00000000 = none := by decide
theorem test_reserved_opcode_60 : wordWellFormed 0x60000000 = false ∧ decodeTableWord 32 0x60000000 = none := by decide
theorem test_reserved_bit_Z : wordWellFormed 0x32000001 = false ∧ decodeTableWord 32 0x32000001 = none := by decide
theorem test_reserved_bit_A : wordWellFormed 0x10000301 = false ∧ decodeTableWord 32 0x10000301 = none := by decide
theorem test_reserved_bit_B : wordWellFormed 0x20000100 = false ∧ decodeTableWord 32 0x20000100 = none := by decide
theorem test_reserved_bit_P : wordWellFormed 0x21000002 = false ∧ decodeTableWord 32 0x21000002 = none := by decide
theorem test_reserved_bit_BB : wordWellFormed 0x2301027F = false ∧ decodeTableWord 32 0x2301027F = none := by decide
theorem test_reserved_bit_T : wordWellFormed 0x51000003 = false ∧ decodeTableWord 32 0x51000003 = none := by decide

/-! ### Every constructor's word, written out from its format (spec/95_test_vectors.md 2.1, R112, R113) -/

theorem test_word_nvRead : decodeTableWord 32 0x10000300 = some (.nvRead 3) ∧ encode (.nvRead 3) = 0x10000300 := by decide
theorem test_word_nvWrite :
    decodeTableWord 32 0x11000355 = some (.nvWrite 3 0x55) ∧ encode (.nvWrite 3 0x55) = 0x11000355 := by decide
theorem test_word_nvUpdate :
    decodeTableWord 32 0x1200FFAA = some (.nvUpdate 0x00FF 0xAA) ∧ encode (.nvUpdate 0x00FF 0xAA) = 0x1200FFAA := by decide
theorem test_word_spiXfer : decodeTableWord 32 0x2000007F = some (.spiXfer 0x7F) ∧ encode (.spiXfer 0x7F) = 0x2000007F := by decide
theorem test_word_csSelect : decodeTableWord 32 0x21000001 = some (.csSelect .pot) ∧ encode (.csSelect .pot) = 0x21000001 := by decide
theorem test_word_csDeselect : decodeTableWord 32 0x22000000 = some (.csDeselect .pd) ∧ encode (.csDeselect .pd) = 0x22000000 := by decide
theorem test_word_pdRegwrite :
    decodeTableWord 32 0x2300027F = some (.pdRegwrite 0x02 0x7F) ∧ encode (.pdRegwrite 0x02 0x7F) = 0x2300027F := by decide
theorem test_word_potWrite :
    decodeTableWord 32 0x24000040 = some (.potWrite 0x00 0x40) ∧ encode (.potWrite 0x00 0x40) = 0x24000040 := by decide
theorem test_word_serInit :
    decodeTableWord 32 0x30802580 = some (.serInit true 9600) ∧ encode (.serInit true 9600) = 0x30802580 := by decide
theorem test_word_serWrite : decodeTableWord 32 0x31000041 = some (.serWrite 0x41) ∧ encode (.serWrite 0x41) = 0x31000041 := by decide
theorem test_word_serRead : decodeTableWord 32 0x32000000 = some .serRead ∧ encode .serRead = 0x32000000 := by decide
theorem test_word_serAvail : decodeTableWord 32 0x33000000 = some .serAvail ∧ encode .serAvail = 0x33000000 := by decide
theorem test_word_serOverrun : decodeTableWord 32 0x34000000 = some .serOverrun ∧ encode .serOverrun = 0x34000000 := by decide
theorem test_word_facUpdatePd :
    decodeTableWord 32 0x4000027F = some (.facUpdatePd 0x02 0x7F) ∧ encode (.facUpdatePd 0x02 0x7F) = 0x4000027F := by decide
theorem test_word_facNotify :
    decodeTableWord 32 0x4100562A = some (.facNotify 0x56 42) ∧ encode (.facNotify 0x56 42) = 0x4100562A := by decide
theorem test_word_facUpdate :
    decodeTableWord 32 0x4258027F = some (.facUpdate 0x58 0x02 0x7F) ∧ encode (.facUpdate 0x58 0x02 0x7F) = 0x4258027F := by decide
theorem test_word_facSetWiper :
    decodeTableWord 32 0x43000040 = some (.facSetWiper 0x00 0x40) ∧ encode (.facSetWiper 0x00 0x40) = 0x43000040 := by decide
theorem test_word_irqSuppress : decodeTableWord 32 0x50000000 = some .irqSuppress ∧ encode .irqSuppress = 0x50000000 := by decide
theorem test_word_irqRestore :
    decodeTableWord 32 0x51000001 = some (.irqRestore true) ∧ encode (.irqRestore true) = 0x51000001 := by decide

/-- The example of R135, its operands as decimal numbers. -/
theorem test_line_facNotify : (Instr.facNotify 0x56 42).line = "FAC_NOTIFY 86, 42" := by decide +kernel

/-! ### Persistent Store -/

/-- S1: an invalid address ends the command at once although a write is pending (the data byte is free). -/
theorem test_nvRead_invalid :
    (next? (exec (.nvRead 0x0100) { rest with nvBusy := true })).map
      (fun t => (t.fg, t.nvBusy, t.nvAddr, t.nvAccessCount)) = some (.idle, true, 0, 0) := by decide
/-- S2: `NVM[0xFF] = 0x12` is read, the largest address being valid. -/
theorem test_nvRead_largest :
    (next? (exec (.nvRead 0x00FF) (running rest (.nvRead 0x00FF) (.nvRead .nr1)))).map
      (fun t => (t.rsp, t.nvAddr, t.nvAccessCount)) = some (0x0012, 0x00FF, 1) := by decide +kernel
/-- S3: `NV_WRITE 0x0100, 5` answers `0x0100` and changes nothing else. -/
theorem test_nvWrite_invalid : next? (exec (.nvWrite 0x0100 5) rest) = some { rest with rsp := 0x0100 } := by decide +kernel
/-- S4: the write is issued, the cell still holds `FF`. -/
theorem test_nvWrite_issues :
    (next? (exec (.nvWrite 3 0x55) (running rest (.nvWrite 3 0x55) (.nvWrite .w1)))).map
      (fun t => (t.rsp, t.nvBusy, t.cell 3, t.nvWriteCount)) = some (0x0000, true, 0xFF, 1) := by decide +kernel
/-- S5: the cell already equal, no write. -/
theorem test_nvUpdate_equal :
    next? (exec (.nvUpdate 3 0x55) (running rest (.nvUpdate 3 0x55) (.nvUpdate (.u1 0x55)))) = some rest := by decide +kernel
/-- S7: read back `54` where `55` was asked for. -/
theorem test_nvUpdate_verify_fails :
    (next? (exec (.nvUpdate 3 0x55) (running rest (.nvUpdate 3 0x55) (.nvUpdate (.u4 0x54))))).map (·.rsp) =
      some 0x0200 := by decide
/-- S7: the worn cell stores `54`, the write is over. -/
theorem test_nvu_worn :
    (next? (step { rest with agenda := [.nvu (some 0x54)], nvBusy := true, nvAddr := 3, nvData := 0x55 })).map
      (fun t => (t.cell 3, t.nvBusy)) = some (0x54, false) := by decide +kernel

/-! ### Bus Master -/

/-- B6: the byte put out with no peripheral selected. -/
theorem test_spiXfer_starts :
    (next? (exec (.spiXfer 0xA5) rest)).map (fun t => (t.spiData, t.spiBusy, t.spiDone)) =
      some (0xA5, true, false) := by decide
/-- B6: the exchange is recorded with `SEL = NONE` and the byte sent. -/
theorem test_spiu_exchanges :
    (next? (step { rest with agenda := [.spiu 0x3C], spiData := 0xA5, spiBusy := true })).map
      (fun t => (t.busTrace, t.spiData, t.spiBusy, t.spiDone)) =
      some ([.xfer .none 0xA5 0x3C], 0x3C, false, true) := by decide
/-- B6: the byte shifted in is the response. -/
theorem test_spiXfer_answers :
    (next? (exec (.spiXfer 0xA5) (running { rest with spiData := 0x3C, spiDone := true } (.spiXfer 0xA5) (.xfer .x2)))).map
      (fun t => (t.rsp, t.spiDone)) = some (0x003C, false) := by decide
/-- B1: the line of the peripheral device goes low. -/
theorem test_csSelect_pd :
    (next? (exec (.csSelect .pd) rest)).map (fun t => (t.sel, t.sel.csPdN, t.sel.csPot, t.busTrace)) =
      some (.pd, false, false, [.sel .pd]) := by decide
/-- B3: refused while the other one is selected. -/
theorem test_csSelect_other :
    refusal? (exec (.csSelect .pot) { rest with sel := .pd }) = some .otherPeripheralSelected := by decide
/-- B4: deselecting a peripheral that is not selected changes nothing. -/
theorem test_csDeselect_other :
    (next? (exec (.csDeselect .pd) { rest with sel := .pot })).map (fun t => (t.sel, t.sel.csPot, t.busTrace)) =
      some (.pot, true, []) := by decide
/-- B5: the potentiometer deselected. -/
theorem test_csDeselect_pot :
    (next? (exec (.csDeselect .pot) { rest with sel := .pot })).map (fun t => (t.sel, t.sel.csPot, t.busTrace)) =
      some (.none, false, [.desel .pot]) := by decide
/-- B8: the leading delay comes first. -/
theorem test_pdRegwrite_delay :
    (next? (exec (.pdRegwrite 0x02 0x7F) rest)).map (fun t => (t.busTrace, t.sel)) =
      some ([.gap .recover], .none) := by decide
/-- B11: refused while a peripheral is selected. -/
theorem test_pdRegwrite_refused :
    refusal? (exec (.pdRegwrite 1 2) { rest with sel := .pot }) = some .busNotFree := by decide
/-- B10: the potentiometer is selected without a delay, the other line stays high. -/
theorem test_potWrite_selects :
    (next? (exec (.potWrite 0x00 0x40) rest)).map (fun t => (t.busTrace, t.sel.csPot, t.sel.csPdN)) =
      some ([.sel .pot], true, true) := by decide
/-- B10: the second byte goes out in Q2. -/
theorem test_potWrite_second :
    (next? (exec (.potWrite 0x00 0x40) (running { rest with sel := .pot } (.potWrite 0x00 0x40) (.pot (.q2 .x1))))).map
      (fun t => (t.spiData, t.spiBusy)) = some (0x40, true) := by decide

/-! ### Serial Transport -/

/-- `SER_INIT 1, 9600` (R200): `GIE` is not written. -/
theorem test_serInit_writes :
    (next? (exec (.serInit true 9600) rest)).map (fun t => (t.echo, t.baud, t.rxIe, t.serInited, t.gie)) =
      some (true, 9600, true, true, false) := by decide
/-- T16: the second one is refused. -/
theorem test_serInit_twice : refusal? (exec (.serInit false 9600) inited) = some .alreadyInitialized := by decide
/-- T1: the fifth byte is dropped. -/
theorem test_serWrite_dropped :
    next? (exec (.serWrite 0x65) (running outFull (.serWrite 0x65) (.char .v2))) =
      some { outFull with rsp := 0x0300 } := by decide +kernel
/-- T3: the carriage-return takes the last slot, the index wraps. -/
theorem test_serWrite_wraps :
    (next? (exec (.serWrite 0x0A) (running { inited with outBuf := ⟨[1, 2, 3, 0], 3, 3⟩, drainIe := true }
      (.serWrite 0x0A) (.char .v1)))).map (·.outBuf) = some ⟨[1, 2, 3, 0x0D], 0, 4⟩ := by decide
/-- T6: the oldest byte of a full buffer is at the insertion index. -/
theorem test_serRead_oldest :
    (next? (exec .serRead (running inFull .serRead .rd1))).map (fun t => (t.rsp, t.inBuf.head, t.inBuf.count)) =
      some (0x0056, 0, 2) := by decide
/-- T14: an empty buffer is awaited with interrupts off too. -/
theorem test_serRead_waits :
    next? (exec .serRead (running inited .serRead .rd1)) = some (running inited .serRead .rd1) := by decide +kernel
/-- T18: the byte waiting for its handler is not counted. -/
theorem test_serAvail_empty :
    (next? (exec .serAvail { inited with rxFull := true })).map (·.rsp) = some 0x0000 := by decide
/-- T6: a byte is there. -/
theorem test_serAvail_some : (next? (exec .serAvail inFull)).map (·.rsp) = some 0x0001 := by decide
/-- T6: the flag is read and stays. -/
theorem test_serOverrun_sticky :
    (next? (exec .serOverrun { inited with overrun := true })).map (fun t => (t.rsp, t.overrun)) =
      some (0x0001, true) := by decide
/-- T15: refused before initialization. -/
theorem test_serOverrun_refused : refusal? (exec .serOverrun rest) = some .notInitialized := by decide
/-- T2: the drain handler takes slot `(0 - 4) mod 4 = 0`. -/
theorem test_hDrain_oldest :
    (next? (step { outFull with agenda := [.hDrain], gie := true })).map
      (fun t => (t.txData, t.txFull, t.outBuf.count, t.drainIe, t.gie)) = some (0x61, true, 3, true, true) := by decide
/-- K4: not enabled while `GIE = 0`. -/
theorem test_hDrain_masked :
    (next? (step { outFull with agenda := [.hDrain] })).map (fun t => (t.txFull, t.outBuf.count)) =
      some (false, 4) := by decide
/-- T8: a carriage-return is echoed as it stands and stored as a line-feed. -/
theorem test_hRx_echo_cr :
    (next? (step { live with agenda := [.hRx], echo := true, rxData := 0x0D, rxFull := true })).map
      (fun t => (t.outBuf.pending 4, t.inBuf.pending 3, t.drainIe, t.rxFull, t.gie)) =
      some ([0x0D], [0x0A], true, false, true) := by decide
/-- T10b: one free slot takes the carriage-return of an echoed line-feed, the line-feed is dropped and stored inbound. -/
theorem test_hRx_echo_cut :
    (next? (step { live with
      agenda := [.hRx], echo := true, rxData := 0x0A, rxFull := true, outBuf := ⟨[1, 2, 3, 0], 3, 3⟩ })).map
      (fun t => (t.outBuf, t.inBuf.pending 3, t.overrun)) = some (⟨[1, 2, 3, 0x0D], 0, 4⟩, [0x0A], false) := by decide
/-- T6: the fourth byte finds the buffer full. -/
theorem test_hRx_overrun :
    (next? (step { inFull with agenda := [.hRx], rxData := 0x71, rxFull := true })).map
      (fun t => (t.overrun, t.inBuf == inFull.inBuf)) = some (true, true) := by decide
/-- T11: the second byte is lost, the first one kept, `OVERRUN` is not set. -/
theorem test_rxu_lost :
    (next? (step { inited with agenda := [.rxu 0x62], rxData := 0x61, rxFull := true, rxLine := [0x61] })).map
      (fun t => (t.rxData, t.hwRxLost, t.overrun, t.rxLine)) = some (0x61, true, false, [0x61, 0x62]) := by decide

/-! ### Facade and interrupt control -/

/-- F9: the bus needs no initialization. -/
theorem test_facUpdatePd_uninitialized :
    (next? (exec (.facUpdatePd 2 0x7F) rest)).map (·.busTrace) = some [.gap .recover] := by decide
/-- F3: the data byte takes the last slot. -/
theorem test_facNotify_last_slot :
    (next? (exec (.facNotify 0x56 42) (running { inited with outBuf := ⟨[1, 2, 0x56, 0], 3, 3⟩ }
      (.facNotify 0x56 42) (.line (.h2 .v2 false))))).map (fun t => (t.outBuf, t.fg)) =
      some (⟨[1, 2, 0x56, 0x2A], 0, 4⟩, .run (.facNotify 0x56 42) (.line (.h3 .v0 false))) := by decide
/-- F3: the line-feed is dropped, the status says so. -/
theorem test_facNotify_dropped :
    (next? (exec (.facNotify 0x56 42) (running outFull (.facNotify 0x56 42) (.line (.h3 .v2 false))))).map
      (fun t => (t.rsp, t.outBuf == outFull.outBuf)) = some (0x0300, true) := by decide
/-- F8: refused before any bus event. -/
theorem test_facUpdate_refused : refusal? (exec (.facUpdate 0x58 2 0x7F) rest) = some .notInitialized := by decide
/-- R252: after the bus part, the line. -/
theorem test_facUpdate_then_line :
    (next? (exec (.facUpdate 0x58 2 0x7F) (running { inited with sel := .pd } (.facUpdate 0x58 2 0x7F) (.pd .p9)))).map
      (fun t => (t.sel, t.fg)) = some (.none, .run (.facUpdate 0x58 2 0x7F) (.line .h0)) := by decide
/-- F7: as `POT_WRITE`. -/
theorem test_facSetWiper_ends :
    (next? (exec (.facSetWiper 0x00 0x40) (running { rest with sel := .pot } (.facSetWiper 0x00 0x40) (.pot .q3)))).map
      (fun t => (t.sel, t.rsp, t.busTrace)) = some (.none, 0x0000, [.desel .pot]) := by decide
/-- K1: the token is 1. -/
theorem test_irqSuppress_on : (next? (exec .irqSuppress live)).map (fun t => (t.gie, t.rsp)) = some (false, 0x0001) := by decide
/-- K2: the token is 0. -/
theorem test_irqSuppress_off : (next? (exec .irqSuppress rest)).map (fun t => (t.gie, t.rsp)) = some (false, 0x0000) := by decide
/-- R271: `IRQ_RESTORE 1`. -/
theorem test_irqRestore_on : (next? (exec (.irqRestore true) rest)).map (fun t => (t.gie, t.rsp)) = some (true, 0x0000) := by decide
/-- R271: `IRQ_RESTORE 0` with `GIE = 1` suppresses. -/
theorem test_irqRestore_off : (next? (exec (.irqRestore false) live)).map (fun t => (t.gie, t.rsp)) = some (false, 0x0000) := by decide

/-! ### Reset and the program port -/

/-- Z2: the flag is cleared and the pending bytes are lost. -/
theorem test_reset_clears :
    (next? (step { outFull with agenda := [.reset], overrun := true })).map
      (fun t => (t.overrun, t.outBuf.count, t.serInited)) = some (false, 0, false) := by decide
/-- Z1: the cells survive a reset. -/
theorem test_reset_keeps_cells :
    (next? (step { rest with agenda := [.reset], nvm := [(4, 0x11)], gie := true })).map
      (fun t => (t.cell 4, t.cell 0xFF, t.gie)) = some (0x11, 0x12, false) := by decide +kernel
/-- The word placed for the host runs as the first command after reset, whatever the free launch parameters are. -/
theorem test_withFetchWord :
    (next? (step (State.reset.withFetchWord 32 0x51000001))).map (fun t => (t.gie, t.rsp)) = some (true, 0x0000) := by decide

/-! ### Witnesses: states and operands that meet the hypotheses of each statement -/

/-- A state that holds the invariant, in the middle of a byte to the host, one byte to read and a write pending. -/
def busy : State :=
  { live with
    echo := true, outBuf := ⟨[0x61, 0x62, 0, 0], 2, 2⟩, drainIe := true, txData := 0x60, txFull := true,
    inBuf := ⟨[0x56, 0, 0], 1, 1⟩, overrun := true, nvBusy := true, nvAddr := 0xFF, nvData := 7 }

theorem witness_params : rest.params.Legal := by decide +kernel

theorem busy_outBuf : busy.outBuf.Ok 4 := ⟨rfl, by decide, by decide⟩
theorem busy_inBuf : busy.inBuf.Ok 3 := ⟨rfl, by decide, by decide⟩
theorem busy_captured : ∀ b ∈ busy.inBuf.pending 3, b ≠ carriageReturn := by decide
theorem busy_fresh : busy.serInited = false → busy.outBuf.count = 0 ∧ busy.inBuf.count = 0 := by decide
theorem busy_pending : busy.nvBusy = true → addrValid busy.params busy.nvAddr = true := by decide +kernel

/-- The invariant at `busy`, whatever events are pending. -/
theorem witness_inv (es : List Event) : { busy with agenda := es }.Inv :=
  ⟨witness_params, busy_outBuf, busy_inBuf, fun _ => rfl, busy_captured, rfl, busy_fresh, Memory.wf_nil _, busy_pending,
    trivial, ⟨rfl, rfl⟩, rfl⟩

/-- The invariant at `busy` with `SER_READ` under way. -/
theorem witness_inv_read (es : List Event) : (running { busy with agenda := es } .serRead .rd1).Inv :=
  ⟨witness_params, busy_outBuf, busy_inBuf, fun _ => rfl, busy_captured, rfl, busy_fresh, Memory.wf_nil _, busy_pending,
    rfl, ⟨rfl, rfl⟩, rfl⟩

theorem witness_EncodeOfDecodeIsIdentity : decode 0x4258027F = .ok (.facUpdate 0x58 0x02 0x7F) := by decide

theorem witness_DecodeFollowsOpcodeMap :
    (⟨"NV_READ", 0x10000000, 0xFF0000FF⟩ : OpcodeRow) ∈ opcodeMap ∧
    (⟨"IRQ_RESTORE", 0x51000000, 0xFFFFFFFE⟩ : OpcodeRow) ∈ opcodeMap := by decide

theorem witness_ReservedOpcodeIsRefused (w : Word) (h : w = 0x0F000000 ∨ w = 0x13000000 ∨ w = 0x52000000) :
    { rest with agenda := [.command w] }.fg = .idle ∧
    { rest with agenda := [.command w] }.agenda = .command w :: [] ∧
    ∀ r ∈ opcodeMap, r.value.extractLsb' 24 8 ≠ w.extractLsb' 24 8 := by
  refine ⟨rfl, rfl, ?_⟩
  rcases h with rfl | rfl | rfl <;> decide

theorem witness_ReservedBitIsRefused :
    { rest with agenda := [.command 0x10000301] }.agenda = .command 0x10000301 :: [] ∧ rest.fg = .idle ∧
    (⟨"NV_READ", 0x10000000, 0xFF0000FF⟩ : OpcodeRow) ∈ opcodeMap ∧
    (0x10000301#32).extractLsb' 24 8 = (0x10000000#32).extractLsb' 24 8 ∧
    0x10000301#32 &&& 0xFF0000FF#32 ≠ 0x10000000#32 := by decide +kernel

theorem witness_StepRunsPresentedCommand :
    rest.fg = .idle ∧ { rest with agenda := [.command 0x50000000] }.agenda = .command 0x50000000 :: [] ∧
    decode 0x50000000 = .ok .irqSuppress := by decide +kernel

theorem witness_StepRunsCommandUnderWay :
    (running { inited with agenda := [.fg] } .serRead .rd1).agenda = .fg :: [] ∧
    (running { inited with agenda := [.fg] } .serRead .rd1).fg = .run .serRead .rd1 ∧
    { inited with agenda := [.fg] }.fg = .idle := ⟨rfl, rfl, rfl⟩

theorem witness_WordWhileBusyIsRefused :
    (running { inited with agenda := [.command 0] } .serRead .rd1).agenda = .command 0 :: [] ∧
    (running { inited with agenda := [.command 0] } .serRead .rd1).fg = .run .serRead .rd1 := ⟨rfl, rfl⟩

theorem witness_InvalidAddressNoAccess :
    busy.params.maxAddress.toNat < (0x0100#16).toNat ∧ busy.params.maxAddress.toNat < (0xFFFF#16).toNat ∧
    busy.nvBusy = true := by decide +kernel

/-- The largest valid address and address 0, with and without a write pending. -/
theorem witness_NvReadPhases :
    (0xFF#16).toNat ≤ rest.params.maxAddress.toNat ∧ (0#16).toNat ≤ rest.params.maxAddress.toNat ∧
    rest.nvBusy = false ∧ (0xFF#16).toNat ≤ busy.params.maxAddress.toNat ∧ busy.nvBusy = true := by decide +kernel

theorem witness_NvWritePhases :
    (0xFF#16).toNat ≤ rest.params.maxAddress.toNat ∧ (0#16).toNat ≤ rest.params.maxAddress.toNat ∧
    rest.nvBusy = false ∧ (0xFF#16).toNat ≤ busy.params.maxAddress.toNat ∧ busy.nvBusy = true := by decide +kernel

/-- Each clause: address just above the bound; at the bound; a write pending; none pending; equal and unequal bytes. -/
theorem witness_NvUpdateStateMachine :
    rest.params.maxAddress.toNat < (0x0100#16).toNat ∧ (0x00FF#16).toNat ≤ rest.params.maxAddress.toNat ∧
    busy.nvBusy = true ∧ rest.nvBusy = false ∧ (0x55#8 = 0x55#8) ∧ (0x54#8 ≠ 0x55#8) := by decide +kernel

theorem witness_NvuCompletesPendingWrite :
    { busy with agenda := [.nvu none] }.agenda = .nvu none :: [] ∧ busy.nvBusy = true ∧
    busy.nvAddr.toNat ≤ busy.params.maxAddress.toNat ∧ Memory.wf busy.params busy.nvm = true ∧
    { rest with agenda := [.nvu (some 3)] }.agenda = .nvu (some 3) :: [] ∧ rest.nvBusy = false := by decide +kernel

theorem witness_OnlyNvuAndResetChangeCells :
    ∃ t, step { busy with agenda := [.txu] } = .next t ∧ { busy with agenda := [.txu] }.event ≠ .reset ∧
      ∀ worn, { busy with agenda := [.txu] }.event ≠ .nvu worn :=
  ⟨_, rfl, fun h => (nomatch h), fun _ h => (nomatch h)⟩

theorem witness_WriteThenReadReturnsValue :
    inited.fg = .idle ∧ inited.nvBusy = false ∧ (0xFF#16).toNat ≤ inited.params.maxAddress.toNat ∧
    Memory.wf inited.params inited.nvm = true ∧
    ∀ e ∈ [Event.hDrain] ++ [.rxu 0x41, .hRx] ++ [.txu] ++ [.spiu 3], isBackground e = true := by decide +kernel

/-- Without a wait and another agent, and with two waits and the background agents between the phases. -/
theorem witness_UpdateVerifiesWhatWasStored :
    rest.fg = .idle ∧ rest.nvBusy = false ∧ (0xFF#16).toNat ≤ rest.params.maxAddress.toNat ∧
    Memory.wf rest.params rest.nvm = true ∧ rest.cell 0xFF ≠ 0x55 ∧
    Interleaves (List.replicate (4 + 0) .fg ++ .nvu none :: List.replicate (if 0 = 0 then 3 else 2) .fg) isBackground
      [.fg, .fg, .fg, .fg, .nvu none, .fg, .fg, .fg] ∧
    Interleaves (List.replicate (4 + 2) .fg ++ .nvu (some 7) :: List.replicate (if 2 = 0 then 3 else 2) .fg) isBackground
      [.hRx, .fg, .fg, .rxu 0x41, .fg, .fg, .txu, .fg, .fg, .spiu 3, .nvu (some 7), .hDrain, .fg, .fg, .txu] := by
  decide +kernel

/-- Both clauses: the cell holds another byte, and the byte itself; each with other agents between the phases. -/
theorem witness_UpdateTwiceWritesOnce :
    rest.fg = .idle ∧ rest.nvBusy = false ∧ (0xFF#16).toNat ≤ rest.params.maxAddress.toNat ∧
    Memory.wf rest.params rest.nvm = true ∧ rest.cell 0xFF ≠ 0x55 ∧ rest.cell 0xFF = 0x12 ∧
    Interleaves (List.replicate (4 + 1) .fg ++ .nvu none :: List.replicate (if 1 = 0 then 3 else 2) .fg ++
        [.command (encode (.nvUpdate 0xFF 0x55)), .fg, .fg]) isBackground
      [.fg, .hRx, .fg, .fg, .fg, .fg, .nvu none, .txu, .fg, .fg, .spiu 3, .command (encode (.nvUpdate 0xFF 0x55)), .fg,
        .hDrain, .fg] ∧
    Interleaves [.fg, .fg, .command (encode (.nvUpdate 0xFF 0x12)), .fg, .fg] isBackground
      [.fg, .rxu 1, .fg, .command (encode (.nvUpdate 0xFF 0x12)), .fg, .hRx, .fg] := by decide +kernel

theorem witness_SpiXferPhases : rest.spiDone = false ∧ { rest with spiDone := true }.spiDone = true := ⟨rfl, rfl⟩

theorem witness_SpiuExchangesOneByte :
    { rest with agenda := [.spiu 9], spiBusy := true }.agenda = .spiu 9 :: [] ∧
    { rest with agenda := [.spiu 9], spiBusy := true }.spiBusy = true ∧
    { rest with agenda := [.spiu 9] }.agenda = .spiu 9 :: [] ∧ rest.spiBusy = false := ⟨rfl, rfl, rfl, rfl⟩

theorem witness_CsSelectCases :
    rest.sel = .none ∧ { rest with sel := .pd }.sel = (match Periph.pd with | .pd => Sel.pd | .pot => .pot) ∧
    { rest with sel := .pd }.sel = (match Periph.pot with | .pd => Sel.pot | .pot => .pd) := ⟨rfl, rfl, rfl⟩

theorem witness_CsDeselectCases :
    { rest with sel := .pot }.sel = (match Periph.pot with | .pd => Sel.pd | .pot => .pot) ∧
    { rest with sel := .pot }.sel ≠ (match Periph.pd with | .pd => Sel.pd | .pot => .pot) ∧
    rest.sel ≠ (match Periph.pd with | .pd => Sel.pd | .pot => .pot) := by decide

theorem witness_RegisterWritePhases (i : Instr)
    (h : i = .pdRegwrite 1 2 ∨ i = .facUpdatePd 1 2 ∨ i = .facUpdate 0x58 1 2) :
    (i = .pdRegwrite 1 2 ∨ i = .facUpdatePd 1 2 ∨ i = .facUpdate 0x58 1 2) ∧ rest.sel = .none ∧
    rest.spiDone = false ∧ { rest with spiDone := true }.spiDone = true ∧
    Instr.pdRegwrite 1 2 ≠ .facUpdate 0x58 1 2 := ⟨h, rfl, rfl, rfl, by decide⟩

theorem witness_PotentiometerPhases (i : Instr) (h : i = .potWrite 1 2 ∨ i = .facSetWiper 1 2) :
    (i = .potWrite 1 2 ∨ i = .facSetWiper 1 2) ∧ rest.sel = .none ∧ rest.spiDone = false ∧
    { rest with spiDone := true }.spiDone = true := ⟨h, rfl, rfl, rfl⟩

theorem witness_FramingRefusedWhileSelected :
    { inited with sel := .pd }.sel ≠ .none ∧ { inited with sel := .pot }.sel ≠ .none ∧
    { inited with sel := .pot }.serInited = true := by decide

/-- Right after reset but for a write that is pending, to the largest address. -/
def busyNv : State := { rest with nvBusy := true, nvAddr := 0xFF, nvData := 0x55 }

/-- With no wait and no other agent, and with waits, the write engine completing a pending write among the phases. -/
theorem witness_RegisterWriteTenEvents :
    busyNv.fg = .idle ∧ busyNv.sel = .none ∧ busyNv.nvBusy = true ∧ addrValid busyNv.params busyNv.nvAddr = true ∧
    (Instr.facUpdatePd 2 0x7F = .pdRegwrite 2 0x7F ∨ Instr.facUpdatePd 2 0x7F = .facUpdatePd 2 0x7F) ∧
    Interleaves
      (List.replicate (2 + 0) .fg ++ .spiu 1 :: List.replicate (2 + 0) .fg ++ .spiu 2 ::
        List.replicate (5 + 0) .fg ++ .spiu 3 :: List.replicate (2 + 0) .fg ++ .spiu 4 :: [.fg, .fg]) isOffBus
      [.fg, .fg, .spiu 1, .fg, .fg, .spiu 2, .fg, .fg, .fg, .fg, .fg, .spiu 3, .fg, .fg, .spiu 4, .fg, .fg] ∧
    Interleaves
      (List.replicate (2 + 1) .fg ++ .spiu 1 :: List.replicate (2 + 0) .fg ++ .spiu 2 ::
        List.replicate (5 + 2) .fg ++ .spiu 3 :: List.replicate (2 + 0) .fg ++ .spiu 4 :: [.fg, .fg]) isOffBus
      [.fg, .fg, .nvu none, .fg, .spiu 1, .fg, .hRx, .fg, .spiu 2, .fg, .fg, .fg, .fg, .fg, .fg, .txu, .fg, .spiu 3, .fg,
        .fg, .spiu 4, .hDrain, .fg, .fg, .rxu 9] := by decide +kernel

/-- The same for the potentiometer frame. -/
theorem witness_PotentiometerFourEvents :
    busyNv.fg = .idle ∧ busyNv.sel = .none ∧ busyNv.nvBusy = true ∧ addrValid busyNv.params busyNv.nvAddr = true ∧
    (Instr.facSetWiper 0 0x40 = .potWrite 0 0x40 ∨ Instr.facSetWiper 0 0x40 = .facSetWiper 0 0x40) ∧
    Interleaves (List.replicate (1 + 0) .fg ++ .spiu 1 :: List.replicate (2 + 0) .fg ++ .spiu 2 :: [.fg, .fg]) isOffBus
      [.fg, .spiu 1, .fg, .fg, .spiu 2, .fg, .fg] ∧
    Interleaves (List.replicate (1 + 1) .fg ++ .spiu 1 :: List.replicate (2 + 0) .fg ++ .spiu 2 :: [.fg, .fg]) isOffBus
      [.hRx, .fg, .nvu (some 7), .fg, .spiu 1, .txu, .fg, .fg, .spiu 2, .fg, .rxu 9, .fg] := by decide +kernel

theorem witness_SerInitOnce : rest.serInited = false ∧ inited.serInited = true := ⟨rfl, rfl⟩

theorem witness_SerialRefusedBeforeInit : rest.serInited = false := rfl

/-- Each clause: initialized; one slot free; no slot free with interrupts off and on. -/
theorem witness_SerWritePhases :
    inited.serInited = true ∧ { inited with outBuf := ⟨[1, 2, 3, 0], 3, 3⟩ }.outBuf.count < inited.params.outCap ∧
    outFull.params.outCap ≤ outFull.outBuf.count ∧ outFull.gie = false ∧
    { outFull with gie := true }.gie = true := by decide

/-- Each clause: initialized; empty; full, the oldest byte at the insertion index. -/
theorem witness_SerReadPhases :
    inited.serInited = true ∧ inited.inBuf.count = 0 ∧ 0 < inFull.inBuf.count ∧
    inFull.inBuf.slots[(inFull.inBuf.head + inFull.params.inCap - inFull.inBuf.count) % inFull.params.inCap]? =
      some 0x56 := by decide

theorem witness_SerAvailAnswers : inited.serInited = true ∧ inFull.serInited = true := ⟨rfl, rfl⟩

theorem witness_SerOverrunAnswers : inited.serInited = true ∧ { inited with overrun := true }.serInited = true := ⟨rfl, rfl⟩

/-- Each clause: a full buffer; an empty one; each reason not to be enabled. -/
theorem witness_DrainHandlerStep :
    { outFull with agenda := [.hDrain], gie := true }.agenda = .hDrain :: [] ∧ outFull.drainIe = true ∧
    outFull.txFull = false ∧ 0 < outFull.outBuf.count ∧
    outFull.outBuf.slots[(outFull.outBuf.head + outFull.params.outCap - outFull.outBuf.count) %
      outFull.params.outCap]? = some 0x61 ∧
    { live with drainIe := true }.drainIe = true ∧ live.gie = true ∧ live.txFull = false ∧ live.outBuf.count = 0 ∧
    outFull.gie = false ∧ live.drainIe = false ∧ busy.txFull = true := by decide

/-- Each clause: room; none left; each reason not to be enabled. -/
theorem witness_ReceiveHandlerStep :
    { live with agenda := [.hRx], rxFull := true }.agenda = .hRx :: [] ∧ live.gie = true ∧ live.rxIe = true ∧
    { live with rxFull := true }.rxFull = true ∧ live.echo = false ∧ live.inBuf.count < live.params.inCap ∧
    inFull.gie = true ∧ inFull.rxIe = true ∧ inFull.echo = false ∧ inFull.params.inCap ≤ inFull.inBuf.count ∧
    inited.gie = false ∧ rest.rxIe = false ∧ live.rxFull = false := by decide

theorem witness_EchoQueuesByteAsReceived :
    { live with agenda := [.hRx], rxFull := true, echo := true, rxData := 0x0A }.agenda = .hRx :: [] ∧
    live.gie = true ∧ live.rxIe = true ∧ { live with rxFull := true }.rxFull = true ∧
    { live with echo := true }.echo = true ∧ live.outBuf.Ok live.params.outCap ∧
    outFull.outBuf.Ok outFull.params.outCap :=
  ⟨rfl, rfl, rfl, rfl, rfl, ⟨rfl, by decide, by decide⟩, ⟨rfl, by decide, by decide⟩⟩

theorem witness_TransmitterStep :
    { busy with agenda := [.txu] }.agenda = .txu :: [] ∧ busy.txFull = true ∧
    { rest with agenda := [.txu] }.agenda = .txu :: [] ∧ rest.txFull = false := ⟨rfl, rfl, rfl, rfl⟩

theorem witness_ReceiverStep :
    { inited with agenda := [.rxu 1] }.agenda = .rxu 1 :: [] ∧ inited.serInited = true ∧ inited.rxFull = false ∧
    { inited with rxFull := true }.rxFull = true ∧
    { rest with agenda := [.rxu 1] }.agenda = .rxu 1 :: [] ∧ rest.serInited = false := ⟨rfl, rfl, rfl, rfl, rfl, rfl⟩

/-- Each row of R216: idle, tail, draining with room, draining full, and `H_DRAIN` from each. -/
theorem witness_OutputDirectionTransitions :
    1 ≤ inited.params.outCap ∧ inited.outDirection = .idle ∧ { inited with drainIe := true }.outDirection = .tail ∧
    { inited with outBuf := ⟨[1, 2, 3, 0], 3, 3⟩, drainIe := true }.outDirection = .draining ∧
    { inited with outBuf := ⟨[1, 2, 3, 0], 3, 3⟩ }.outBuf.count < inited.params.outCap ∧
    outFull.outDirection = .draining ∧ outFull.outBuf.count = outFull.params.outCap ∧
    { outFull with gie := true, agenda := [.hDrain] }.gie = true ∧ outFull.txFull = false ∧
    { outFull with gie := true, agenda := [.hDrain] }.agenda = [.hDrain] ∧ 1 < outFull.outBuf.count ∧
    { inited with outBuf := ⟨[1, 0, 0, 0], 1, 1⟩, drainIe := true }.outDirection = .draining ∧
    { inited with outBuf := ⟨[1, 0, 0, 0], 1, 1⟩ }.outBuf.count = 1 := by decide

theorem witness_FullBufferDropsNextByte :
    inited.fg = .idle ∧ inited.gie = false ∧ inited.serInited = true ∧ inited.outBuf.Ok inited.params.outCap ∧
    inited.outBuf.count = 0 ∧ [0x61#8, 0x62, 0x63, 0x64].length = inited.params.outCap ∧
    ∀ b ∈ [0x61#8, 0x62, 0x63, 0x64] ++ [0x65], b ≠ 0x0A#8 :=
  ⟨rfl, rfl, rfl, ⟨rfl, by decide, by decide⟩, rfl, rfl, by decide⟩

theorem witness_DrainSendsPendingInOrder :
    outFull.outBuf.Ok outFull.params.outCap ∧ { outFull with gie := true }.gie = true ∧ outFull.drainIe = true ∧
    outFull.txFull = false := ⟨⟨rfl, by decide, by decide⟩, rfl, rfl, rfl⟩

/-- A step of the transmitter, and a phase of the command under way. -/
theorem witness_OutboundStreamOnlyGrows :
    ({ busy with agenda := [.txu] }.Inv ∧ (∃ t, step { busy with agenda := [.txu] } = .next t) ∧
      { busy with agenda := [.txu] }.event ≠ .reset ∧ { busy with agenda := [.txu] }.event ≠ .hRx ∧
      { busy with agenda := [.txu] }.event ≠ .fg) ∧
    ((running { busy with agenda := [.fg] } .serRead .rd1).Inv ∧
      ∃ t, step (running { busy with agenda := [.fg] } .serRead .rd1) = .next t) :=
  ⟨⟨witness_inv _, ⟨_, rfl⟩, fun h => (nomatch h), fun h => (nomatch h), fun h => (nomatch h)⟩,
    witness_inv_read _, ⟨_, rfl⟩⟩

theorem witness_InboundStreamIsFifo :
    (running { busy with agenda := [.fg] } .serRead .rd1).Inv ∧
    (∃ t, step (running { busy with agenda := [.fg] } .serRead .rd1) = .next t) ∧
    (running { busy with agenda := [.fg] } .serRead .rd1).event ≠ .reset :=
  ⟨witness_inv_read _, ⟨_, rfl⟩, fun h => (nomatch h)⟩

theorem witness_OverrunIsSticky :
    (∃ t, step { busy with agenda := [.hDrain] } = .next t) ∧ { busy with agenda := [.hDrain] }.event ≠ .reset ∧
    busy.overrun = true := ⟨⟨_, rfl⟩, fun h => (nomatch h), rfl⟩

/-- Each clause: initialized; one slot free; none free with interrupts off and on. -/
theorem witness_NotifyPhases :
    (Instr.facNotify 0x56 42 = .facNotify 0x56 42 ∨ Instr.facNotify 0x56 42 = .facUpdate 0x56 2 42) ∧
    (Instr.facUpdate 0x56 2 42 = .facNotify 0x56 42 ∨ Instr.facUpdate 0x56 2 42 = .facUpdate 0x56 2 42) ∧
    inited.serInited = true ∧ { inited with outBuf := ⟨[1, 2, 3, 0], 3, 3⟩ }.outBuf.count < inited.params.outCap ∧
    outFull.params.outCap ≤ outFull.outBuf.count ∧ outFull.gie = false ∧ { outFull with gie := true }.gie = true := by
  decide

/-- The line fits exactly (F4), and is cut (F3). -/
theorem witness_NotifyQueuesWhatFits :
    inited.fg = .idle ∧ inited.gie = false ∧ inited.serInited = true ∧ inited.outBuf.Ok inited.params.outCap ∧
    inited.params.outCap - inited.outBuf.count = 4 ∧
    { inited with outBuf := ⟨[1, 2, 0, 0], 2, 2⟩ }.outBuf.Ok inited.params.outCap :=
  ⟨rfl, rfl, rfl, ⟨rfl, by decide, by decide⟩, rfl, ⟨rfl, by decide, by decide⟩⟩

theorem witness_FacUpdateTestsFirst :
    inited.serInited = true ∧ inited.sel = .none ∧ rest.serInited = false ∧ { inited with sel := .pd }.sel ≠ .none := by
  decide

/-- The events of a mirrored update with one wait, other agents but `H_RX` among them. -/
def mirrored : List Event :=
  [.fg, .txu, .fg, .fg, .fg, .spiu 1, .fg, .fg, .spiu 2, .fg, .fg, .fg, .fg, .fg, .spiu 3, .fg, .fg, .spiu 4,
    .fg, .fg, .fg, .fg, .fg, .fg, .hDrain, .fg, .fg, .rxu 9, .fg, .fg]

/-- With echo off and the receive handler among the phases; with echo on, no run of it, and a transfer awaited. -/
theorem witness_FacUpdateMirrorsToHost :
    live.fg = .idle ∧ live.sel = .none ∧ live.serInited = true ∧ live.outBuf.Ok live.params.outCap ∧
    live.outBuf.count + 4 ≤ live.params.outCap ∧ (0x58#8 ≠ 0x0A) ∧ (0x7F#8 ≠ 0x0A) ∧ live.nvBusy = false ∧
    live.echo = false ∧
    Interleaves
      (List.replicate (3 + 0) .fg ++ .spiu 1 :: List.replicate (2 + 0) .fg ++ .spiu 2 ::
        List.replicate (5 + 0) .fg ++ .spiu 3 :: List.replicate (2 + 0) .fg ++ .spiu 4 :: List.replicate 10 .fg) isOffBus
      [.fg, .fg, .fg, .rxu 9, .spiu 1, .fg, .hRx, .fg, .spiu 2, .fg, .fg, .fg, .fg, .fg, .spiu 3, .fg, .fg, .spiu 4,
        .fg, .fg, .fg, .fg, .fg, .fg, .hDrain, .fg, .fg, .txu, .fg, .fg] ∧
    (Event.hRx ∉ mirrored) ∧
    Interleaves
      (List.replicate (3 + 1) .fg ++ .spiu 1 :: List.replicate (2 + 0) .fg ++ .spiu 2 ::
        List.replicate (5 + 0) .fg ++ .spiu 3 :: List.replicate (2 + 0) .fg ++ .spiu 4 :: List.replicate 10 .fg) isOffBus
      mirrored :=
  ⟨rfl, rfl, rfl, ⟨rfl, by decide, by decide⟩, by decide, by decide, by decide, rfl, rfl, by decide, by decide,
    by decide⟩

theorem witness_NestedSuppressRestore : live.fg = .idle ∧ rest.fg = .idle := ⟨rfl, rfl⟩

/-- Each conclusion: a reset, a suppress and a restore that change `GIE`. -/
theorem witness_OnlyIrqCommandsChangeGie :
    (∃ t, step { live with agenda := [.reset] } = .next t ∧ t.gie ≠ { live with agenda := [.reset] }.gie) ∧
    (∃ t, step { live with agenda := [.command 0x50000000] } = .next t ∧ t.gie ≠ live.gie) ∧
    (∃ t, step { rest with agenda := [.command 0x51000001] } = .next t ∧ t.gie ≠ rest.gie) :=
  ⟨⟨_, rfl, by decide⟩, ⟨_, rfl, by decide⟩, ⟨_, rfl, by decide⟩⟩

/-- By the port, from a state with everything under way. -/
theorem witness_ConditionAfterReset :
    { busy with agenda := [.reset] }.event = .reset ∧ ∃ t, step { busy with agenda := [.reset] } = .next t :=
  ⟨rfl, _, rfl⟩

/-- With a write pending to the largest address, and with none. -/
theorem witness_ResetKeepsCells :
    { busy with agenda := [.reset] }.agenda = .reset :: [] ∧ Memory.wf busy.params busy.nvm = true ∧
    busy.nvBusy = true ∧ (4#16 ≠ busy.nvAddr) ∧ { rest with agenda := [.reset] }.agenda = .reset :: [] ∧
    Memory.wf rest.params rest.nvm = true ∧ rest.nvBusy = false := by decide +kernel

theorem witness_ConfigurationIsImmutable :
    (∃ t, step { live with agenda := [.hRx] } = .next t) ∧ { live with agenda := [.hRx] }.event ≠ .reset ∧
    live.serInited = true := ⟨⟨_, rfl⟩, fun h => (nomatch h), rfl⟩

theorem witness_StepKeepsInvariant :
    (running { busy with agenda := [.fg] } .serRead .rd1).Inv ∧
    ∃ t, step (running { busy with agenda := [.fg] } .serRead .rd1) = .next t := ⟨witness_inv_read _, ⟨_, rfl⟩⟩

theorem witness_StepNeverFaults : { busy with agenda := [.nvu none] }.Inv := witness_inv _

theorem witness_AcceptedCommandNeverRefused :
    (running { busy with agenda := [.fg] } .serRead .rd1).Inv ∧
    ∀ w, (running { busy with agenda := [.fg] } .serRead .rd1).event ≠ .command w :=
  ⟨witness_inv_read _, fun _ h => (nomatch h)⟩

/-- `live` with a command under way, a transfer or a write pending. -/
def liveWith (f : Fg) (es : List Event) (y w : Bool) : State :=
  { live with fg := f, agenda := es, spiBusy := y, nvBusy := w }

theorem live_outBuf : live.outBuf.Ok 4 := ⟨rfl, by decide, by decide⟩
theorem live_inBuf : live.inBuf.Ok 3 := ⟨rfl, by decide, by decide⟩
theorem live_captured : ∀ b ∈ live.inBuf.pending 3, b ≠ carriageReturn := by decide

theorem liveWith_inv (f : Fg) (es : List Event) (y w : Bool) (hq : (liveWith f es y w).SequencerOk)
    (ht : (liveWith f es y w).TransferOk) : (liveWith f es y w).Inv :=
  ⟨witness_params, live_outBuf, live_inBuf, fun h => absurd h (Nat.lt_irrefl 0), live_captured, rfl,
    fun _ => ⟨rfl, rfl⟩, Memory.wf_nil _, fun _ => rfl, hq, ht, rfl⟩

/-- Every premise of each clause, at runs that stop at a reserved word once the command has ended: the wait of `NV_READ`
for a pending write; `SPI_XFER` with a transfer under way, in a run fair to `SPIU`; `SER_READ` with a byte to come. -/
theorem witness_EnabledStepsAreEventuallyTaken :
    (∃ s : State, s.Inv ∧ s.fg = .run (.nvRead 3) (.nvRead .nr1) ∧ s.nvBusy = true ∧
      s.after 3 fun t => t.fg = .idle ∧ t.rsp = 0x00FF) ∧
    (∃ s : State, s.Inv ∧ s.fg = .run (.spiXfer 5) (.xfer .x2) ∧ s.spiBusy = true ∧ s.WeaklyFair .spiu ∧
      (s.after 1 fun t => t.spiBusy = false) ∧ s.after 2 fun t => t.fg = .idle ∧ t.rsp = 0x0009) ∧
    (∃ s : State, s.Inv ∧ s.fg = .run .serRead .rd1 ∧ (s.Eventually fun t => 0 < t.inBuf.count) ∧
      s.after 3 fun t => t.fg = .idle ∧ t.rsp = 0x0056) :=
  ⟨⟨liveWith (.run (.nvRead 3) (.nvRead .nr1)) [.fg, .nvu none, .fg, .command 0x00000000] false true,
      liveWith_inv _ _ _ _ rfl ⟨rfl, rfl⟩, rfl, rfl, rfl, rfl⟩,
    ⟨liveWith (.run (.spiXfer 5) (.xfer .x2)) [.spiu 9, .fg, .command 0x00000000] true false,
      liveWith_inv _ _ _ _ trivial ⟨rfl, rfl⟩, rfl, rfl,
      State.WeaklyFair.of_refused (m := 3) (r := .reservedOpcode 0) rfl, rfl, rfl, rfl⟩,
    ⟨liveWith (.run .serRead .rd1) [.rxu 0x56, .hRx, .fg, .command 0x00000000] false false,
      liveWith_inv _ _ _ _ rfl ⟨rfl, rfl⟩, rfl, ⟨2, (by decide : 0 < 1)⟩, rfl, rfl⟩⟩

/-- R14, R306: the free order comes back to `TXU`, to `NVU` and to `FG`. -/
theorem test_order_is_fair :
    (∃ n, 5 ≤ n ∧ (Config.arbiter n).agent = some .txu) ∧ (∃ n, 7 ≤ n ∧ (Config.arbiter n).agent = some .nvu) ∧
    (∃ n, 9 ≤ n ∧ (Config.arbiter n).agent = some .fg) :=
  ⟨Config.order.fair .txu rfl 5, Config.order.fair .nvu rfl 7, Config.order.fair .fg rfl 9⟩

/-- R13, R306: an `FG` whose turn came while it awaited a byte steps as soon as the byte is there, before the next turn;
while it awaits, the turn goes on. -/
theorem test_foreground_is_owed_its_step :
    { running inFull .serRead .rd1 with fgDue := true }.event = .fg ∧
    { running inFull .serRead .rd1 with fgDue := true }.takeEvent = running inFull .serRead .rd1 ∧
    { running live .serRead .rd1 with fgDue := true, turn := 3 }.event = Config.arbiter 3 ∧
    { running live .serRead .rd1 with fgDue := true, turn := 3 }.takeEvent =
      { running live .serRead .rd1 with fgDue := true, turn := 4 } := ⟨rfl, rfl, rfl, rfl⟩

end Sys2Proof.Tests
end

/-! PROOF. What a step of the foreground runs (R10, R57, R60). -/

namespace Sys2Proof.Machine

/-- Settles O8: the event taken is `FG`'s, and its command is the one under way. -/
theorem stepRunsCommandUnderWay : Obligations.StepRunsCommandUnderWay := by
  intro s es ha
  have hev : s.event = .fg := s.event_cons _ _ ha
  have htk : s.takeEvent = { s with agenda := es } := s.takeEvent_cons _ _ ha
  refine ⟨fun i ph hf => ?_, fun hf => ?_⟩
  · simp [step, hev, htk, commandOf, hf]
  · simp [step, hev, htk, commandOf, hf, agentStep]

end Sys2Proof.Machine

/-! PROOF. The invariant of the block (R57, R178, R220, R221): one rule per operation and per atomic step of an inner phase
sequence, saying what each needs of the state and what it leaves. -/

namespace Sys2Proof.Machine

/-! ### The invariant apart from the sequencer -/

/-- The parts of `State.Inv` that do not look at the sequencer: `awaits` says whether the command under way awaits a
transfer, the one thing of the sequencer the others depend on (R51). `inv_iff` ties it to the invariant. -/
structure State.Sound (s : State) (awaits : Bool) : Prop where
  params : s.params.Legal
  outBuf : s.outBuf.Ok s.params.outCap
  inBuf : s.inBuf.Ok s.params.inCap
  drain : 0 < s.outBuf.count → s.drainIe = true
  captured : ∀ b ∈ s.inBuf.pending s.params.inCap, b ≠ carriageReturn
  receive : s.rxIe = s.serInited
  fresh : s.serInited = false → s.outBuf.count = 0 ∧ s.inBuf.count = 0
  cells : Memory.wf s.params s.nvm = true
  pending : s.nvBusy = true → addrValid s.params s.nvAddr = true
  transfer : (s.spiBusy || s.spiDone) = awaits ∧ (s.spiBusy && s.spiDone) = false
  trace : replay s.busTrace = some s.sel

theorem State.inv_iff (s : State) : s.Inv ↔ s.Sound s.fg.awaitsTransfer ∧ s.SequencerOk := by
  constructor
  · intro h; exact ⟨{ h with }, h.sequencer⟩
  · rintro ⟨h, hq⟩; exact { h with sequencer := hq }

/-- A command under way is in one of its phases (R57). -/
theorem State.Inv.underWay {s : State} {i : Instr} {ph : Phase} (h : s.Inv) (hf : s.fg = .run i ph) :
    s.underWay i ph := by
  have hq := h.sequencer
  unfold State.SequencerOk at hq
  rwa [hf] at hq

/-- A command that goes on to one of its phases, in a state sound for that phase. -/
theorem State.Sound.goto {s : State} {i : Instr} {ph : Phase} (h : s.Sound ph.awaitsTransfer)
    (hu : s.underWay i ph) : (s.goto i ph).Inv :=
  (State.inv_iff _).2 ⟨{ h with }, hu⟩

/-- A command that ends with no transfer under way. -/
theorem State.Sound.respond {s : State} (h : s.Sound false) (st : Status) (d : Byte) : (s.respond st d).Inv :=
  (State.inv_iff _).2 ⟨{ h with }, trivial⟩

/-- The sequencer stays in order where what its phases need of the state stays. -/
theorem State.SequencerOk.congr {s t : State} (h : s.SequencerOk) (hf : t.fg = s.fg) (hp : t.params = s.params)
    (hs : t.sel = s.sel) (hi : t.serInited = s.serInited) : t.SequencerOk := by
  unfold State.SequencerOk at h ⊢
  rw [hf]
  cases hfg : s.fg with
  | idle => trivial
  | run i ph =>
    rw [hfg] at h
    delta State.underWay at h ⊢
    rw [hp, hs, hi]
    exact h

/-- Taking an event changes only what comes next. -/
theorem State.Inv.takeEvent {s : State} (h : s.Inv) : s.takeEvent.Inv := by
  refine (State.inv_iff _).2 ⟨?_, h.sequencer.congr (by simp) (by simp) (by simp) (by simp)⟩
  have hs := ((State.inv_iff s).1 h).1
  rw [State.takeEvent_fg]
  unfold State.takeEvent
  split
  · exact { hs with }
  · split <;> exact { hs with }

/-! ### The buffers, the bus trace and the cells under the invariant -/

/-- An enqueue to the outbound buffer, once initialized (R201). -/
theorem State.Sound.enqueued {s : State} {w : Bool} (h : s.Sound w) (b : Byte) (ie : Bool)
    (hi : s.serInited = true) (hc : s.outBuf.count < s.params.outCap) : (s.enqueued b ie).Sound w :=
  { h with
    outBuf := Ring.ok_enqueue _ b _ h.outBuf hc
    drain := fun _ => rfl
    fresh := fun hn => by rw [show (s.enqueued b ie).serInited = s.serInited from rfl, hi] at hn; cases hn }

/-- A dequeue from the outbound buffer (R212). -/
theorem State.Sound.dequeueOut {s : State} {w : Bool} (h : s.Sound w) :
    { s with outBuf := s.outBuf.dequeue }.Sound w :=
  { h with
    outBuf := Ring.ok_dequeue _ _ h.outBuf
    drain := fun hc => h.drain (Nat.lt_of_lt_of_le hc (Nat.sub_le _ _))
    fresh := fun hn => ⟨by simp [Ring.dequeue, (h.fresh hn).1], (h.fresh hn).2⟩ }

/-- A dequeue from the inbound buffer (R203). -/
theorem State.Sound.dequeueIn {s : State} {w : Bool} (h : s.Sound w) (hc : 0 < s.inBuf.count) :
    { s with inBuf := s.inBuf.dequeue }.Sound w :=
  { h with
    inBuf := Ring.ok_dequeue _ _ h.inBuf
    captured := fun b hb => h.captured b (by
      rw [Ring.pending_dequeue _ _ h.inBuf hc]; exact List.mem_cons_of_mem _ hb)
    fresh := fun hn => ⟨(h.fresh hn).1, by simp [Ring.dequeue, (h.fresh hn).2]⟩ }

/-- The capture of a received byte, once initialized (R213). -/
theorem State.Sound.capture {s : State} {w : Bool} (h : s.Sound w) (c : Byte) (hi : s.serInited = true) :
    (capture c s).Sound w := by
  rcases capture_cases c s with ⟨hc, e⟩ | ⟨-, e⟩ <;> rw [e]
  · refine { h with
      inBuf := Ring.ok_enqueue _ _ _ h.inBuf hc
      captured := fun b hb => ?_
      fresh := fun hn => by rw [show s.serInited = false from hn] at hi; cases hi }
    rw [Ring.pending_enqueue _ _ _ h.inBuf hc, List.mem_append, List.mem_singleton] at hb
    rcases hb with hb | rfl
    · exact h.captured b hb
    · exact storedByte_ne c
  · exact { h with }

theorem replay_append (t : List BusEvent) (e : BusEvent) :
    replay (t ++ [e]) = (replay t).bind fun cur => replayEvent cur e := by
  simp [replay, List.foldlM_append]

/-- A bus event that may follow at the present selection (R52, R178). -/
theorem State.Sound.busEvent {s : State} {w : Bool} (h : s.Sound w) (e : BusEvent) (x : Sel)
    (he : replayEvent s.sel e = some x) : { s with sel := x, busTrace := s.busTrace ++ [e] }.Sound w :=
  { h with trace := by rw [replay_append, h.trace]; exact he }

theorem State.Sound.gap {s : State} {w : Bool} (h : s.Sound w) (k : GapKind) (hs : s.sel = .none) :
    (s.traceBus (.gap k)).Sound w := by
  have := h.busEvent (.gap k) s.sel (by simp [replayEvent, hs])
  exact this

theorem State.Sound.driveActive {s : State} {w : Bool} (h : s.Sound w) (p : Periph) (hs : s.sel = .none) :
    (s.driveActive p).Sound w :=
  h.busEvent (.sel p) (selOfPeriph p) (by simp [replayEvent, hs])

theorem State.Sound.driveInactive {s : State} {w : Bool} (h : s.Sound w) (p : Periph) (hs : s.sel = selOfPeriph p) :
    (s.driveInactive p).Sound w :=
  h.busEvent (.desel p) .none (by simp [replayEvent, hs])

/-- The block right after a reset, or a power-on, with cells in canonical form (R64). -/
theorem State.powerOn_sound (p : Params) (nvm : Memory) (es : List Event) (d n : Nat) (hp : p.Legal)
    (hm : Memory.wf p nvm = true) : (State.powerOn p nvm es d n).Sound false where
  params := hp
  outBuf := Ring.ok_empty _ _ hp.1 (List.length_replicate ..)
  inBuf := Ring.ok_empty _ _ hp.2.1 (List.length_replicate ..)
  drain := fun h => absurd h (Nat.lt_irrefl 0)
  captured := fun b hb => by
    rw [Ring.pending_of_count_zero _ _ rfl] at hb; cases hb
  receive := rfl
  fresh := fun _ => ⟨rfl, rfl⟩
  cells := hm
  pending := fun h => by cases h
  transfer := ⟨rfl, rfl⟩
  trace := rfl

/-! ### One atomic step of each inner phase sequence -/

/-- Where an inner sequence does not stop: `more` holds of the phase it goes on at, `done` of the value it returns, each
with the state it leaves. -/
def Sub.Meets {π α : Type} (x : Sub π α) (more : π → State → Prop) (done : α → State → Prop) : Prop :=
  ∀ p t, x = .ok p t → match p with
    | .more q => more q t
    | .done a => done a t

theorem Sub.Meets.andThen {π α ρ β : Type} {x : Sub π α} {m : π → State → Prop} {d : α → State → Prop}
    (h : x.Meets m d) {wrap : π → ρ} {follow : α → Progress ρ β} {m' : ρ → State → Prop} {d' : β → State → Prop}
    (hw : ∀ q t, m q t → m' (wrap q) t)
    (hf : ∀ a t, d a t → (∀ q, follow a = .more q → m' q t) ∧ (∀ b, follow a = .done b → d' b t)) :
    (x.andThen wrap follow).Meets m' d' := by
  intro p t ht
  rcases Sub.andThen_ok _ _ _ _ _ ht with ⟨q, hq, rfl⟩ | ⟨a, hq, rfl⟩
  · exact hw q t (h _ _ hq)
  · obtain ⟨hmore, hdone⟩ := hf a t (h _ _ hq)
    cases hp : follow a with
    | more q => exact hmore q hp
    | done b => exact hdone b hp

theorem Sub.Meets.run {π α : Type} {x : Sub π α} {m : π → State → Prop} {d : α → State → Prop} (h : x.Meets m d)
    {i : Instr} {wrap : π → Phase} {fin : α → State → State} {t : State} (ht : x.run i wrap fin = .next t)
    (hw : ∀ q u, m q u → (u.goto i (wrap q)).Inv) (hf : ∀ a u, d a u → (fin a u).Inv) : t.Inv := by
  rcases Sub.run_next _ _ _ _ _ ht with ⟨q, u, hq, rfl⟩ | ⟨a, u, hq, rfl⟩
  · exact hw q u (h _ _ hq)
  · exact hf a u (h _ _ hq)

theorem State.nvRead_valid {s : State} {a : Addr} {b : Byte} (h : s.nvRead a = some b) :
    addrValid s.params a = true := by
  unfold State.nvRead at h; split at h
  · assumption
  · cases h

/-- NR0, NR1 (R141): past the bound check the address is valid. -/
theorem readStep_meets (addr : Addr) (r : ReadPhase) (s : State) (h : s.Sound false)
    (hv : r = .nr1 → addrValid s.params addr = true) :
    (readStep addr r s).Meets (fun q t => q = .nr1 ∧ t.Sound false ∧ addrValid t.params addr = true)
      (fun a t => t.Sound false ∧ (a ≠ none → addrValid t.params addr = true)) := by
  intro p t ht
  rcases readStep_ok _ _ _ _ _ ht with ⟨-, rfl, ⟨ha, rfl⟩ | ⟨-, rfl⟩⟩ | ⟨hr, -, rfl, rfl⟩ | ⟨b, -, hb, hr, rfl, rfl⟩
  · exact ⟨rfl, h, ha⟩
  · exact ⟨h, fun hn => absurd rfl hn⟩
  · exact ⟨rfl, h, hv hr⟩
  · have ha : addrValid s.params addr = true := State.nvRead_valid hr
    exact ⟨{ h with pending := fun _ => ha }, fun _ => ha⟩

/-- W0, W1 (R142): a write is issued to a valid address only. -/
theorem writeStep_meets (addr : Addr) (v : Byte) (w : WritePhase) (s : State) (h : s.Sound false)
    (hv : w = .w1 → addrValid s.params addr = true) :
    (writeStep addr v w s).Meets (fun q t => q = .w1 ∧ t.Sound false ∧ addrValid t.params addr = true)
      (fun st t => t.Sound false ∧ (st = .success → addrValid t.params addr = true)) := by
  intro p t ht
  rcases writeStep_ok _ _ _ _ _ _ ht with ⟨-, rfl, ⟨ha, rfl⟩ | ⟨-, rfl⟩⟩ | ⟨hw, -, rfl, rfl⟩ | ⟨hw, -, rfl, rfl⟩
  · exact ⟨rfl, h, ha⟩
  · exact ⟨h, fun hn => by cases hn⟩
  · exact ⟨rfl, h, hv hw⟩
  · exact ⟨{ h with pending := fun _ => hv hw }, fun _ => hv hw⟩

/-- U0 to U4 (R143). -/
theorem updateStep_meets (addr : Addr) (v : Byte) (u : UpdatePhase) (s : State) (h : s.Sound false)
    (hv : u ≠ .u0 .nr0 → addrValid s.params addr = true) :
    (updateStep addr v u s).Meets (fun _ t => t.Sound false ∧ addrValid t.params addr = true)
      (fun _ t => t.Sound false) := by
  cases u with
  | u0 r =>
    refine (readStep_meets addr r s h (by rintro rfl; exact hv (by simp))).andThen (fun _ _ hq => hq.2) ?_
    rintro (_ | b) t ⟨ht, ha⟩
    · exact ⟨nofun, fun _ _ => ht⟩
    · exact ⟨fun _ _ => ⟨ht, ha (by simp)⟩, nofun⟩
  | u1 cur =>
    rintro p t ht
    cases ht
    split
    · next hp => split at hp <;> cases hp; exact ⟨h, hv (by simp)⟩
    · exact h
  | u2 w =>
    refine (writeStep_meets addr v w s h (fun _ => hv (by simp))).andThen (fun _ _ hq => hq.2) ?_
    rintro st t ⟨ht, ha⟩
    refine ⟨fun q hq => ?_, fun _ _ => ht⟩
    split at hq
    · next hst => exact ⟨ht, ha hst⟩
    · cases hq
  | u3 r =>
    refine (readStep_meets addr r s h (fun _ => hv (by simp))).andThen (fun _ _ hq => hq.2) ?_
    rintro (_ | b) t ⟨ht, ha⟩
    · exact ⟨nofun, fun _ _ => ht⟩
    · exact ⟨fun _ _ => ⟨ht, ha (by simp)⟩, nofun⟩
  | u4 rb => rintro p t ht; cases ht; exact h

/-- X1, X2 (R172): a transfer is under way exactly in X2; the selection and the configuration stay. -/
theorem xferStep_meets (b : Byte) (x : XferPhase) (s : State) (h : s.Sound (Phase.xfer x).awaitsTransfer) :
    (xferStep b x s).Meets
      (fun q t => q = .x2 ∧ t.Sound true ∧ t.sel = s.sel ∧ t.serInited = s.serInited)
      (fun _ t => t.Sound false ∧ t.sel = s.sel ∧ t.serInited = s.serInited) := by
  intro p t ht
  rcases xferStep_ok _ _ _ _ _ ht with ⟨rfl, rfl, rfl⟩ | ⟨rfl, -, rfl, rfl⟩ | ⟨rfl, hd, rfl, rfl⟩
  · exact ⟨rfl, { h with transfer := ⟨rfl, rfl⟩ }, rfl, rfl⟩
  · exact ⟨rfl, h, rfl, rfl⟩
  · have hb : s.spiBusy = false := by simpa [hd] using h.transfer.2
    exact ⟨{ h with transfer := by simp [hb] }, rfl, rfl⟩

/-- A transfer phase inside a frame: while it lasts the frame stays in it, then the frame goes on at a phase that awaits
no transfer, with the same line active. -/
theorem xferStep_inside {ρ β : Type} (b : Byte) (x : XferPhase) (s : State) (wrap : XferPhase → ρ) (next : ρ)
    (more : ρ → State → Prop) (done : β → State → Prop) (h : s.Sound (Phase.xfer x).awaitsTransfer)
    (hwrap : ∀ t : State, t.Sound true → t.sel = s.sel → t.serInited = s.serInited → more (wrap .x2) t)
    (hnext : ∀ t : State, t.Sound false → t.sel = s.sel → t.serInited = s.serInited → more next t) :
    ((xferStep b x s).andThen wrap fun _ => .more next).Meets more done := by
  refine (xferStep_meets b x s h).andThen ?_ ?_
  · rintro _ t ⟨rfl, ht, hs, hi⟩; exact hwrap t ht hs hi
  · rintro _ t ⟨ht, hs, hi⟩
    exact ⟨fun q hq => by cases hq; exact hnext t ht hs hi, nofun⟩

/-- What a frame leaves where it goes on at phase `f`: the selection of that phase, and a transfer under way exactly
where the phase awaits one (R176). -/
structure FramePhase.Stands (s : State) (f : FramePhase) (t : State) : Prop where
  sound : t.Sound (Phase.pd f).awaitsTransfer
  sel : t.sel = f.selection
  inited : t.serInited = s.serInited

/-- P0 to P9 (R176). -/
theorem frameStep_meets (reg data : Byte) (f : FramePhase) (s : State) (h : s.Sound (Phase.pd f).awaitsTransfer)
    (hs : f ≠ .p0 → s.sel = f.selection) :
    (frameStep reg data f s).Meets (FramePhase.Stands s) (fun _ t => t.Sound false ∧ t.serInited = s.serInited) := by
  cases f with
  | p0 =>
    intro p t ht
    simp only [frameStep] at ht
    split at ht
    · next hn => cases ht; exact ⟨h.gap .recover hn, hn, rfl⟩
    · cases ht
  | p1 => intro p t ht; cases ht; exact ⟨h.driveActive .pd (hs (by simp)), rfl, rfl⟩
  | p2 x =>
    exact xferStep_inside reg x s FramePhase.p2 (.p3 .x1) _ _ (by cases x <;> exact h)
      (fun t ht hts hti => ⟨ht, hts.trans (hs (by simp)), hti⟩) fun t ht hts hti => ⟨ht, hts.trans (hs (by simp)), hti⟩
  | p3 x =>
    exact xferStep_inside data x s FramePhase.p3 .p4 _ _ (by cases x <;> exact h)
      (fun t ht hts hti => ⟨ht, hts.trans (hs (by simp)), hti⟩) fun t ht hts hti => ⟨ht, hts.trans (hs (by simp)), hti⟩
  | p4 => intro p t ht; cases ht; exact ⟨h.driveInactive .pd (hs (by simp)), rfl, rfl⟩
  | p5 => intro p t ht; cases ht; exact ⟨h.gap .commit (hs (by simp)), hs (by simp), rfl⟩
  | p6 => intro p t ht; cases ht; exact ⟨h.driveActive .pd (hs (by simp)), rfl, rfl⟩
  | p7 x =>
    exact xferStep_inside commitMarker x s FramePhase.p7 (.p8 .x1) _ _ (by cases x <;> exact h)
      (fun t ht hts hti => ⟨ht, hts.trans (hs (by simp)), hti⟩) fun t ht hts hti => ⟨ht, hts.trans (hs (by simp)), hti⟩
  | p8 x =>
    exact xferStep_inside commitData x s FramePhase.p8 .p9 _ _ (by cases x <;> exact h)
      (fun t ht hts hti => ⟨ht, hts.trans (hs (by simp)), hti⟩) fun t ht hts hti => ⟨ht, hts.trans (hs (by simp)), hti⟩
  | p9 => intro p t ht; cases ht; exact ⟨h.driveInactive .pd (hs (by simp)), rfl⟩

/-- Q0 to Q3 (R177). -/
theorem potStep_meets (w1 w2 : Byte) (q : PotPhase) (s : State) (h : s.Sound (Phase.pot q).awaitsTransfer)
    (hs : q ≠ .q0 → s.sel = q.selection) :
    (potStep w1 w2 q s).Meets (fun q' t => t.Sound (Phase.pot q').awaitsTransfer ∧ t.sel = q'.selection)
      (fun _ t => t.Sound false) := by
  cases q with
  | q0 =>
    intro p t ht
    simp only [potStep] at ht
    split at ht
    · next hn => cases ht; exact ⟨h.driveActive .pot hn, rfl⟩
    · cases ht
  | q1 x =>
    exact xferStep_inside w1 x s PotPhase.q1 (.q2 .x1) _ _ (by cases x <;> exact h)
      (fun t ht hts _ => ⟨ht, hts.trans (hs (by simp))⟩) fun t ht hts _ => ⟨ht, hts.trans (hs (by simp))⟩
  | q2 x =>
    exact xferStep_inside w2 x s PotPhase.q2 .q3 _ _ (by cases x <;> exact h)
      (fun t ht hts _ => ⟨ht, hts.trans (hs (by simp))⟩) fun t ht hts _ => ⟨ht, hts.trans (hs (by simp))⟩
  | q3 => intro p t ht; cases ht; exact h.driveInactive .pot (hs (by simp))

/-- An enabled enqueue of the foreground, once initialized. -/
theorem State.Sound.putByte {s t : State} {w : Bool} {b : Byte} {ie : Bool} {r : PutResult} (h : s.Sound w)
    (hi : s.serInited = true) (hp : s.putByte b ie = some (r, t)) : t.Sound w ∧ t.serInited = true := by
  rcases State.putByte_some _ _ _ _ _ hp with ⟨-, hc, rfl⟩ | ⟨-, -, -, rfl⟩
  · exact ⟨h.enqueued b ie hi hc, hi⟩
  · exact ⟨h, hi⟩

/-- V0 to V2 (R202): past V0 the transport is initialized. -/
theorem charStep_meets (c : Byte) (q : CharPhase) (s : State) (h : s.Sound false) (hi : q ≠ .v0 → s.serInited = true) :
    (charStep c q s).Meets (fun _ t => t.Sound false ∧ t.serInited = true)
      (fun _ t => t.Sound false ∧ t.serInited = true) := by
  intro p t ht
  rcases charStep_ok _ _ _ _ _ ht with ⟨-, hs, rfl, rfl⟩ | ⟨hq, -, -, rfl, rfl⟩ | ⟨rfl, rfl, r, hp⟩ | ⟨r, rfl, rfl, hp⟩
  · exact ⟨h, hs⟩
  · exact ⟨h, hi hq⟩
  · exact h.putByte (hi (by simp)) hp
  · exact h.putByte (hi (by simp)) hp

/-- H0 to H3 (R251): past H0 the transport is initialized. -/
theorem lineStep_meets (tag data : Byte) (l : LinePhase) (s : State) (h : s.Sound false)
    (hi : l ≠ .h0 → s.serInited = true) :
    (lineStep tag data l s).Meets (fun _ t => t.Sound false ∧ t.serInited = true)
      (fun _ t => t.Sound false) := by
  cases l with
  | h0 =>
    intro p t ht
    simp only [lineStep] at ht
    split at ht
    · next hs => cases ht; exact ⟨h, hs⟩
    · cases ht
  | h1 c d =>
    exact (charStep_meets tag c s h fun _ => hi (by simp)).andThen (fun _ _ ht => ht)
      fun _ t ht => ⟨fun _ _ => ht, nofun⟩
  | h2 c d =>
    exact (charStep_meets data c s h fun _ => hi (by simp)).andThen (fun _ _ ht => ht)
      fun _ t ht => ⟨fun _ _ => ht, nofun⟩
  | h3 c d =>
    exact (charStep_meets lineFeed c s h fun _ => hi (by simp)).andThen (fun _ _ ht => ht)
      fun _ t ht => ⟨nofun, fun _ _ => ht.1⟩

end Sys2Proof.Machine

/-! PROOF. Every step keeps the invariant: each command by the rules of its inner sequences, each agent, and a reset. -/

namespace Sys2Proof.Machine

/-! ### Every step keeps the invariant -/

/-- A command of the foreground shape keeps the invariant where each of its phases does: its first one, which awaits no
transfer, or one it is under way in. -/
theorem State.Inv.foreground {s t : State} {i : Instr} {first : Phase} {body : Phase → Result} (h : s.Inv)
    (ht : s.foreground i first body = .next t) (hfirst : first.awaitsTransfer = false)
    (hbody : ∀ ph, s.Sound ph.awaitsTransfer → (ph ≠ first → s.underWay i ph) → body ph = .next t → t.Inv) : t.Inv := by
  have hs := ((State.inv_iff s).1 h).1
  rcases State.foreground_cases i first body s with ⟨hf, e⟩ | ⟨ph, hf, e⟩ | ⟨j, ph, -, -, e⟩ <;> rw [e] at ht
  · rw [hf] at hs
    exact hbody first (by rw [hfirst]; exact hs) (fun hn => absurd rfl hn) ht
  · rw [hf] at hs
    exact hbody ph hs (fun _ => h.underWay hf) ht
  · cases ht

/-- The frame of `PD_REGWRITE`, of `FAC_UPDATE_PD` and of part J1 of `FAC_UPDATE` (R176, R250, R252). -/
theorem frameStep_run_inv {reg data : Byte} {f : FramePhase} {s t : State} {i : Instr} {fin : Unit → State → State}
    (h : s.Sound (Phase.pd f).awaitsTransfer) (hs : f ≠ .p0 → s.sel = f.selection)
    (ht : (frameStep reg data f s).run i .pd fin = .next t)
    (hu : ∀ (u : State) (g : FramePhase), u.sel = g.selection → u.serInited = s.serInited → u.underWay i (.pd g))
    (hfin : ∀ u : State, u.Sound false → u.serInited = s.serInited → (fin () u).Inv) : t.Inv :=
  (frameStep_meets reg data f s h hs).run ht (fun g u hg => hg.sound.goto (hu u g hg.sel hg.inited))
    fun _ u hd => hfin u hd.1 hd.2

/-- The frame of `POT_WRITE` and of `FAC_SET_WIPER` (R177, R253). -/
theorem potStep_run_inv {w1 w2 : Byte} {q : PotPhase} {s t : State} {i : Instr}
    (h : s.Sound (Phase.pot q).awaitsTransfer) (hs : q ≠ .q0 → s.sel = q.selection)
    (ht : (potStep w1 w2 q s).run i .pot (fun _ u => u.respond .success 0x00) = .next t)
    (hu : ∀ (u : State) (g : PotPhase), u.sel = g.selection → u.underWay i (.pot g)) : t.Inv :=
  (potStep_meets w1 w2 q s h hs).run ht (fun g u hg => hg.1.goto (hu u g hg.2)) fun _ _ hd => hd.respond _ _

/-- The line of `FAC_NOTIFY` and of part J2 of `FAC_UPDATE` (R251, R252). -/
theorem lineStep_run_inv {tag data : Byte} {l : LinePhase} {s t : State} {i : Instr} (h : s.Sound false)
    (hi : l ≠ .h0 → s.serInited = true)
    (ht : (lineStep tag data l s).run i .line (fun d u => u.respond (writeStatus d) 0x00) = .next t)
    (hu : ∀ (u : State) (g : LinePhase), u.serInited = true → u.underWay i (.line g)) : t.Inv :=
  (lineStep_meets tag data l s h hi).run ht (fun g u hg => hg.1.goto (hu u g hg.2)) fun _ _ hd => hd.respond _ _

theorem execNvRead_keeps_inv (addr : Addr) (s t : State) (h : s.Inv) (ht : execNvRead addr s = .next t) : t.Inv := by
  refine h.foreground ht rfl fun ph hs hu hb => ?_
  cases ph with
  | nvRead r =>
    refine (readStep_meets addr r s hs (by rintro rfl; exact hu (by simp))).run hb ?_ ?_
    · rintro _ u ⟨rfl, hq, ha⟩; exact State.Sound.goto hq ha
    · rintro (_ | b) u ⟨hd, -⟩
      · exact State.Sound.respond (s := u.draw) { hd with } _ _
      · exact hd.respond _ _
  | _ => cases hb

theorem execNvWrite_keeps_inv (addr : Addr) (v : Byte) (s t : State) (h : s.Inv)
    (ht : execNvWrite addr v s = .next t) : t.Inv := by
  refine h.foreground ht rfl fun ph hs hu hb => ?_
  cases ph with
  | nvWrite w =>
    refine (writeStep_meets addr v w s hs (by rintro rfl; exact hu (by simp))).run hb ?_ fun _ u hd => hd.1.respond _ _
    rintro _ u ⟨rfl, hq, ha⟩; exact State.Sound.goto hq ha
  | _ => cases hb

/-- No phase of an update awaits a transfer. -/
theorem execNvUpdate_keeps_inv (addr : Addr) (v : Byte) (s t : State) (h : s.Inv)
    (ht : execNvUpdate addr v s = .next t) : t.Inv := by
  refine h.foreground ht rfl fun ph hs hu hb => ?_
  cases ph with
  | nvUpdate x =>
    exact (updateStep_meets addr v x s hs fun hn => hu (by simpa using hn)).run hb
      (fun q u hq => State.Sound.goto hq.1 hq.2) fun _ u hd => hd.respond _ _
  | _ => cases hb

theorem execSpiXfer_keeps_inv (b : Byte) (s t : State) (h : s.Inv) (ht : execSpiXfer b s = .next t) : t.Inv := by
  refine h.foreground ht rfl fun ph hs hu hb => ?_
  cases ph with
  | xfer x =>
    refine (xferStep_meets b x s hs).run hb ?_ fun _ u hd => hd.1.respond _ _
    rintro _ u ⟨rfl, hq, -⟩; exact State.Sound.goto hq trivial
  | _ => cases hb

theorem execCsSelect_keeps_inv (p : Periph) (s t : State) (h : s.Inv) (ht : execCsSelect p s = .next t) : t.Inv := by
  refine h.foreground ht rfl fun ph hs hu hb => ?_
  cases ph with
  | s0 =>
    dsimp only at hb
    split at hb
    · next hn => cases hb; exact (State.Sound.driveActive hs p hn).respond _ _
    · split at hb <;> cases hb
      exact State.Sound.respond hs _ _
  | _ => cases hb

theorem execCsDeselect_keeps_inv (p : Periph) (s t : State) (h : s.Inv)
    (ht : execCsDeselect p s = .next t) : t.Inv := by
  refine h.foreground ht rfl fun ph hs hu hb => ?_
  cases ph with
  | d0 =>
    cases hb
    split
    · next hn => exact (State.Sound.driveInactive hs p hn).respond _ _
    · exact State.Sound.respond hs _ _
  | _ => cases hb

theorem execPdRegwrite_keeps_inv (reg data : Byte) (s t : State) (h : s.Inv)
    (ht : execPdRegwrite reg data s = .next t) : t.Inv := by
  refine h.foreground ht rfl fun ph hs hu hb => ?_
  cases ph with
  | pd f =>
    exact frameStep_run_inv hs (fun hn => hu (by simpa using hn)) hb (fun _ _ hg _ => hg) fun u hd _ => hd.respond _ _
  | _ => cases hb

theorem execPotWrite_keeps_inv (w1 w2 : Byte) (s t : State) (h : s.Inv)
    (ht : execPotWrite w1 w2 s = .next t) : t.Inv := by
  refine h.foreground ht rfl fun ph hs hu hb => ?_
  cases ph with
  | pot q => exact potStep_run_inv hs (fun hn => hu (by simpa using hn)) hb fun _ _ hg => hg
  | _ => cases hb

/-- Initialization empties the buffers and enables the receive interrupt (R200). -/
theorem execSerInit_keeps_inv (e : Bool) (baud : BitVec 23) (s t : State) (h : s.Inv)
    (ht : execSerInit e baud s = .next t) : t.Inv := by
  refine h.foreground ht rfl fun ph hs hu hb => ?_
  cases ph with
  | i0 =>
    have hs : s.Sound false := hs
    dsimp only at hb
    split at hb <;> cases hb
    refine State.Sound.respond (?_ : State.Sound _ false) _ _
    exact { hs with
      outBuf := Ring.ok_empty _ _ hs.params.1 hs.outBuf.1
      inBuf := Ring.ok_empty _ _ hs.params.2.1 hs.inBuf.1
      drain := fun hc => absurd hc (Nat.lt_irrefl 0)
      captured := fun b hb => by rw [Ring.pending_of_count_zero _ _ rfl] at hb; cases hb
      receive := rfl
      fresh := fun hn => by cases hn }
  | _ => cases hb

theorem execSerWrite_keeps_inv (c : Byte) (s t : State) (h : s.Inv) (ht : execSerWrite c s = .next t) : t.Inv := by
  refine h.foreground ht rfl fun ph hs hu hb => ?_
  cases ph with
  | char q =>
    exact (charStep_meets c q s hs fun hn => hu (by simpa using hn)).run hb
      (fun q u hq => State.Sound.goto hq.1 hq.2) fun _ u hd => hd.1.respond _ _
  | _ => cases hb

/-- A read past RD0 is of an initialized transport, and dequeues only a byte that is there (R203). -/
theorem execSerRead_keeps_inv (s t : State) (h : s.Inv) (ht : execSerRead s = .next t) : t.Inv := by
  refine h.foreground ht rfl fun ph hs hu hb => ?_
  cases ph with
  | rd0 =>
    dsimp only at hb
    split at hb <;> cases hb
    next hi => exact State.Sound.goto hs hi
  | rd1 =>
    cases hb
    split
    · exact State.Sound.goto hs (hu (by simp))
    · next hc =>
      refine State.Sound.respond (?_ : State.Sound _ false) _ _
      exact { State.Sound.dequeueIn hs (Nat.pos_of_ne_zero hc) with }
  | _ => cases hb

theorem execSerAvail_keeps_inv (s t : State) (h : s.Inv) (ht : execSerAvail s = .next t) : t.Inv := by
  refine h.foreground ht rfl fun ph hs hu hb => ?_
  cases ph with
  | a0 =>
    dsimp only at hb
    split at hb <;> cases hb
    exact State.Sound.respond hs _ _
  | _ => cases hb

theorem execSerOverrun_keeps_inv (s t : State) (h : s.Inv) (ht : execSerOverrun s = .next t) : t.Inv := by
  refine h.foreground ht rfl fun ph hs hu hb => ?_
  cases ph with
  | o0 =>
    dsimp only at hb
    split at hb <;> cases hb
    exact State.Sound.respond hs _ _
  | _ => cases hb

theorem execFacUpdatePd_keeps_inv (reg data : Byte) (s t : State) (h : s.Inv)
    (ht : execFacUpdatePd reg data s = .next t) : t.Inv := by
  refine h.foreground ht rfl fun ph hs hu hb => ?_
  cases ph with
  | pd f =>
    exact frameStep_run_inv hs (fun hn => hu (by simpa using hn)) hb (fun _ _ hg _ => hg) fun u hd _ => hd.respond _ _
  | _ => cases hb

theorem execFacNotify_keeps_inv (tag data : Byte) (s t : State) (h : s.Inv)
    (ht : execFacNotify tag data s = .next t) : t.Inv := by
  refine h.foreground ht rfl fun ph hs hu hb => ?_
  cases ph with
  | line l => exact lineStep_run_inv hs (fun hn => hu (by simpa using hn)) hb fun _ _ hg => hg
  | _ => cases hb

/-- The bus part leads on to the line, which finds the transport still initialized (R252). -/
theorem execFacUpdate_keeps_inv (tag reg data : Byte) (s t : State) (h : s.Inv)
    (ht : execFacUpdate tag reg data s = .next t) : t.Inv := by
  refine h.foreground ht rfl fun ph hs hu hb => ?_
  cases ph with
  | j0 =>
    dsimp only at hb
    split at hb
    · cases hb
    · next hi =>
      split at hb <;> cases hb
      next hn => exact State.Sound.goto hs ⟨by simpa using hi, hn⟩
  | pd f =>
    obtain ⟨hi, hsel⟩ : s.serInited = true ∧ s.sel = f.selection := hu (by simp)
    exact frameStep_run_inv hs (fun _ => hsel) hb (fun _ _ hg hgi => ⟨hgi.trans hi, hg⟩)
      fun u hd hui => State.Sound.goto hd (hui.trans hi)
  | line l => exact lineStep_run_inv hs (fun _ => hu (by simp)) hb fun _ _ hg => hg
  | _ => cases hb

theorem execFacSetWiper_keeps_inv (w1 w2 : Byte) (s t : State) (h : s.Inv) (ht : execFacSetWiper w1 w2 s = .next t) : t.Inv := by
  refine h.foreground ht rfl fun ph hs hu hb => ?_
  cases ph with
  | pot q => exact potStep_run_inv hs (fun hn => hu (by simpa using hn)) hb fun _ _ hg => hg
  | _ => cases hb

theorem execIrqSuppress_keeps_inv (s t : State) (h : s.Inv) (ht : execIrqSuppress s = .next t) : t.Inv := by
  refine h.foreground ht rfl fun ph hs hu hb => ?_
  cases ph with
  | k0 => cases hb; exact State.Sound.respond (s := { s with gie := false }) { hs with } _ _
  | _ => cases hb

theorem execIrqRestore_keeps_inv (tok : Bool) (s t : State) (h : s.Inv)
    (ht : execIrqRestore tok s = .next t) : t.Inv := by
  refine h.foreground ht rfl fun ph hs hu hb => ?_
  cases ph with
  | l0 => cases hb; exact State.Sound.respond (s := { s with gie := tok }) { hs with } _ _
  | _ => cases hb

/-- A phase of a command keeps the invariant. -/
theorem exec_keeps_inv (i : Instr) (s t : State) (h : s.Inv) (ht : exec i s = .next t) : t.Inv := by
  cases i with
  | nvRead addr => exact execNvRead_keeps_inv addr s t h ht
  | nvWrite addr v => exact execNvWrite_keeps_inv addr v s t h ht
  | nvUpdate addr v => exact execNvUpdate_keeps_inv addr v s t h ht
  | spiXfer b => exact execSpiXfer_keeps_inv b s t h ht
  | csSelect p => exact execCsSelect_keeps_inv p s t h ht
  | csDeselect p => exact execCsDeselect_keeps_inv p s t h ht
  | pdRegwrite reg data => exact execPdRegwrite_keeps_inv reg data s t h ht
  | potWrite w1 w2 => exact execPotWrite_keeps_inv w1 w2 s t h ht
  | serInit e baud => exact execSerInit_keeps_inv e baud s t h ht
  | serWrite c => exact execSerWrite_keeps_inv c s t h ht
  | serRead => exact execSerRead_keeps_inv s t h ht
  | serAvail => exact execSerAvail_keeps_inv s t h ht
  | serOverrun => exact execSerOverrun_keeps_inv s t h ht
  | facUpdatePd reg data => exact execFacUpdatePd_keeps_inv reg data s t h ht
  | facNotify tag data => exact execFacNotify_keeps_inv tag data s t h ht
  | facUpdate tag reg data => exact execFacUpdate_keeps_inv tag reg data s t h ht
  | facSetWiper w1 w2 => exact execFacSetWiper_keeps_inv w1 w2 s t h ht
  | irqSuppress => exact execIrqSuppress_keeps_inv s t h ht
  | irqRestore tok => exact execIrqRestore_keeps_inv tok s t h ht

/-! ### The agents beside the foreground -/

/-- `H_DRAIN`: a pending byte leaves, or the empty buffer disables the interrupt (R212, R221). -/
theorem State.Sound.drainHandler {s : State} {w : Bool} (h : s.Sound w) : (drainHandler s).Sound w := by
  rcases drainHandler_cases s with ⟨-, e⟩ | ⟨-, hc, e⟩ | ⟨-, -, e⟩ <;> rw [e]
  · exact h
  · exact { h with drain := fun hn => absurd hc (Nat.pos_iff_ne_zero.1 hn) }
  · exact { h.dequeueOut with }

theorem State.Sound.putOrDrop {s : State} {w : Bool} (h : s.Sound w) (b : Byte) (hi : s.serInited = true) :
    (s.putOrDrop b).Sound w ∧ (s.putOrDrop b).serInited = true := by
  rw [State.putOrDrop_eq]
  split
  · next hc => exact ⟨h.enqueued b false hi hc, hi⟩
  · exact ⟨h, hi⟩

theorem State.Sound.echoChar {s : State} {w : Bool} (h : s.Sound w) (b : Byte) (hi : s.serInited = true) :
    (s.echoChar b).Sound w ∧ (s.echoChar b).serInited = true := by
  unfold State.echoChar
  split
  · obtain ⟨h', hi'⟩ := h.putOrDrop carriageReturn hi
    exact h'.putOrDrop b hi'
  · exact h.putOrDrop b hi

/-- `H_RX`, enabled only once initialized, echoes and captures (R213, R46). -/
theorem State.Sound.rxHandler {s : State} {w : Bool} (h : s.Sound w) : (rxHandler s).Sound w := by
  have inited : s.rxEnabled = true → s.serInited = true := by
    intro he
    rw [← h.receive]
    simp only [State.rxEnabled, Bool.and_eq_true] at he
    exact he.1.2
  have taken : { s with rxFull := false, gie := false }.Sound w := { h with }
  rcases rxHandler_cases s with ⟨-, e⟩ | ⟨he, -, e⟩ | ⟨he, -, e⟩ <;> rw [e]
  · exact h
  · exact { taken.capture s.rxData (inited he) with }
  · obtain ⟨h', hi'⟩ := taken.echoChar s.rxData (inited he)
    exact { h'.capture s.rxData hi' with }

/-- Everything an event of `SPIU` can do: pass, or complete the transfer under way (R171). -/
theorem spiuStep_cases (m : Byte) (s : State) :
    (s.spiBusy = false ∧ spiuStep m s = s) ∨
    (s.spiBusy = true ∧ spiuStep m s =
      { s.traceBus (.xfer s.sel s.spiData m) with spiData := m, spiBusy := false, spiDone := true }) := by
  unfold spiuStep
  cases s.spiBusy <;> simp

theorem State.Sound.spiuStep {s : State} {w : Bool} (h : s.Sound w) (m : Byte) : (spiuStep m s).Sound w := by
  rcases spiuStep_cases m s with ⟨-, e⟩ | ⟨hb, e⟩ <;> rw [e]
  · exact h
  · have hw : w = true := by rw [← h.transfer.1, hb]; rfl
    exact { h.busEvent (.xfer s.sel s.spiData m) s.sel (by simp [replayEvent]) with transfer := ⟨hw.symm, rfl⟩ }

/-- The agents but the foreground keep what is sound, and what the sequencer's phases need; a reset makes it anew. -/
theorem agentStep_keeps_inv (e : Event) (s t : State) (h : s.Inv) (ht : agentStep e s = .next t) : t.Inv := by
  obtain ⟨hs, hq⟩ := (State.inv_iff s).1 h
  have kept : ∀ u : State, u.Sound s.fg.awaitsTransfer → u.fg = s.fg → u.params = s.params → u.sel = s.sel →
      u.serInited = s.serInited → u.Inv := by
    intro u hu hf hp hsel hi
    exact (State.inv_iff u).2 ⟨by rw [hf]; exact hu, hq.congr hf hp hsel hi⟩
  cases e with
  | command w => cases ht; exact h
  | fg => cases ht; exact h
  | hDrain =>
    cases ht
    obtain ⟨ob, d, f, x, e⟩ := drainHandler_frame s
    exact kept _ hs.drainHandler (by rw [e]) (by rw [e]) (by rw [e]) (by rw [e])
  | hRx =>
    cases ht
    obtain ⟨ob, ib, d, o, f, -, e⟩ := rxHandler_frame s
    exact kept _ hs.rxHandler (by rw [e]) (by rw [e]) (by rw [e]) (by rw [e])
  | txu =>
    cases ht
    unfold txuStep
    split
    · exact kept _ { hs with } rfl rfl rfl rfl
    · exact h
  | rxu b =>
    cases ht
    unfold rxuStep
    split
    · split <;> exact kept _ { hs with } rfl rfl rfl rfl
    · exact h
  | spiu m =>
    cases ht
    rcases spiuStep_cases m s with ⟨-, e⟩ | ⟨-, e⟩
    · rw [e]; exact h
    · exact kept _ (hs.spiuStep m) (by rw [e]; rfl) (by rw [e]; rfl) (by rw [e]; rfl) (by rw [e]; rfl)
  | nvu worn =>
    rcases nvuStep_cases worn s with ⟨-, e⟩ | ⟨-, hv, e⟩ | ⟨-, -, e⟩ <;> rw [agentStep, e] at ht <;> cases ht
    · exact h
    · refine kept _ ?_ rfl rfl rfl rfl
      exact { hs with
        cells := Memory.wf_write _ _ _ _ hs.cells (by simpa [addrValid] using hv)
        pending := fun hn => by cases hn }
  | reset =>
    cases ht
    rcases resetBlock_cases s with ⟨d, -, hv, e⟩ | ⟨-, e⟩ <;> rw [e] <;> refine (State.inv_iff _).2 ⟨?_, trivial⟩
    · exact State.powerOn_sound _ _ _ _ _ hs.params
        (Memory.wf_write _ _ _ _ hs.cells (by simpa [addrValid] using hv))
    · exact State.powerOn_sound _ _ _ _ _ hs.params hs.cells

/-- Every step keeps the invariant. -/
theorem step_keeps_inv (s t : State) (h : s.Inv) (ht : step s = .next t) : t.Inv := by
  rcases step_next s t ht with ⟨i, -, hx⟩ | ⟨-, ha⟩
  · exact exec_keeps_inv i _ _ h.takeEvent hx
  · exact agentStep_keeps_inv _ _ _ h.takeEvent ha

end Sys2Proof.Machine

/-! PROOF. Fairness, and the end of every command (R14, R291, R306). -/

namespace Sys2Proof.Machine

/-! ### The fair agents (R14, R291) -/

/-- What every state comes to, a run comes to again and again. -/
theorem State.comes_again {P : State → Prop} (h : ∀ u : State, u.Eventually P) (s : State) (n : Nat) :
    ∃ m, n ≤ m ∧ s.after m P := by
  cases hr : Host.Core.run Sys2Proof.core n s with
  | next u =>
    obtain ⟨k, hk⟩ := h u
    refine ⟨n + k, Nat.le_add_right n k, (State.after_add s n k P).2 ?_⟩
    unfold State.after; rw [hr]; exact hk
  | fault f => exact ⟨n, Nat.le_refl n, by unfold State.after; rw [hr]; trivial⟩
  | refused r => exact ⟨n, Nat.le_refl n, by unfold State.after; rw [hr]; trivial⟩

/-- The turn of a fair agent comes in every run. -/
theorem agent_turn_comes (a : Agent) (ha : a.weaklyFair = true) (s : State) :
    s.Eventually fun u => u.event.agent = some a := by
  obtain ⟨m, hm, he⟩ := Config.order.fair a ha s.turn
  refine (turn_comes (m - s.turn) s).mono ?_
  rintro u ⟨hua, hut, huo⟩
  rw [State.event_turn u hua huo, hut, Nat.add_sub_cancel' hm]
  exact he

/-- Every run is weakly fair to the agents the block takes fairly: the turn of each comes again and again. -/
theorem weaklyFair_of_agent (a : Agent) (ha : a.weaklyFair = true) (s : State) : s.WeaklyFair a := by
  intro n
  obtain ⟨m, hm, h⟩ := State.comes_again (agent_turn_comes a ha) s n
  exact ⟨m, hm, State.after_mono h fun _ he => .inr he⟩

/-! ### A command under way ends (R306) -/

/-- What is true from one step to the next while command `i` is under way: the invariant, and the premises of R306 on
the bus and on the byte a `SER_READ` awaits. -/
structure State.Ending (i : Instr) (s : State) : Prop where
  inv : s.Inv
  bus : usesBus i = true → s.WeaklyFair .spiu
  byte : i = .serRead → s.Eventually fun t => t.fg = .idle ∨ 0 < t.inBuf.count

/-- A `SER_READ` under way awaits its byte: the phase before that is its first one. -/
theorem State.underWay_serRead {s : State} {ph : Phase} (h : s.underWay .serRead ph) : ph = .rd1 := by
  cases ph with
  | rd1 => rfl
  | _ => cases h

/-- Only `SER_READ` awaits a byte. -/
theorem State.underWay_rd1 {s : State} {i : Instr} (h : s.underWay i .rd1) : i = .serRead := by
  cases i with
  | serRead => rfl
  | _ => cases h

/-- Only a bus command has a phase that awaits a transfer. -/
theorem State.underWay_transfer {s : State} {i : Instr} {ph : Phase} (h : s.underWay i ph)
    (ht : ph.awaitsTransfer = true) : usesBus i = true := by
  cases i with
  | spiXfer b => rfl
  | pdRegwrite reg data => rfl
  | potWrite w1 w2 => rfl
  | facUpdatePd reg data => rfl
  | facUpdate tag reg data => rfl
  | facSetWiper w1 w2 => rfl
  | _ =>
    cases ph with
    | xfer x => cases h
    | pd f => cases h
    | pot q => cases h
    | _ => cases ht

theorem State.Ending.step {i : Instr} {ph : Phase} {u v : State} (h : u.Ending i) (hf : u.fg = .run i ph)
    (hv : step u = .next v) : v.Ending i := by
  refine ⟨step_keeps_inv u v h.inv hv, fun hb => (h.bus hb).step hv, ?_⟩
  rintro rfl
  obtain rfl := State.underWay_serRead (h.inv.underWay hf)
  obtain ⟨n, hn⟩ := h.byte rfl
  cases n with
  | zero =>
    rcases (show u.fg = .idle ∨ 0 < u.inBuf.count from hn) with hi | hc
    · rw [hf] at hi; cases hi
    · exact .now ((byte_stays u v hf hc hv).imp_right And.right)
  | succ n =>
    rw [Nat.add_comm, State.after_add, State.after_one] at hn
    exact ⟨n, hn v hv⟩

/-- What the phase of a command under way awaits comes. -/
theorem State.Ending.await_comes {i : Instr} {ph : Phase} {u : State} (h : u.Ending i) (hf : u.fg = .run i ph) :
    u.Eventually fun v => v.fg ≠ .run i ph ∨ v.awaitHolds ph = true := by
  have hu : u.underWay i ph := h.inv.underWay hf
  cases hst : ph.awaitsStore with
  | true => exact store_comes i ph hst u (weaklyFair_of_agent .nvu rfl u) hf
  | false =>
    cases htr : ph.awaitsTransfer with
    | true => exact transfer_comes i ph step_keeps_inv hst htr u h.inv (h.bus (State.underWay_transfer hu htr)) hf
    | false =>
      cases hro : ph.awaitsRoom with
      | true =>
        exact room_comes i ph step_keeps_inv hst htr hro (weaklyFair_of_agent .hDrain rfl) (weaklyFair_of_agent .txu rfl)
          u h.inv hf
      | false =>
        by_cases hp : ph = .rd1
        · subst hp
          refine (h.byte (State.underWay_rd1 hu)).mono fun v hv => ?_
          rcases hv with hi | hc
          · exact .inl (by rw [hi]; simp)
          · exact .inr (by simp [State.awaitHolds, hst, htr, hro, State.inAvail]; omega)
        · exact .now (.inr (by simp [State.awaitHolds, hst, htr, hro, hp]))

/-- A command under way ends: by induction on how many phases it has left at most, since each phase is left. -/
theorem State.Ending.ends (i : Instr) (n : Nat) : ∀ (ph : Phase) (s : State), ph.left < n → s.Ending i →
    s.fg = .run i ph → s.Eventually fun t => t.fg = .idle := by
  induction n with
  | zero => intro ph s hn; omega
  | succ n ih =>
    intro ph s hn hs hf
    refine phase_left (K := State.Ending i) i ph (fun u v hu => hu.step) (fun u hu => hu.inv.sequencer)
      (fun u hu => hu.await_comes) (fun u _ hi => .now hi) ?_ s hs hf
    intro u v hu huf hh hv he
    have hgo : v.WentOn i ph.left :=
      exec_advances i ph u.takeEvent v (by simpa using huf) (hu.inv.takeEvent.underWay (by simpa using huf))
        (by simpa [State.awaitHolds, State.inAvail] using hh) (step_phase u v i ph huf he hv)
    rcases hgo with hi | ⟨ph', hf', hl⟩
    · exact .now hi
    · exact ih ph' v (by omega) (hu.step huf hv) hf'

/-- A transfer under way is over, in a run fair to the bus (R14, R171). -/
theorem transfer_ends (s : State) (hb : s.spiBusy = true) (hfair : s.WeaklyFair .spiu) :
    s.Eventually fun t => t.spiBusy = false := by
  refine hfair.leads (P := fun u => u.spiBusy = true) hb (fun u hu => hu) ?_ ?_
  · intro u v _ _
    cases hv : v.spiBusy with
    | true => exact .inl rfl
    | false => exact .inr (.now hv)
  · intro u v hu he hv
    obtain ⟨m, hev⟩ : ∃ m, u.event = .spiu m := by cases h : u.event <;> simp [h, Event.agent] at he ⊢
    have ha := step_event u v _ hev rfl hv
    cases ha
    rcases spiuStep_cases m u.takeEvent with ⟨h0, -⟩ | ⟨-, e⟩
    · simp [hu] at h0
    · exact .now (by rw [e])

/-- Settles O60: every turn of the free order comes (`weaklyFair_of_agent`), and each phase of a command under way is
left towards its end (`State.Ending.ends`). -/
theorem enabledStepsAreEventuallyTaken : Obligations.EnabledStepsAreEventuallyTaken := by
  intro s
  refine ⟨?_, ?_, transfer_ends s⟩
  · rintro a (rfl | rfl | rfl | rfl | rfl) <;> exact weaklyFair_of_agent _ rfl s
  · intro i ph hs hf hbus hbyte
    exact State.Ending.ends i _ ph s (Nat.lt_succ_self _)
      ⟨hs, hbus, fun hi => (hbyte hi).mono fun _ hc => .inr hc⟩ hf

end Sys2Proof.Machine

/-! PROOF. A word presented to the idle block (R57, R110). -/

namespace Sys2Proof.Machine

/-- Settles O7: the event taken is the word's presentation, and the idle block accepts the command it decodes to. -/
theorem stepRunsPresentedCommand : Obligations.StepRunsPresentedCommand := by
  intro s w i es hf ha hd
  have hev : s.event = .command w := s.event_cons _ _ ha
  have htk : s.takeEvent = { s with agenda := es } := s.takeEvent_cons _ _ ha
  simp [step, hev, htk, commandOf, hf, hd]

end Sys2Proof.Machine

/-! PROOF. What every step carries on (R6, R38, R39, R53): the parameters, `OVERRUN` once set, the configuration once
initialized and, but for `NVU`, the cells. One rule per operation and per inner phase sequence, then the commands, the
agents and the step. -/

namespace Sys2Proof.Machine

/-! ### The relation -/

/-- What any step but a reset carries on from `s` to `t`: the parameters (R6), `OVERRUN` once set (R38), and the serial
configuration once initialized (R39). -/
structure State.Carries (s t : State) : Prop where
  params : t.params = s.params
  overrun : s.overrun = true → t.overrun = true
  config : s.serInited = true → t.serInited = true ∧ t.echo = s.echo ∧ t.baud = s.baud

/-- The same, with the cells as they were (R53): what any step but one of `NVU` or a reset does. -/
structure State.Keeps (s t : State) : Prop extends State.Carries s t where
  cells : t.nvm = s.nvm

/-- A state that differs from `s` in other fields only. -/
theorem State.Keeps.of_same {s t : State} (hp : t.params = s.params := by rfl) (ho : t.overrun = s.overrun := by rfl)
    (hi : t.serInited = s.serInited := by rfl) (he : t.echo = s.echo := by rfl) (hb : t.baud = s.baud := by rfl)
    (hc : t.nvm = s.nvm := by rfl) : s.Keeps t where
  params := hp
  overrun := fun h => ho.trans h
  config := fun h => ⟨hi.trans h, he, hb⟩
  cells := hc

theorem State.Carries.trans {s t u : State} (h : s.Carries t) (h' : t.Carries u) : s.Carries u where
  params := h'.params.trans h.params
  overrun := fun ho => h'.overrun (h.overrun ho)
  config := fun hi => by
    obtain ⟨hi', he, hb⟩ := h.config hi
    obtain ⟨hi'', he', hb'⟩ := h'.config hi'
    exact ⟨hi'', he'.trans he, hb'.trans hb⟩

theorem State.Keeps.trans {s t u : State} (h : s.Keeps t) (h' : t.Keeps u) : s.Keeps u :=
  ⟨h.toCarries.trans h'.toCarries, h'.cells.trans h.cells⟩

/-- Taking an event changes only what comes next. -/
theorem State.takeEvent_keeps (s : State) : s.Keeps s.takeEvent :=
  .of_same (by simp) (by simp) (by simp) (by simp) (by simp) (by simp)

/-! ### One atomic step of each inner phase sequence -/

/-- Where an inner sequence does not stop, it leaves a state that keeps what `s` holds. -/
def Sub.Keeps {π α : Type} (s : State) (x : Sub π α) : Prop :=
  ∀ p t, x = .ok p t → s.Keeps t

theorem readStep_keeps (addr : Addr) (r : ReadPhase) (s : State) : (readStep addr r s).Keeps s := by
  intro p t h
  rcases readStep_ok _ _ _ _ _ h with ⟨-, rfl, -⟩ | ⟨-, -, rfl, -⟩ | ⟨b, -, -, -, -, rfl⟩ <;> exact .of_same

/-- W0, W1 (R142): a write is issued, no cell changes yet. -/
theorem writeStep_keeps (addr : Addr) (v : Byte) (w : WritePhase) (s : State) : (writeStep addr v w s).Keeps s := by
  intro p t h
  rcases writeStep_ok _ _ _ _ _ _ h with ⟨-, rfl, -⟩ | ⟨-, -, rfl, -⟩ | ⟨-, -, -, rfl⟩ <;> exact .of_same

theorem updateStep_keeps (addr : Addr) (v : Byte) (u : UpdatePhase) (s : State) : (updateStep addr v u s).Keeps s := by
  intro p t h
  rcases updateStep_ok _ _ _ _ _ _ h with
    ⟨r, q, -, hq, -⟩ | ⟨-, -, rfl, -⟩ | ⟨w, q, -, hq, -⟩ | ⟨r, q, -, hq, -⟩ | ⟨-, -, rfl, -⟩
  · exact readStep_keeps _ _ _ _ _ hq
  · exact .of_same
  · exact writeStep_keeps _ _ _ _ _ _ hq
  · exact readStep_keeps _ _ _ _ _ hq
  · exact .of_same

theorem xferStep_keeps (b : Byte) (x : XferPhase) (s : State) : (xferStep b x s).Keeps s := by
  intro p t h
  rcases xferStep_ok _ _ _ _ _ h with ⟨-, -, rfl⟩ | ⟨-, -, -, rfl⟩ | ⟨-, -, -, rfl⟩ <;> exact .of_same

theorem frameStep_keeps (reg data : Byte) (f : FramePhase) (s : State) : (frameStep reg data f s).Keeps s := by
  intro p t h
  rcases frameStep_ok _ _ _ _ _ _ h with ⟨-, -, -, rfl⟩ | ⟨-, -, rfl⟩ | ⟨-, -, rfl⟩ | ⟨-, -, rfl⟩ | ⟨-, -, rfl⟩ |
    ⟨-, -, rfl⟩ | ⟨x, b, wrap, after, q, -, -, hq, -⟩
  on_goal 7 => exact xferStep_keeps _ _ _ _ _ hq
  all_goals exact .of_same

theorem potStep_keeps (w1 w2 : Byte) (q : PotPhase) (s : State) : (potStep w1 w2 q s).Keeps s := by
  intro p t h
  rcases potStep_ok _ _ _ _ _ _ h with ⟨-, -, -, rfl⟩ | ⟨x, r, -, hr, -⟩ | ⟨x, r, -, hr, -⟩ | ⟨-, -, rfl⟩
  · exact .of_same
  · exact xferStep_keeps _ _ _ _ _ hr
  · exact xferStep_keeps _ _ _ _ _ hr
  · exact .of_same

theorem State.putByte_keeps {s t : State} {b : Byte} {ie : Bool} {r : PutResult} (h : s.putByte b ie = some (r, t)) :
    s.Keeps t := by
  rcases State.putByte_some _ _ _ _ _ h with ⟨-, -, rfl⟩ | ⟨-, -, -, rfl⟩ <;> exact .of_same

theorem charStep_keeps (c : Byte) (q : CharPhase) (s : State) : (charStep c q s).Keeps s := by
  intro p t h
  rcases charStep_ok _ _ _ _ _ h with ⟨-, -, rfl, -⟩ | ⟨-, -, -, rfl, -⟩ | ⟨-, -, r, hr⟩ | ⟨r, -, -, hr⟩
  · exact .of_same
  · exact .of_same
  · exact State.putByte_keeps hr
  · exact State.putByte_keeps hr

theorem lineStep_keeps (tag data : Byte) (l : LinePhase) (s : State) : (lineStep tag data l s).Keeps s := by
  intro p t h
  rcases lineStep_ok _ _ _ _ _ _ h with ⟨-, -, rfl, -⟩ | ⟨c, d, q, -, hq, -⟩ | ⟨c, d, q, -, hq, -⟩ | ⟨c, d, q, -, hq, -⟩
  · exact .of_same
  all_goals exact charStep_keeps _ _ _ _ _ hq

/-! ### The commands -/

/-- Where a phase does not stop, it leaves a state that keeps what `s` holds. -/
def State.PhaseKeeps (s : State) (r : Result) : Prop :=
  ∀ t, r = .next t → s.Keeps t

theorem State.PhaseKeeps.next {s t : State} (h : s.Keeps t) : s.PhaseKeeps (.next t) := by
  rintro _ ⟨⟩; exact h

/-- A refused command changes nothing (R13). -/
theorem State.PhaseKeeps.refused {s : State} {r : Refusal} : s.PhaseKeeps (.refused r) := by
  rintro t ⟨⟩

theorem State.PhaseKeeps.fault {s : State} {f : Fault} : s.PhaseKeeps (.fault f) := by
  rintro t ⟨⟩

theorem State.PhaseKeeps.ite {s : State} {c : Prop} [Decidable c] {a b : Result} (ha : s.PhaseKeeps a)
    (hb : s.PhaseKeeps b) : s.PhaseKeeps (if c then a else b) := by
  split
  · exact ha
  · exact hb

/-- A command whose phases all keep what the state holds. -/
theorem State.PhaseKeeps.foreground {s : State} {i : Instr} {first : Phase} {body : Phase → Result}
    (h : ∀ ph, s.PhaseKeeps (body ph)) : s.PhaseKeeps (s.foreground i first body) := by
  rcases State.foreground_cases i first body s with ⟨-, e⟩ | ⟨ph, -, e⟩ | ⟨j, ph, -, -, e⟩ <;> rw [e]
  · exact h first
  · exact h ph
  · exact .refused

/-- An inner sequence run as a command's phases; what ends it, a `respond` or the next part, keeps these fields too. -/
theorem Sub.Keeps.run {π α : Type} {s : State} {x : Sub π α} (h : x.Keeps s) {i : Instr} {wrap : π → Phase}
    {fin : α → State → State} (hfin : ∀ a u, State.Keeps u (fin a u)) : s.PhaseKeeps (x.run i wrap fin) := by
  intro t ht
  rcases Sub.run_next _ _ _ _ _ ht with ⟨q, u, hq, rfl⟩ | ⟨a, u, hq, rfl⟩
  · exact (h _ _ hq).trans .of_same
  · exact (h _ _ hq).trans (hfin a u)

theorem execNvRead_keeps (addr : Addr) (s : State) : s.PhaseKeeps (execNvRead addr s) := by
  refine .foreground fun ph => ?_
  cases ph with
  | nvRead r => exact (readStep_keeps addr r s).run fun a u => by cases a <;> exact .of_same
  | _ => exact .fault

theorem execNvWrite_keeps (addr : Addr) (v : Byte) (s : State) : s.PhaseKeeps (execNvWrite addr v s) := by
  refine .foreground fun ph => ?_
  cases ph with
  | nvWrite w => exact (writeStep_keeps addr v w s).run fun _ _ => .of_same
  | _ => exact .fault

theorem execNvUpdate_keeps (addr : Addr) (v : Byte) (s : State) : s.PhaseKeeps (execNvUpdate addr v s) := by
  refine .foreground fun ph => ?_
  cases ph with
  | nvUpdate u => exact (updateStep_keeps addr v u s).run fun _ _ => .of_same
  | _ => exact .fault

theorem execSpiXfer_keeps (b : Byte) (s : State) : s.PhaseKeeps (execSpiXfer b s) := by
  refine .foreground fun ph => ?_
  cases ph with
  | xfer x => exact (xferStep_keeps b x s).run fun _ _ => .of_same
  | _ => exact .fault

theorem execCsSelect_keeps (p : Periph) (s : State) : s.PhaseKeeps (execCsSelect p s) := by
  refine .foreground fun ph => ?_
  cases ph with
  | s0 => exact .ite (.next .of_same) (.ite (.next .of_same) .refused)
  | _ => exact .fault

theorem execCsDeselect_keeps (p : Periph) (s : State) : s.PhaseKeeps (execCsDeselect p s) := by
  refine .foreground fun ph => ?_
  cases ph with
  | d0 => refine .next ?_; split <;> exact .of_same
  | _ => exact .fault

theorem execPdRegwrite_keeps (reg data : Byte) (s : State) : s.PhaseKeeps (execPdRegwrite reg data s) := by
  refine .foreground fun ph => ?_
  cases ph with
  | pd f => exact (frameStep_keeps reg data f s).run fun _ _ => .of_same
  | _ => exact .fault

theorem execPotWrite_keeps (w1 w2 : Byte) (s : State) : s.PhaseKeeps (execPotWrite w1 w2 s) := by
  refine .foreground fun ph => ?_
  cases ph with
  | pot q => exact (potStep_keeps w1 w2 q s).run fun _ _ => .of_same
  | _ => exact .fault

/-- Initialization writes the configuration only where it was not initialized (R200, R39). -/
theorem execSerInit_keeps (e : Bool) (baud : BitVec 23) (s : State) : s.PhaseKeeps (execSerInit e baud s) := by
  refine .foreground fun ph => ?_
  cases ph with
  | i0 =>
    dsimp only
    split
    · exact .refused
    · next hi => exact .next ⟨⟨rfl, id, fun h => absurd h hi⟩, rfl⟩
  | _ => exact .fault

theorem execSerWrite_keeps (c : Byte) (s : State) : s.PhaseKeeps (execSerWrite c s) := by
  refine .foreground fun ph => ?_
  cases ph with
  | char q => exact (charStep_keeps c q s).run fun _ _ => .of_same
  | _ => exact .fault

theorem execSerRead_keeps (s : State) : s.PhaseKeeps (execSerRead s) := by
  refine .foreground fun ph => ?_
  cases ph with
  | rd0 => exact .ite (.next .of_same) .refused
  | rd1 => refine .next ?_; split <;> exact .of_same
  | _ => exact .fault

theorem execSerAvail_keeps (s : State) : s.PhaseKeeps (execSerAvail s) := by
  refine .foreground fun ph => ?_
  cases ph with
  | a0 => exact .ite (.next .of_same) .refused
  | _ => exact .fault

/-- Reading `OVERRUN` does not clear it (R211). -/
theorem execSerOverrun_keeps (s : State) : s.PhaseKeeps (execSerOverrun s) := by
  refine .foreground fun ph => ?_
  cases ph with
  | o0 => exact .ite (.next .of_same) .refused
  | _ => exact .fault

theorem execFacUpdatePd_keeps (reg data : Byte) (s : State) : s.PhaseKeeps (execFacUpdatePd reg data s) := by
  refine .foreground fun ph => ?_
  cases ph with
  | pd f => exact (frameStep_keeps reg data f s).run fun _ _ => .of_same
  | _ => exact .fault

theorem execFacNotify_keeps (tag data : Byte) (s : State) : s.PhaseKeeps (execFacNotify tag data s) := by
  refine .foreground fun ph => ?_
  cases ph with
  | line l => exact (lineStep_keeps tag data l s).run fun _ _ => .of_same
  | _ => exact .fault

theorem execFacUpdate_keeps (tag reg data : Byte) (s : State) : s.PhaseKeeps (execFacUpdate tag reg data s) := by
  refine .foreground fun ph => ?_
  cases ph with
  | j0 => exact .ite .refused (.ite (.next .of_same) .refused)
  | pd f => exact (frameStep_keeps reg data f s).run fun _ _ => .of_same
  | line l => exact (lineStep_keeps tag data l s).run fun _ _ => .of_same
  | _ => exact .fault

theorem execFacSetWiper_keeps (w1 w2 : Byte) (s : State) : s.PhaseKeeps (execFacSetWiper w1 w2 s) := by
  refine .foreground fun ph => ?_
  cases ph with
  | pot q => exact (potStep_keeps w1 w2 q s).run fun _ _ => .of_same
  | _ => exact .fault

theorem execIrqSuppress_keeps (s : State) : s.PhaseKeeps (execIrqSuppress s) := by
  refine .foreground fun ph => ?_
  cases ph with
  | k0 => exact .next .of_same
  | _ => exact .fault

theorem execIrqRestore_keeps (tok : Bool) (s : State) : s.PhaseKeeps (execIrqRestore tok s) := by
  refine .foreground fun ph => ?_
  cases ph with
  | l0 => exact .next .of_same
  | _ => exact .fault

/-- A phase of a command keeps the parameters, `OVERRUN`, the configuration and the cells. -/
theorem exec_keeps (i : Instr) (s : State) : s.PhaseKeeps (exec i s) := by
  cases i with
  | nvRead addr => exact execNvRead_keeps addr s
  | nvWrite addr v => exact execNvWrite_keeps addr v s
  | nvUpdate addr v => exact execNvUpdate_keeps addr v s
  | spiXfer b => exact execSpiXfer_keeps b s
  | csSelect p => exact execCsSelect_keeps p s
  | csDeselect p => exact execCsDeselect_keeps p s
  | pdRegwrite reg data => exact execPdRegwrite_keeps reg data s
  | potWrite w1 w2 => exact execPotWrite_keeps w1 w2 s
  | serInit e baud => exact execSerInit_keeps e baud s
  | serWrite c => exact execSerWrite_keeps c s
  | serRead => exact execSerRead_keeps s
  | serAvail => exact execSerAvail_keeps s
  | serOverrun => exact execSerOverrun_keeps s
  | facUpdatePd reg data => exact execFacUpdatePd_keeps reg data s
  | facNotify tag data => exact execFacNotify_keeps tag data s
  | facUpdate tag reg data => exact execFacUpdate_keeps tag reg data s
  | facSetWiper w1 w2 => exact execFacSetWiper_keeps w1 w2 s
  | irqSuppress => exact execIrqSuppress_keeps s
  | irqRestore tok => exact execIrqRestore_keeps tok s

/-! ### The agents -/

theorem drainHandler_keeps (s : State) : s.Keeps (drainHandler s) := by
  obtain ⟨ob, d, f, x, e⟩ := drainHandler_frame s
  rw [e]; exact .of_same

/-- A capture only ever sets `OVERRUN` (R213). -/
theorem capture_keeps (c : Byte) (s : State) : s.Keeps (capture c s) := by
  rcases capture_cases c s with ⟨-, e⟩ | ⟨-, e⟩ <;> rw [e]
  · exact .of_same
  · exact ⟨⟨rfl, fun _ => rfl, fun h => ⟨h, rfl, rfl⟩⟩, rfl⟩

theorem State.putOrDrop_keeps (b : Byte) (s : State) : s.Keeps (s.putOrDrop b) := by
  rw [State.putOrDrop_eq]; split <;> exact .of_same

theorem State.echoChar_keeps (c : Byte) (s : State) : s.Keeps (s.echoChar c) := by
  unfold State.echoChar
  split
  · exact (s.putOrDrop_keeps _).trans (State.putOrDrop_keeps _ _)
  · exact s.putOrDrop_keeps c

theorem rxHandler_keeps (s : State) : s.Keeps (rxHandler s) := by
  have taken : s.Keeps { s with rxFull := false, gie := false } := .of_same
  rcases rxHandler_cases s with ⟨-, e⟩ | ⟨-, -, e⟩ | ⟨-, -, e⟩ <;> rw [e]
  · exact .of_same
  · exact (taken.trans (capture_keeps _ _)).trans .of_same
  · exact ((taken.trans (State.echoChar_keeps _ _)).trans (capture_keeps _ _)).trans .of_same

/-- `NVU` stores into a cell, and changes nothing else that a step carries on (R144). -/
theorem nvuStep_carries (worn : Option Byte) (s t : State) (h : nvuStep worn s = .next t) : s.Carries t := by
  rcases nvuStep_cases worn s with ⟨-, e⟩ | ⟨-, -, e⟩ | ⟨-, -, e⟩ <;> rw [e] at h <;> cases h
  · exact State.Keeps.toCarries .of_same
  · exact ⟨rfl, id, fun hi => ⟨hi, rfl, rfl⟩⟩

theorem resetBlock_params (s : State) : (resetBlock s).params = s.params := by
  rcases resetBlock_cases s with ⟨d, -, -, e⟩ | ⟨-, e⟩ <;> rw [e] <;> rfl

theorem agentStep_keeps (e : Event) (s t : State) (h : agentStep e s = .next t) (hr : e ≠ .reset)
    (hn : ∀ worn, e ≠ .nvu worn) : s.Keeps t := by
  cases e with
  | command w => cases h; exact .of_same
  | fg => cases h; exact .of_same
  | hDrain => cases h; exact drainHandler_keeps s
  | hRx => cases h; exact rxHandler_keeps s
  | txu => cases h; unfold txuStep; split <;> exact .of_same
  | rxu b =>
    cases h
    unfold rxuStep
    split
    · split <;> exact .of_same
    · exact .of_same
  | spiu m => cases h; rcases spiuStep_cases m s with ⟨-, e⟩ | ⟨-, e⟩ <;> rw [e] <;> exact .of_same
  | nvu worn => exact absurd rfl (hn worn)
  | reset => exact absurd rfl hr

/-! ### The step -/

/-- A step of neither `NVU` nor a reset keeps the parameters, `OVERRUN`, the configuration and the cells. -/
theorem step_keeps {s t : State} (h : step s = .next t) (hr : s.event ≠ .reset) (hn : ∀ worn, s.event ≠ .nvu worn) :
    s.Keeps t := by
  rcases step_next s t h with ⟨i, -, hx⟩ | ⟨-, ha⟩
  · exact s.takeEvent_keeps.trans (exec_keeps i _ _ hx)
  · exact s.takeEvent_keeps.trans (agentStep_keeps _ _ _ ha hr hn)

/-- A step other than a reset carries on the parameters, `OVERRUN` and the configuration. -/
theorem step_carries {s t : State} (h : step s = .next t) (hr : s.event ≠ .reset) : s.Carries t := by
  by_cases hn : ∃ worn, s.event = .nvu worn
  · obtain ⟨worn, hev⟩ := hn
    have ht : nvuStep worn s.takeEvent = .next t := by simpa [step, hev, commandOf, agentStep] using h
    exact s.takeEvent_keeps.toCarries.trans (nvuStep_carries _ _ _ ht)
  · exact (step_keeps h hr fun worn hev => hn ⟨worn, hev⟩).toCarries

/-- No step changes the parameters, a reset included (R6). -/
theorem step_params {s t : State} (h : step s = .next t) : t.params = s.params := by
  by_cases hr : s.event = .reset
  · have ht : resetBlock s.takeEvent = t := by simpa [step, hr, commandOf, agentStep] using h
    rw [← ht, resetBlock_params, State.takeEvent_params]
  · exact (step_carries h hr).params

/-- Settles O15: a phase of a command only issues a write; the store into a cell is `NVU`'s. -/
theorem onlyNvuAndResetChangeCells : Obligations.OnlyNvuAndResetChangeCells :=
  fun _ _ h hr hn => (step_keeps h hr hn).cells

/-- Settles O44: the one write of `OVERRUN` but a reset is the capture's, and it sets the flag. -/
theorem overrunIsSticky : Obligations.OverrunIsSticky :=
  fun _ _ h hr => (step_carries h hr).overrun

/-- Settles O55: the one write of the configuration but a reset is `SER_INIT`'s, refused once initialized. -/
theorem configurationIsImmutable : Obligations.ConfigurationIsImmutable :=
  fun _ _ h => ⟨step_params h, fun hr => (step_carries h hr).config⟩

end Sys2Proof.Machine

/-! PROOF. Draining the outbound buffer (R91, R212, R214): one run of `H_DRAIN` and `TXU` moves the oldest pending byte to
the line, so as many runs as there are pending bytes move them all, in order. -/

namespace Sys2Proof.Machine

/-! ### One byte -/

/-- What draining asks of the block: a buffer in range, `H_DRAIN` unmasked (R291) and the transmitter free. -/
structure State.ReadyToDrain (s : State) : Prop where
  outBuf : s.outBuf.Ok s.params.outCap
  gie : s.gie = true
  drainIe : s.drainIe = true
  txFull : s.txFull = false

/-- The state with the oldest pending byte moved into the transmitter (R212). -/
def State.takeOldest (s : State) : State :=
  { s with outBuf := s.outBuf.dequeue, txData := s.outBuf.front s.params.outCap, txFull := true }

/-- The state with the oldest pending byte moved through the transmitter to the line (R212, R214). -/
def State.sendOldest (s : State) : State :=
  { s.takeOldest with txLine := s.txLine ++ [s.outBuf.front s.params.outCap], txFull := false }

/-- A byte sent leaves the block ready for the next one. -/
theorem State.ReadyToDrain.sendOldest {s : State} (h : s.ReadyToDrain) : s.sendOldest.ReadyToDrain :=
  ⟨Ring.ok_dequeue _ _ h.outBuf, h.gie, h.drainIe, rfl⟩

theorem State.ReadyToDrain.drainEnabled {s : State} (h : s.ReadyToDrain) : s.drainEnabled = true := by
  simp [State.drainEnabled, State.drainPending, h.gie, h.drainIe, h.txFull]

/-- `H_DRAIN` moves a byte of a block that is ready and holds one, and leaves `GIE` set (R295). -/
theorem State.ReadyToDrain.drainHandler_eq {s : State} (h : s.ReadyToDrain) (hc : 0 < s.outBuf.count) :
    drainHandler s = s.takeOldest := by
  rcases drainHandler_cases s with ⟨hn, -⟩ | ⟨-, h0, -⟩ | ⟨-, -, he⟩
  · rw [h.drainEnabled] at hn; cases hn
  · omega
  · rw [he]; simp only [State.takeOldest, h.gie]

/-- `TXU` puts the byte that `H_DRAIN` took on the line. -/
theorem txuStep_takeOldest (s : State) : txuStep s.takeOldest = s.sendOldest := rfl

/-- One run of `H_DRAIN` and `TXU` sends the oldest pending byte. -/
theorem run_hDrain_txu {s : State} (h : s.ReadyToDrain) (hc : 0 < s.outBuf.count) (es : List Event) :
    Host.Core.run Sys2Proof.core 2 (s.withAgenda (.hDrain :: .txu :: es)) = .next (s.sendOldest.withAgenda es) := by
  have hdrain : step (s.withAgenda (.hDrain :: .txu :: es)) = .next (s.takeOldest.withAgenda (.txu :: es)) := by
    have hready : (s.withAgenda (.txu :: es)).ReadyToDrain := ⟨h.outBuf, h.gie, h.drainIe, h.txFull⟩
    rw [step_agent _ .hDrain _ rfl rfl]
    exact congrArg Host.Outcome.next (hready.drainHandler_eq hc)
  have htxu : step (s.takeOldest.withAgenda (.txu :: es)) = .next (s.sendOldest.withAgenda es) := by
    rw [step_agent _ .txu _ rfl rfl]
    exact congrArg Host.Outcome.next (txuStep_takeOldest (s.withAgenda es))
  exact run_trans (run_one hdrain) (run_one htxu)

/-! ### The whole buffer -/

/-- What a drained block is: the bytes that were pending are on the line behind those already there, oldest first, the
buffer is empty with its insertion index where it was, and the block is ready for more. -/
structure State.Drained (s t : State) : Prop where
  txLine : t.txLine = s.txLine ++ s.outBuf.pending s.params.outCap
  outBuf : t.outBuf = ⟨s.outBuf.slots, s.outBuf.head, 0⟩
  ready : t.ReadyToDrain

theorem State.ReadyToDrain.drained_of_empty {s : State} (h : s.ReadyToDrain) (hc : s.outBuf.count = 0)
    (es : List Event) : s.Drained (s.withAgenda es) where
  txLine := by rw [Ring.pending_of_count_zero _ _ hc, List.append_nil]; rfl
  outBuf := by rw [← hc]; rfl
  ready := ⟨h.outBuf, h.gie, h.drainIe, h.txFull⟩

/-- The oldest byte first, then the rest of the buffer. -/
theorem State.ReadyToDrain.drained_of_sendOldest {s t : State} (h : s.ReadyToDrain) (hc : 0 < s.outBuf.count)
    (ht : s.sendOldest.Drained t) : s.Drained t where
  txLine := by
    rw [ht.txLine, Ring.pending_dequeue _ _ h.outBuf hc]
    exact List.append_assoc ..
  outBuf := ht.outBuf
  ready := ht.ready

/-- As many runs of `H_DRAIN` and `TXU` as there are pending bytes drain the block, by induction on their number. -/
theorem run_drains (n : Nat) (s : State) (es : List Event) (h : s.ReadyToDrain) (hc : s.outBuf.count = n) :
    ∃ t, Host.Core.run Sys2Proof.core (2 * n)
      (s.withAgenda ((List.replicate n [Event.hDrain, Event.txu]).flatten ++ es)) = .next t ∧ s.Drained t := by
  induction n generalizing s with
  | zero => exact ⟨s.withAgenda es, rfl, h.drained_of_empty hc es⟩
  | succ n ih =>
    have hpos : 0 < s.outBuf.count := by omega
    have hleft : s.sendOldest.outBuf.count = n := by
      show s.outBuf.count - 1 = n
      omega
    obtain ⟨t, hrun, ht⟩ := ih s.sendOldest h.sendOldest hleft
    refine ⟨t, ?_, h.drained_of_sendOldest hpos ht⟩
    rw [show 2 * (n + 1) = 2 + 2 * n by omega, List.replicate_succ, List.flatten_cons]
    exact run_trans (run_hDrain_txu h hpos _) hrun

/-- Settles O41: the run sends one byte after the other, always the oldest, until none is pending. -/
theorem drainSendsPendingInOrder : Obligations.DrainSendsPendingInOrder := by
  intro s es hok hgie hie htx
  obtain ⟨t, hrun, ht⟩ := run_drains s.outBuf.count s es ⟨hok, hgie, hie, htx⟩ rfl
  exact ⟨t, hrun, ht.txLine, ht.outBuf, ht.ready.txFull, ht.ready.drainIe, ht.ready.gie⟩

end Sys2Proof.Machine

/-! PROOF. The encoding, from a command to its word and back (R111, R112, R116). -/

namespace Sys2Proof

theorem periphOfBit_bitOfPeriph (p : Periph) : periphOfBit (bitOfPeriph p) = p := by
  cases p <;> rfl

theorem bitOfPeriph_periphOfBit (t : Bool) : bitOfPeriph (periphOfBit t) = t := by
  cases t <;> rfl

/-- Settles O1, format by format: the fields the decoder reads of a command's word are the operands placed there, and
the reserved ones are zero. -/
theorem decodeOfEncodeIsIdentity : Obligations.DecodeOfEncodeIsIdentity := by
  intro i
  cases i with
  | nvRead _ => simp [encode, decode, ifReservedZero, fieldOp_formatAV, fieldLo_formatAV, fieldAddr_formatAV]
  | nvWrite _ _ | nvUpdate _ _ => simp [encode, decode, fieldOp_formatAV, fieldAddr_formatAV, fieldLo_formatAV]
  | spiXfer _ | serWrite _ =>
    simp [encode, decode, ifReservedZero, fieldOp_formatB, fieldHi_formatB, fieldMid_formatB, fieldLo_formatB]
  | csSelect _ | csDeselect _ =>
    simp [encode, decode, ifReservedZero, fieldOp_formatBit, reserved_formatBit, fieldBit_formatBit,
      periphOfBit_bitOfPeriph]
  | irqRestore _ => simp [encode, decode, ifReservedZero, fieldOp_formatBit, reserved_formatBit, fieldBit_formatBit]
  | pdRegwrite _ _ | potWrite _ _ | facUpdatePd _ _ | facNotify _ _ | facSetWiper _ _ =>
    simp [encode, decode, ifReservedZero, fieldOp_formatBB, fieldHi_formatBB, fieldMid_formatBB, fieldLo_formatBB]
  | facUpdate _ _ _ =>
    simp [encode, decode, fieldOp_formatBBB, fieldHi_formatBBB, fieldMid_formatBBB, fieldLo_formatBBB]
  | serInit _ _ => simp [encode, decode, fieldOp_formatI, fieldEcho_formatI, fieldBaud_formatI]
  | serRead | serAvail | serOverrun | irqSuppress => rfl

/-- Settles O6: each word is closed, and the decoder computes its command. -/
theorem sampleWordsDecode : Obligations.SampleWordsDecode :=
  ⟨rfl, rfl, rfl, rfl, rfl, rfl, rfl⟩

/-! ### A word from its fields

Each format's word is put together again from the fields the decoder reads of it, if the decoder finds the format's
reserved bits to be zero. -/

theorem formatBBB_fields {w : Word} {op : Byte} (hop : (fieldOp w).toNat = op.toNat) :
    formatBBB op (fieldHi w) (fieldMid w) (fieldLo w) = w := by
  rw [← BitVec.eq_of_toNat_eq hop]
  apply BitVec.eq_of_getLsbD_eq; intro k hk
  interval_cases k <;> simp [formatBBB, place, fieldOp, fieldHi, fieldMid, fieldLo]

theorem formatBB_fields {w : Word} {op : Byte} (hop : (fieldOp w).toNat = op.toNat) (h : (fieldHi w == 0) = true) :
    formatBB op (fieldMid w) (fieldLo w) = w := by
  simpa [eq_of_beq h, formatBBB, formatBB, place] using formatBBB_fields hop

theorem formatB_fields {w : Word} {op : Byte} (hop : (fieldOp w).toNat = op.toNat)
    (h : (fieldHi w == 0 && fieldMid w == 0) = true) : formatB op (fieldLo w) = w := by
  obtain ⟨hhi, hmid⟩ := Bool.and_eq_true_iff.1 h
  simpa [eq_of_beq hmid, formatBB, formatB, place] using formatBB_fields hop hhi

theorem formatAV_fields {w : Word} {op : Byte} (hop : (fieldOp w).toNat = op.toNat) :
    formatAV op (fieldAddr w) (fieldLo w) = w := by
  rw [← BitVec.eq_of_toNat_eq hop]
  apply BitVec.eq_of_getLsbD_eq; intro k hk
  interval_cases k <;> simp [formatAV, place, fieldOp, fieldAddr, fieldLo]

theorem formatA_fields {w : Word} {op : Byte} (hop : (fieldOp w).toNat = op.toNat) (h : (fieldLo w == 0) = true) :
    formatAV op (fieldAddr w) 0 = w :=
  eq_of_beq h ▸ formatAV_fields hop

theorem formatI_fields {w : Word} {op : Byte} (hop : (fieldOp w).toNat = op.toNat) :
    formatI op (fieldEcho w) (fieldBaud w) = w := by
  rw [← BitVec.eq_of_toNat_eq hop]
  apply BitVec.eq_of_getLsbD_eq; intro k hk
  interval_cases k <;> simp [formatI, place, fieldOp, fieldEcho, fieldBaud]

theorem formatBit_fields {w : Word} {op : Byte} (hop : (fieldOp w).toNat = op.toNat)
    (h : (w.extractLsb' 1 23 == 0) = true) : formatBit op (fieldBit w) = w := by
  have hw : formatBit op (fieldBit w) ||| place (w.extractLsb' 1 23) 1 = w := by
    rw [← BitVec.eq_of_toNat_eq hop]
    apply BitVec.eq_of_getLsbD_eq; intro k hk
    interval_cases k <;> simp [formatBit, place, fieldOp, fieldBit]
  simpa [eq_of_beq h, place] using hw

theorem formatZ_fields {w : Word} {op : Byte} (hop : (fieldOp w).toNat = op.toNat)
    (h : (w.extractLsb' 0 24 == 0) = true) : formatB op 0 = w := by
  have hw : formatB op 0 ||| place (w.extractLsb' 0 24) 0 = w := by
    rw [← BitVec.eq_of_toNat_eq hop]
    apply BitVec.eq_of_getLsbD_eq; intro k hk
    interval_cases k <;> simp [formatB, place, fieldOp]
  simpa [eq_of_beq h, place] using hw

/-- The peripheral of format `P` is one bit (R116). -/
theorem formatBit_periph_fields {w : Word} {op : Byte} (hop : (fieldOp w).toNat = op.toNat)
    (h : (w.extractLsb' 1 23 == 0) = true) : formatBit op (bitOfPeriph (periphOfBit (fieldBit w))) = w :=
  (bitOfPeriph_periphOfBit (fieldBit w)).symm ▸ formatBit_fields hop h

end Sys2Proof

/-! PROOF. The decoder against the opcode map (R113 to R115): what the map says of a word, and that this is what the
decoder answers. -/

namespace Sys2Proof

/-! ### The rows of the opcode map -/

/-- A word that hits a row has the row's value in every field that the row's mask covers. -/
theorem OpcodeRow.extract_of_hits {r : OpcodeRow} {w : Word} (h : r.hits w = true) (lo n : Nat)
    (hmask : r.mask.extractLsb' lo n = BitVec.allOnes n) : w.extractLsb' lo n = r.value.extractLsb' lo n := by
  have hw : w &&& r.mask = r.value := eq_of_beq h
  rw [← hw, BitVec.extractLsb'_and, hmask, BitVec.and_allOnes]

/-- A field that the row demands to be zero passes the decoder's check in a word that hits the row. -/
theorem OpcodeRow.zero_of_hits {r : OpcodeRow} {w : Word} (lo n : Nat)
    (hmask : r.mask.extractLsb' lo n = BitVec.allOnes n) (hvalue : r.value.extractLsb' lo n = 0)
    (h : r.hits w = true) : (w.extractLsb' lo n == 0) = true :=
  beq_iff_eq.2 ((extract_of_hits h lo n hmask).trans hvalue)

theorem OpcodeRow.zero_hi_mid_of_hits {r : OpcodeRow} {w : Word} (hhi : fieldHi r.mask = BitVec.allOnes 8)
    (hmid : fieldMid r.mask = BitVec.allOnes 8) (hvalue : fieldHi r.value = 0 ∧ fieldMid r.value = 0)
    (h : r.hits w = true) : (fieldHi w == 0 && fieldMid w == 0) = true :=
  Bool.and_eq_true_iff.2 ⟨zero_of_hits 16 8 hhi hvalue.1 h, zero_of_hits 8 8 hmid hvalue.2 h⟩

theorem opcodeMap_mask_op : ∀ r ∈ opcodeMap, fieldOp r.mask = BitVec.allOnes 8 := by decide

theorem OpcodeRow.fieldOp_of_hits {r : OpcodeRow} {w : Word} (hr : r ∈ opcodeMap) (h : r.hits w = true) :
    fieldOp w = fieldOp r.value :=
  extract_of_hits h 24 8 (opcodeMap_mask_op r hr)

theorem opcodeMap_eq_of_op : ∀ r ∈ opcodeMap, ∀ r' ∈ opcodeMap, fieldOp r.value = fieldOp r'.value → r = r' := by
  decide

theorem opcodeMap_eq_of_mnemonic : ∀ r ∈ opcodeMap, ∀ r' ∈ opcodeMap, r.mnemonic = r'.mnemonic → r = r' := by
  decide

/-- The opcodes of the map, in its order (R113). -/
theorem opcodeMap_opcodes : opcodeMap.map (fun r => (fieldOp r.value).toNat) =
    [0x10, 0x11, 0x12, 0x20, 0x21, 0x22, 0x23, 0x24, 0x30, 0x31, 0x32, 0x33, 0x34, 0x40, 0x41, 0x42, 0x43, 0x50,
      0x51] := rfl

/-! ### What the map says of a word -/

/-- What R112 to R115 say of a word `w`: it is the command of a row it hits, and the encoding of that command; it is
refused for a reserved bit if it has the opcode of a row and does not hit it; and for its opcode if no row has it. -/
inductive MapAnswer (w : Word) : Except DecodeError Instr → Prop where
  | command (r : OpcodeRow) (i : Instr) (hr : r ∈ opcodeMap) (hit : r.hits w = true) (hname : r.mnemonic = i.mnemonic)
      (hword : encode i = w) : MapAnswer w (.ok i)
  | reservedBits (r : OpcodeRow) (hr : r ∈ opcodeMap) (hop : fieldOp w = fieldOp r.value) (hmiss : r.hits w = false) :
      MapAnswer w (.error (.reservedBits w))
  | reservedOpcode (hop : ∀ r ∈ opcodeMap, fieldOp r.value ≠ fieldOp w) :
      MapAnswer w (.error (.reservedOpcode (fieldOp w)))

/-- The encoding of a command is answered with the command. -/
theorem MapAnswer.ofWord {w : Word} {i : Instr} (hrow : Laws.OpcodeRow.Statement i) (hword : encode i = w) :
    MapAnswer w (.ok i) := by
  obtain ⟨r, hr, hname, hit⟩ := hrow
  exact .command r i hr (hword ▸ hit) hname hword

/-- The check of a format's reserved bits is right for a row if a word that hits the row passes it, and a word that passes
it is the encoding of the command. -/
theorem MapAnswer.ofReservedZero {w : Word} {zero : Bool} {i : Instr} (r : OpcodeRow) (hr : r ∈ opcodeMap)
    (hop : (fieldOp w).toNat = (fieldOp r.value).toNat) (hrow : Laws.OpcodeRow.Statement i)
    (hzero : r.hits w = true → zero = true) (hword : zero = true → encode i = w) :
    MapAnswer w (ifReservedZero w zero i) := by
  cases zero with
  | true => exact .ofWord hrow (hword rfl)
  | false =>
    have hmiss : r.hits w = false := Bool.eq_false_iff.2 fun h => Bool.noConfusion (hzero h)
    exact .reservedBits r hr (BitVec.eq_of_toNat_eq hop) hmiss

/-- The decoder answers what the opcode map says: one case per row, each by the check of its format, and one for all the
reserved opcodes. -/
theorem decode_mapAnswer (w : Word) : MapAnswer w (decode w) := by
  unfold decode
  split
  next hop =>
    exact .ofReservedZero ⟨"NV_READ", 0x10000000, 0xFF0000FF⟩ (by decide) hop (Laws.OpcodeRow.nvRead _)
      (OpcodeRow.zero_of_hits 0 8 rfl rfl) (formatA_fields hop)
  next hop => exact .ofWord (Laws.OpcodeRow.nvWrite _ _) (formatAV_fields hop)
  next hop => exact .ofWord (Laws.OpcodeRow.nvUpdate _ _) (formatAV_fields hop)
  next hop =>
    exact .ofReservedZero ⟨"SPI_XFER", 0x20000000, 0xFFFFFF00⟩ (by decide) hop (Laws.OpcodeRow.spiXfer _)
      (OpcodeRow.zero_hi_mid_of_hits rfl rfl ⟨rfl, rfl⟩) (formatB_fields hop)
  next hop =>
    exact .ofReservedZero ⟨"CS_SELECT", 0x21000000, 0xFFFFFFFE⟩ (by decide) hop (Laws.OpcodeRow.csSelect _)
      (OpcodeRow.zero_of_hits 1 23 rfl rfl) (formatBit_periph_fields hop)
  next hop =>
    exact .ofReservedZero ⟨"CS_DESELECT", 0x22000000, 0xFFFFFFFE⟩ (by decide) hop (Laws.OpcodeRow.csDeselect _)
      (OpcodeRow.zero_of_hits 1 23 rfl rfl) (formatBit_periph_fields hop)
  next hop =>
    exact .ofReservedZero ⟨"PD_REGWRITE", 0x23000000, 0xFFFF0000⟩ (by decide) hop (Laws.OpcodeRow.pdRegwrite _ _)
      (OpcodeRow.zero_of_hits 16 8 rfl rfl) (formatBB_fields hop)
  next hop =>
    exact .ofReservedZero ⟨"POT_WRITE", 0x24000000, 0xFFFF0000⟩ (by decide) hop (Laws.OpcodeRow.potWrite _ _)
      (OpcodeRow.zero_of_hits 16 8 rfl rfl) (formatBB_fields hop)
  next hop => exact .ofWord (Laws.OpcodeRow.serInit _ _) (formatI_fields hop)
  next hop =>
    exact .ofReservedZero ⟨"SER_WRITE", 0x31000000, 0xFFFFFF00⟩ (by decide) hop (Laws.OpcodeRow.serWrite _)
      (OpcodeRow.zero_hi_mid_of_hits rfl rfl ⟨rfl, rfl⟩) (formatB_fields hop)
  next hop =>
    exact .ofReservedZero ⟨"SER_READ", 0x32000000, 0xFFFFFFFF⟩ (by decide) hop Laws.OpcodeRow.serRead
      (OpcodeRow.zero_of_hits 0 24 rfl rfl) (formatZ_fields hop)
  next hop =>
    exact .ofReservedZero ⟨"SER_AVAIL", 0x33000000, 0xFFFFFFFF⟩ (by decide) hop Laws.OpcodeRow.serAvail
      (OpcodeRow.zero_of_hits 0 24 rfl rfl) (formatZ_fields hop)
  next hop =>
    exact .ofReservedZero ⟨"SER_OVERRUN", 0x34000000, 0xFFFFFFFF⟩ (by decide) hop Laws.OpcodeRow.serOverrun
      (OpcodeRow.zero_of_hits 0 24 rfl rfl) (formatZ_fields hop)
  next hop =>
    exact .ofReservedZero ⟨"FAC_UPDATE_PD", 0x40000000, 0xFFFF0000⟩ (by decide) hop (Laws.OpcodeRow.facUpdatePd _ _)
      (OpcodeRow.zero_of_hits 16 8 rfl rfl) (formatBB_fields hop)
  next hop =>
    exact .ofReservedZero ⟨"FAC_NOTIFY", 0x41000000, 0xFFFF0000⟩ (by decide) hop (Laws.OpcodeRow.facNotify _ _)
      (OpcodeRow.zero_of_hits 16 8 rfl rfl) (formatBB_fields hop)
  next hop => exact .ofWord (Laws.OpcodeRow.facUpdate _ _ _) (formatBBB_fields hop)
  next hop =>
    exact .ofReservedZero ⟨"FAC_SET_WIPER", 0x43000000, 0xFFFF0000⟩ (by decide) hop (Laws.OpcodeRow.facSetWiper _ _)
      (OpcodeRow.zero_of_hits 16 8 rfl rfl) (formatBB_fields hop)
  next hop =>
    exact .ofReservedZero ⟨"IRQ_SUPPRESS", 0x50000000, 0xFFFFFFFF⟩ (by decide) hop Laws.OpcodeRow.irqSuppress
      (OpcodeRow.zero_of_hits 0 24 rfl rfl) (formatZ_fields hop)
  next hop =>
    exact .ofReservedZero ⟨"IRQ_RESTORE", 0x51000000, 0xFFFFFFFE⟩ (by decide) hop (Laws.OpcodeRow.irqRestore _)
      (OpcodeRow.zero_of_hits 1 23 rfl rfl) (formatBit_fields hop)
  next =>
    refine .reservedOpcode fun r hr heq => ?_
    have hmem : (fieldOp w).toNat ∈ opcodeMap.map fun r => (fieldOp r.value).toNat :=
      List.mem_map.2 ⟨r, hr, congrArg BitVec.toNat heq⟩
    simp only [opcodeMap_opcodes, List.mem_cons, List.not_mem_nil] at hmem
    tauto

/-! ### The decoder, by what the map says -/

/-- A decoded word hits the row that bears the command's mnemonic. -/
theorem OpcodeRow.hits_of_decode {r : OpcodeRow} {w : Word} {i : Instr} (hr : r ∈ opcodeMap) (hd : decode w = .ok i)
    (hname : i.mnemonic = r.mnemonic) : r.hits w = true := by
  have ha := decode_mapAnswer w
  rw [hd] at ha
  cases ha with
  | command r' i hr' hit hname' hword =>
    rwa [opcodeMap_eq_of_mnemonic r hr r' hr' (hname.symm.trans hname'.symm)]

/-- A word that has the opcode of a row is decoded to the row's command or refused for a reserved bit: no other row has
that opcode. -/
theorem decode_of_op {r : OpcodeRow} {w : Word} (hr : r ∈ opcodeMap) (hop : fieldOp w = fieldOp r.value) :
    (r.hits w = true ∧ ∃ i, decode w = .ok i ∧ i.mnemonic = r.mnemonic) ∨
    (r.hits w = false ∧ decode w = .error (.reservedBits w)) := by
  have ha := decode_mapAnswer w
  generalize decode w = d at ha
  cases ha with
  | command r' i hr' hit hname hword =>
    have hop' := OpcodeRow.fieldOp_of_hits hr' hit
    obtain rfl := opcodeMap_eq_of_op r hr r' hr' (hop.symm.trans hop')
    exact .inl ⟨hit, i, rfl, hname.symm⟩
  | reservedBits r' hr' hop' hmiss =>
    obtain rfl := opcodeMap_eq_of_op r hr r' hr' (hop.symm.trans hop')
    exact .inr ⟨hmiss, rfl⟩
  | reservedOpcode hnone => exact absurd hop.symm (hnone r hr)

theorem decode_of_hits {r : OpcodeRow} {w : Word} (hr : r ∈ opcodeMap) (hit : r.hits w = true) :
    ∃ i, decode w = .ok i ∧ i.mnemonic = r.mnemonic := by
  rcases decode_of_op hr (OpcodeRow.fieldOp_of_hits hr hit) with ⟨-, hi⟩ | ⟨hmiss, -⟩
  · exact hi
  · rw [hit] at hmiss; cases hmiss

theorem decode_of_miss {r : OpcodeRow} {w : Word} (hr : r ∈ opcodeMap) (hop : fieldOp w = fieldOp r.value)
    (hmiss : r.hits w = false) : decode w = .error (.reservedBits w) := by
  rcases decode_of_op hr hop with ⟨hit, -⟩ | ⟨-, hd⟩
  · rw [hit] at hmiss; cases hmiss
  · exact hd

theorem decode_of_reservedOpcode {w : Word} (hnone : ∀ r ∈ opcodeMap, fieldOp r.value ≠ fieldOp w) :
    decode w = .error (.reservedOpcode (fieldOp w)) := by
  have ha := decode_mapAnswer w
  generalize decode w = d at ha
  cases ha with
  | command r i hr hit hname hword => exact absurd (OpcodeRow.fieldOp_of_hits hr hit).symm (hnone r hr)
  | reservedBits r hr hop hmiss => exact absurd hop.symm (hnone r hr)
  | reservedOpcode _ => rfl

/-! ### The statements -/

/-- Settles O2: the decoder answers a command only for the command's encoding. -/
theorem encodeOfDecodeIsIdentity : Obligations.EncodeOfDecodeIsIdentity := by
  intro w i hd
  have ha := decode_mapAnswer w
  rw [hd] at ha
  cases ha with
  | command r i hr hit hname hword => exact hword

/-- Settles O3: a row's opcode, and its mnemonic, are those of no other row. -/
theorem decodeFollowsOpcodeMap : Obligations.DecodeFollowsOpcodeMap := by
  intro w r hr
  have hhits : r.hits w = true ↔ w &&& r.mask = r.value := beq_iff_eq
  rw [← hhits]
  constructor
  · exact decode_of_hits hr
  · rintro ⟨i, hd, hname⟩
    exact OpcodeRow.hits_of_decode hr hd hname

end Sys2Proof

/-! PROOF. Words the idle block refuses (R114, R115, R286). -/

namespace Sys2Proof.Machine

/-- A word the decoder refuses for its opcode is refused by the idle block (R114). -/
theorem step_refuses_opcode {s : State} {w : Word} {es : List Event} {op : Byte} (hf : s.fg = .idle)
    (ha : s.agenda = .command w :: es) (hd : decode w = .error (.reservedOpcode op)) :
    step s = .refused (.reservedOpcode op) := by
  simp [step, s.event_cons _ _ ha, s.takeEvent_cons _ _ ha, commandOf, hf, hd]

/-- A word the decoder refuses for a reserved bit is refused by the idle block (R115). -/
theorem step_refuses_bits {s : State} {w v : Word} {es : List Event} (hf : s.fg = .idle)
    (ha : s.agenda = .command w :: es) (hd : decode w = .error (.reservedBits v)) :
    step s = .refused (.reservedBits v) := by
  simp [step, s.event_cons _ _ ha, s.takeEvent_cons _ _ ha, commandOf, hf, hd]

/-- Settles O4: the decoder refuses a word whose opcode no row has. -/
theorem reservedOpcodeIsRefused : Obligations.ReservedOpcodeIsRefused :=
  fun _ _ _ hf ha hnone => step_refuses_opcode hf ha (decode_of_reservedOpcode hnone)

/-- Settles O5: the decoder refuses a word that has the opcode of a row and misses the row. -/
theorem reservedBitIsRefused : Obligations.ReservedBitIsRefused :=
  fun _ _ _ _ hf ha hr hop hne => step_refuses_bits hf ha (decode_of_miss hr hop (beq_eq_false_iff_ne.2 hne))

end Sys2Proof.Machine

/-! PROOF. The store commands phase by phase (R141 to R143, R147, R149), and the write engine (R144). -/

namespace Sys2Proof.Machine

/-! ### The two device accesses and the completion of a write -/

/-- The state after a read access to cell `a` (R141). -/
def State.accessed (a : Addr) (s : State) : State :=
  { s with nvAddr := a, nvData := s.cell a, nvAccessCount := s.nvAccessCount + 1 }

/-- The state after a write of `v` to cell `a` has been issued (R142). -/
def State.issued (a : Addr) (v : Byte) (s : State) : State :=
  { s with
    nvAddr := a, nvData := v, nvBusy := true,
    nvWriteCount := s.nvWriteCount + 1, nvAccessCount := s.nvAccessCount + 1 }

/-- The state after `NVU` has completed the pending write (R144, R145). -/
def State.completed (worn : Option Byte) (s : State) : State :=
  { s.nvStore s.nvAddr (worn.getD s.nvData) with nvBusy := false }

theorem State.accessed_eq {s : State} {a : Addr} {b : Byte} (h : s.cell a = b) :
    s.accessed a = { s with nvAddr := a, nvData := b, nvAccessCount := s.nvAccessCount + 1 } := by
  rw [State.accessed, h]

@[simp] theorem State.accessed_nvm (s : State) (a : Addr) : (s.accessed a).nvm = s.nvm := rfl
@[simp] theorem State.accessed_nvBusy (s : State) (a : Addr) : (s.accessed a).nvBusy = s.nvBusy := rfl
@[simp] theorem State.accessed_nvWriteCount (s : State) (a : Addr) :
    (s.accessed a).nvWriteCount = s.nvWriteCount := rfl
@[simp] theorem State.accessed_nvAccessCount (s : State) (a : Addr) :
    (s.accessed a).nvAccessCount = s.nvAccessCount + 1 := rfl
@[simp] theorem State.accessed_cell (s : State) (a b : Addr) : (s.accessed a).cell b = s.cell b := rfl
@[simp] theorem State.respond_cell (s : State) (st : Status) (d : Byte) (a : Addr) :
    (s.respond st d).cell a = s.cell a := rfl

theorem addrValid_iff (p : Params) (a : Addr) : addrValid p a = true ↔ a.toNat ≤ p.maxAddress.toNat :=
  decide_eq_true_iff

theorem addrValid_eq_false_iff (p : Params) (a : Addr) :
    addrValid p a = false ↔ p.maxAddress.toNat < a.toNat := by
  rw [← Bool.not_eq_true, addrValid_iff, Nat.not_le]

/-- A completed write leaves the stored byte in the pending cell and every other cell as it was. -/
theorem State.cell_completed (worn : Option Byte) (s : State) (b : Addr) (h : Memory.wf s.params s.nvm = true) :
    (s.completed worn).cell b = if b = s.nvAddr then worn.getD s.nvData else s.cell b :=
  s.cell_nvStore s.nvAddr b _ h

theorem nvuStep_of_idle {s : State} (worn : Option Byte) (h : s.nvBusy = false) : nvuStep worn s = .next s := by
  simp [nvuStep, h]

theorem nvuStep_of_busy {s : State} (worn : Option Byte) (h : s.nvBusy = true)
    (ha : s.nvAddr.toNat ≤ s.params.maxAddress.toNat) : nvuStep worn s = .next (s.completed worn) := by
  rcases nvuStep_cases worn s with ⟨hb, -⟩ | ⟨-, -, he⟩ | ⟨-, hv, -⟩
  · rw [h] at hb; cases hb
  · exact he
  · rw [addrValid_eq_false_iff] at hv; omega

/-! ### The phase pairs of a read and of a write (R141, R142) -/

section
variable {s : State} {addr : Addr}

theorem readStep_nr0_of_valid (h : addr.toNat ≤ s.params.maxAddress.toNat) :
    readStep addr .nr0 s = .ok (.more .nr1) s := by
  simp [readStep, (addrValid_iff _ _).2 h]

theorem readStep_nr0_of_invalid (h : s.params.maxAddress.toNat < addr.toNat) :
    readStep addr .nr0 s = .ok (.done none) s := by
  simp [readStep, (addrValid_eq_false_iff _ _).2 h]

theorem readStep_nr1_of_busy (h : s.nvBusy = true) : readStep addr .nr1 s = .ok (.more .nr1) s := by
  simp [readStep, h]

theorem readStep_nr1_of_ready (h : s.nvBusy = false) (ha : addr.toNat ≤ s.params.maxAddress.toNat) :
    readStep addr .nr1 s = .ok (.done (some (s.cell addr))) (s.accessed addr) := by
  simp [readStep, h, State.nvRead_eq_some s addr ((addrValid_iff _ _).2 ha), State.accessed]

theorem writeStep_w0_of_valid (v : Byte) (h : addr.toNat ≤ s.params.maxAddress.toNat) :
    writeStep addr v .w0 s = .ok (.more .w1) s := by
  simp [writeStep, (addrValid_iff _ _).2 h]

theorem writeStep_w0_of_invalid (v : Byte) (h : s.params.maxAddress.toNat < addr.toNat) :
    writeStep addr v .w0 s = .ok (.done .invalidAddress) s := by
  simp [writeStep, (addrValid_eq_false_iff _ _).2 h]

theorem writeStep_w1_of_busy (v : Byte) (h : s.nvBusy = true) : writeStep addr v .w1 s = .ok (.more .w1) s := by
  simp [writeStep, h]

theorem writeStep_w1_of_ready (v : Byte) (h : s.nvBusy = false) :
    writeStep addr v .w1 s = .ok (.done .success) (s.issued addr v) := by
  simp [writeStep, h, State.issued]

end

/-! ### A phase of each command -/

/-- How `NV_READ` responds to the value of its phase pair; the data byte of a failed read is free (R120, log 5). -/
def State.respondRead (a : Option Byte) (s : State) : State :=
  match a with
  | none => s.draw.respond .invalidAddress (Config.freeByte s.drawn)
  | some b => s.respond .success b

section
variable {s : State} {addr : Addr} {v : Byte}

theorem exec_nvRead_run {r : ReadPhase} (h : s.fg = .run (.nvRead addr) (.nvRead r)) :
    exec (.nvRead addr) s = (readStep addr r s).run (.nvRead addr) .nvRead State.respondRead := by
  rw [exec, execNvRead, State.foreground_run _ _ _ _ s h]; rfl

theorem exec_nvRead_idle (h : s.fg = .idle) :
    exec (.nvRead addr) s = (readStep addr .nr0 s).run (.nvRead addr) .nvRead State.respondRead := by
  rw [exec, execNvRead, State.foreground_idle _ _ _ s h]; rfl

theorem exec_nvWrite_run {w : WritePhase} (h : s.fg = .run (.nvWrite addr v) (.nvWrite w)) :
    exec (.nvWrite addr v) s =
      (writeStep addr v w s).run (.nvWrite addr v) .nvWrite fun st t => t.respond st 0x00 := by
  rw [exec, execNvWrite, State.foreground_run _ _ _ _ s h]

theorem exec_nvWrite_idle (h : s.fg = .idle) :
    exec (.nvWrite addr v) s =
      (writeStep addr v .w0 s).run (.nvWrite addr v) .nvWrite fun st t => t.respond st 0x00 := by
  rw [exec, execNvWrite, State.foreground_idle _ _ _ s h]

theorem exec_nvUpdate_run {u : UpdatePhase} (h : s.fg = .run (.nvUpdate addr v) (.nvUpdate u)) :
    exec (.nvUpdate addr v) s =
      (updateStep addr v u s).run (.nvUpdate addr v) .nvUpdate fun st t => t.respond st 0x00 := by
  rw [exec, execNvUpdate, State.foreground_run _ _ _ _ s h]

theorem exec_nvUpdate_idle (h : s.fg = .idle) :
    exec (.nvUpdate addr v) s =
      (updateStep addr v (.u0 .nr0) s).run (.nvUpdate addr v) .nvUpdate fun st t => t.respond st 0x00 := by
  rw [exec, execNvUpdate, State.foreground_idle _ _ _ s h]

end

/-! ### The rows of `NV_READ` (R141) -/

section
variable {s : State} {addr : Addr}

theorem nvRead_starts (hf : s.fg = .idle) (ha : addr.toNat ≤ s.params.maxAddress.toNat) :
    exec (.nvRead addr) s = .next (s.goto (.nvRead addr) (.nvRead .nr1)) := by
  rw [exec_nvRead_idle hf, readStep_nr0_of_valid ha]; rfl

theorem nvRead_rejects (hf : s.fg = .idle) (ha : s.params.maxAddress.toNat < addr.toNat) :
    exec (.nvRead addr) s = .next (s.draw.respond .invalidAddress (Config.freeByte s.drawn)) := by
  rw [exec_nvRead_idle hf, readStep_nr0_of_invalid ha]; rfl

theorem nvRead_waits (hf : s.fg = .run (.nvRead addr) (.nvRead .nr1)) (hb : s.nvBusy = true) :
    exec (.nvRead addr) s = .next (s.goto (.nvRead addr) (.nvRead .nr1)) := by
  rw [exec_nvRead_run hf, readStep_nr1_of_busy hb]; rfl

theorem nvRead_accesses (hf : s.fg = .run (.nvRead addr) (.nvRead .nr1)) (hb : s.nvBusy = false)
    (ha : addr.toNat ≤ s.params.maxAddress.toNat) :
    exec (.nvRead addr) s = .next ((s.accessed addr).respond .success (s.cell addr)) := by
  rw [exec_nvRead_run hf, readStep_nr1_of_ready hb ha]; rfl

end

/-! ### The rows of `NV_WRITE` (R142) -/

section
variable {s : State} {addr : Addr} {v : Byte}

theorem nvWrite_starts (hf : s.fg = .idle) (ha : addr.toNat ≤ s.params.maxAddress.toNat) :
    exec (.nvWrite addr v) s = .next (s.goto (.nvWrite addr v) (.nvWrite .w1)) := by
  rw [exec_nvWrite_idle hf, writeStep_w0_of_valid v ha]; rfl

theorem nvWrite_rejects (hf : s.fg = .idle) (ha : s.params.maxAddress.toNat < addr.toNat) :
    exec (.nvWrite addr v) s = .next (s.respond .invalidAddress 0x00) := by
  rw [exec_nvWrite_idle hf, writeStep_w0_of_invalid v ha]; rfl

theorem nvWrite_waits (hf : s.fg = .run (.nvWrite addr v) (.nvWrite .w1)) (hb : s.nvBusy = true) :
    exec (.nvWrite addr v) s = .next (s.goto (.nvWrite addr v) (.nvWrite .w1)) := by
  rw [exec_nvWrite_run hf, writeStep_w1_of_busy v hb]; rfl

theorem nvWrite_issues (hf : s.fg = .run (.nvWrite addr v) (.nvWrite .w1)) (hb : s.nvBusy = false) :
    exec (.nvWrite addr v) s = .next ((s.issued addr v).respond .success 0x00) := by
  rw [exec_nvWrite_run hf, writeStep_w1_of_ready v hb]; rfl

end

/-! ### The rows of `NV_UPDATE` (R143, R149) -/

/-- The phases of `NV_UPDATE` that await the store. -/
inductive UpdatePhase.Awaits : UpdatePhase → Prop
  | read : Awaits (.u0 .nr1)
  | write : Awaits (.u2 .w1)
  | readback : Awaits (.u3 .nr1)

/-- The state with `NV_UPDATE addr, v` at one of its phases. -/
def State.updating (addr : Addr) (v : Byte) (u : UpdatePhase) (s : State) : State :=
  s.goto (.nvUpdate addr v) (.nvUpdate u)

section
variable {s : State} {addr : Addr} {v : Byte}

theorem nvUpdate_starts (hf : s.fg = .idle) (ha : addr.toNat ≤ s.params.maxAddress.toNat) :
    exec (.nvUpdate addr v) s = .next (s.updating addr v (.u0 .nr1)) := by
  rw [exec_nvUpdate_idle hf, updateStep, readStep_nr0_of_valid ha]; rfl

theorem nvUpdate_rejects (hf : s.fg = .idle) (ha : s.params.maxAddress.toNat < addr.toNat) :
    exec (.nvUpdate addr v) s = .next (s.respond .invalidAddress 0x00) := by
  rw [exec_nvUpdate_idle hf, updateStep, readStep_nr0_of_invalid ha]; rfl

theorem nvUpdate_waits {u : UpdatePhase} (hu : u.Awaits) (hb : s.nvBusy = true) :
    exec (.nvUpdate addr v) (s.updating addr v u) = .next (s.updating addr v u) := by
  have hb' : (s.updating addr v u).nvBusy = true := hb
  rw [exec_nvUpdate_run rfl]
  cases hu with
  | read => rw [updateStep, readStep_nr1_of_busy hb']; rfl
  | write => rw [updateStep, writeStep_w1_of_busy v hb']; rfl
  | readback => rw [updateStep, readStep_nr1_of_busy hb']; rfl

theorem nvUpdate_reads (hb : s.nvBusy = false) (ha : addr.toNat ≤ s.params.maxAddress.toNat) :
    exec (.nvUpdate addr v) (s.updating addr v (.u0 .nr1)) =
      .next ((s.accessed addr).updating addr v (.u1 (s.cell addr))) := by
  rw [exec_nvUpdate_run rfl, updateStep, readStep_nr1_of_ready (s := s.updating addr v _) hb ha]; rfl

theorem nvUpdate_finds_equal {cur : Byte} (h : cur = v) :
    exec (.nvUpdate addr v) (s.updating addr v (.u1 cur)) = .next (s.respond .success 0x00) := by
  rw [exec_nvUpdate_run rfl, updateStep, if_pos h]; rfl

theorem nvUpdate_finds_differing {cur : Byte} (h : cur ≠ v) :
    exec (.nvUpdate addr v) (s.updating addr v (.u1 cur)) = .next (s.updating addr v (.u2 .w0)) := by
  rw [exec_nvUpdate_run rfl, updateStep, if_neg h]; rfl

theorem nvUpdate_checks_write (ha : addr.toNat ≤ s.params.maxAddress.toNat) :
    exec (.nvUpdate addr v) (s.updating addr v (.u2 .w0)) = .next (s.updating addr v (.u2 .w1)) := by
  rw [exec_nvUpdate_run rfl, updateStep, writeStep_w0_of_valid (s := s.updating addr v _) v ha]; rfl

theorem nvUpdate_issues (hb : s.nvBusy = false) :
    exec (.nvUpdate addr v) (s.updating addr v (.u2 .w1)) =
      .next ((s.issued addr v).updating addr v (.u3 .nr0)) := by
  rw [exec_nvUpdate_run rfl, updateStep, writeStep_w1_of_ready (s := s.updating addr v _) v hb]; rfl

theorem nvUpdate_checks_readback (ha : addr.toNat ≤ s.params.maxAddress.toNat) :
    exec (.nvUpdate addr v) (s.updating addr v (.u3 .nr0)) = .next (s.updating addr v (.u3 .nr1)) := by
  rw [exec_nvUpdate_run rfl, updateStep, readStep_nr0_of_valid (s := s.updating addr v _) ha]; rfl

theorem nvUpdate_reads_back (hb : s.nvBusy = false) (ha : addr.toNat ≤ s.params.maxAddress.toNat) :
    exec (.nvUpdate addr v) (s.updating addr v (.u3 .nr1)) =
      .next ((s.accessed addr).updating addr v (.u4 (s.cell addr))) := by
  rw [exec_nvUpdate_run rfl, updateStep, readStep_nr1_of_ready (s := s.updating addr v _) hb ha]; rfl

theorem nvUpdate_verifies (rb : Byte) :
    exec (.nvUpdate addr v) (s.updating addr v (.u4 rb)) =
      .next (s.respond (if rb = v then .success else .verifyFail) 0x00) := by
  rw [exec_nvUpdate_run rfl]; rfl

end

/-! ### The statements -/

/-- Settles O10: each command's first phase checks the bound, and answers on a failed check. -/
theorem invalidAddressNoAccess : Obligations.InvalidAddressNoAccess :=
  fun _ _ _ ha => ⟨⟨_, nvRead_rejects rfl ha⟩, nvWrite_rejects rfl ha, nvUpdate_rejects rfl ha⟩

/-- Settles O11, from the rows of `NV_READ`. -/
theorem nvReadPhases : Obligations.NvReadPhases :=
  fun _ _ ha => ⟨nvRead_starts rfl ha, fun hb => nvRead_waits rfl hb, fun hb => nvRead_accesses rfl hb ha⟩

/-- Settles O12, from the rows of `NV_WRITE`. -/
theorem nvWritePhases : Obligations.NvWritePhases :=
  fun _ _ _ ha => ⟨nvWrite_starts rfl ha, fun hb => nvWrite_waits rfl hb, fun hb => nvWrite_issues rfl hb⟩

/-- Settles O13, from the rows of `NV_UPDATE`. -/
theorem nvUpdateStateMachine : Obligations.NvUpdateStateMachine := by
  intro s addr v cur
  dsimp only
  refine ⟨fun ha => nvUpdate_rejects rfl ha, fun ha => ?_, fun hb => ?_, fun hb ha => ?_, fun he => ?_,
    fun hne => ?_⟩
  · exact ⟨nvUpdate_starts rfl ha, nvUpdate_checks_write ha, nvUpdate_checks_readback ha⟩
  · exact ⟨nvUpdate_waits .read hb, nvUpdate_waits .write hb, nvUpdate_waits .readback hb⟩
  · exact ⟨nvUpdate_reads hb ha, nvUpdate_issues hb, nvUpdate_reads_back hb ha⟩
  · exact ⟨nvUpdate_finds_equal he, (nvUpdate_verifies (s := s) cur).trans (by rw [if_pos he]; rfl)⟩
  · exact ⟨nvUpdate_finds_differing hne, (nvUpdate_verifies (s := s) cur).trans (by rw [if_neg hne]; rfl)⟩

/-- Settles O14: `NVU` completes a write to a cell that exists, and passes when none is pending. -/
theorem nvuCompletesPendingWrite : Obligations.NvuCompletesPendingWrite := by
  intro s worn es hag
  have hstep : step s = nvuStep worn (s.withAgenda es) := step_agent s _ es hag rfl
  refine ⟨fun hb ha hm => ⟨(s.withAgenda es).completed worn, ?_, rfl, ?_, fun b hne => ?_, ?_⟩, fun hb => ?_⟩
  · rw [hstep]; exact nvuStep_of_busy worn hb ha
  · exact ((s.withAgenda es).cell_completed worn _ hm).trans (if_pos rfl)
  · exact ((s.withAgenda es).cell_completed worn b hm).trans (if_neg hne)
  · exact Memory.wf_write _ _ _ _ hm ha
  · rw [hstep]; exact nvuStep_of_idle worn hb

end Sys2Proof.Machine

/-! PROOF. Runs of the store beside the background agents (R11, R93, R150): a run of the store on its own, event by
event, is the run of any interleaving of its events with those of the handlers, the transmitter, the receiver and the
shifter. -/

namespace Sys2Proof.Machine

/-! ### Building an interleaving -/

/-- Any events of the others may come before an own event. -/
theorem Interleaves.cons_of_others {own : List Event} {other : Event → Bool} {e : Event} {bs es : List Event}
    (hb : ∀ b ∈ bs, other b = true) (he : other e = false) (h : Interleaves own other es) :
    Interleaves (e :: own) other (bs ++ e :: es) := by
  have hbs : bs.filter (fun e => !other e) = [] := List.filter_eq_nil_iff.2 fun b hm => by simp [hb b hm]
  have hown : es.filter (fun e => !other e) = own := h
  simp [Interleaves, hbs, he, hown]

/-! ### What the store shares with nobody -/

/-- What no store command and no step of `NVU` reads or writes: the serial part, the shifter, the bus trace, and the
pending events, of which a step takes the head. -/
structure OffStore extends SerialPart where
  spiData : Byte
  spiBusy : Bool
  spiDone : Bool
  busTrace : List BusEvent
  agenda : List Event

/-- The state with another part off the store. -/
def State.withOffStore (s : State) (o : OffStore) : State :=
  { s.withSerial o.toSerialPart with
    spiData := o.spiData, spiBusy := o.spiBusy, spiDone := o.spiDone, busTrace := o.busTrace, agenda := o.agenda }

/-- The part of a state off the store. -/
def State.offStore (s : State) : OffStore :=
  ⟨s.serial, s.spiData, s.spiBusy, s.spiDone, s.busTrace, s.agenda⟩

@[simp] theorem State.withOffStore_fg (s : State) (o : OffStore) : (s.withOffStore o).fg = s.fg := rfl
@[simp] theorem State.withOffStore_nvm (s : State) (o : OffStore) : (s.withOffStore o).nvm = s.nvm := rfl
@[simp] theorem State.withOffStore_nvBusy (s : State) (o : OffStore) : (s.withOffStore o).nvBusy = s.nvBusy := rfl
@[simp] theorem State.withOffStore_nvWriteCount (s : State) (o : OffStore) :
    (s.withOffStore o).nvWriteCount = s.nvWriteCount := rfl
@[simp] theorem State.withOffStore_nvAccessCount (s : State) (o : OffStore) :
    (s.withOffStore o).nvAccessCount = s.nvAccessCount := rfl
@[simp] theorem State.withOffStore_cell (s : State) (o : OffStore) (a : Addr) :
    (s.withOffStore o).cell a = s.cell a := rfl

/-- A background step changes the part off the store only (R150). -/
theorem step_background_withOffStore (s : State) (o : OffStore) (e : Event) (k : List Event)
    (ha : o.agenda = e :: k) (hb : isBackground e = true) :
    ∃ o', o'.agenda = k ∧ step (s.withOffStore o) = .next (s.withOffStore o') := by
  obtain ⟨p, x, y, d, tr, h⟩ := step_background (s.withOffStore o) e k ha hb
  exact ⟨⟨p, x, y, d, tr, k⟩, rfl, h⟩

/-! ### The store commands and the part off the store -/

/-- The commands of the store (R141 to R143). -/
inductive StoreCommand : Instr → Prop
  | read (addr : Addr) : StoreCommand (.nvRead addr)
  | write (addr : Addr) (v : Byte) : StoreCommand (.nvWrite addr v)
  | update (addr : Addr) (v : Byte) : StoreCommand (.nvUpdate addr v)

/-- Where the inner sequence `x` goes on, so does `y`, with the part off the store as it finds it. -/
def Sub.CarriesOver {π α : Type} (o : OffStore) (x y : Sub π α) : Prop :=
  ∀ q t, x = .ok q t → y = .ok q (t.withOffStore o)

theorem readStep_carriesOver (addr : Addr) (r : ReadPhase) (s : State) (o : OffStore) :
    (readStep addr r s).CarriesOver o (readStep addr r (s.withOffStore o)) := by
  intro q t h
  rcases readStep_ok _ _ _ _ _ h with ⟨rfl, -⟩ | ⟨rfl, hb, rfl, rfl⟩ | ⟨b, rfl, hb, hr, rfl, rfl⟩
  · cases h; rfl
  · exact readStep_nr1_of_busy hb
  · have hv := State.nvRead_valid hr
    obtain rfl : s.cell addr = b := Option.some.inj ((s.nvRead_eq_some addr hv).symm.trans hr)
    exact readStep_nr1_of_ready hb ((addrValid_iff _ _).1 hv)

theorem writeStep_carriesOver (addr : Addr) (v : Byte) (w : WritePhase) (s : State) (o : OffStore) :
    (writeStep addr v w s).CarriesOver o (writeStep addr v w (s.withOffStore o)) := by
  intro q t h
  rcases writeStep_ok _ _ _ _ _ _ h with ⟨rfl, -⟩ | ⟨rfl, hb, rfl, rfl⟩ | ⟨rfl, hb, rfl, rfl⟩
  · cases h; rfl
  · exact writeStep_w1_of_busy v hb
  · exact writeStep_w1_of_ready v hb

theorem Sub.CarriesOver.andThen {π α ρ β : Type} {o : OffStore} {x y : Sub π α} (h : x.CarriesOver o y)
    (wrap : π → ρ) (follow : α → Progress ρ β) : (x.andThen wrap follow).CarriesOver o (y.andThen wrap follow) := by
  intro q t hx
  rcases Sub.andThen_ok _ _ _ _ _ hx with ⟨q', hq, rfl⟩ | ⟨a, hq, rfl⟩ <;> rw [h _ _ hq] <;> rfl

theorem updateStep_carriesOver (addr : Addr) (v : Byte) (u : UpdatePhase) (s : State) (o : OffStore) :
    (updateStep addr v u s).CarriesOver o (updateStep addr v u (s.withOffStore o)) := by
  cases u with
  | u0 r => exact (readStep_carriesOver addr r s o).andThen _ _
  | u1 cur => intro q t h; cases h; rfl
  | u2 w => exact (writeStep_carriesOver addr v w s o).andThen _ _
  | u3 r => exact (readStep_carriesOver addr r s o).andThen _ _
  | u4 rb => intro q t h; cases h; rfl

theorem Sub.CarriesOver.run {π α : Type} {o : OffStore} {x y : Sub π α} (h : x.CarriesOver o y) {i : Instr}
    {wrap : π → Phase} {fin : α → State → State}
    (hfin : ∀ a t, fin a (t.withOffStore o) = (fin a t).withOffStore o) {t : State}
    (hx : x.run i wrap fin = .next t) :
    y.run i wrap fin = .next (t.withOffStore o) := by
  rcases Sub.run_next _ _ _ _ _ hx with ⟨q, u, hq, rfl⟩ | ⟨a, u, hq, rfl⟩ <;> rw [h _ _ hq]
  · rfl
  · exact congrArg Host.Outcome.next (hfin a u)

theorem State.foreground_withOffStore {s t : State} {o : OffStore} {i : Instr} {first : Phase}
    {body body' : Phase → Result}
    (hbody : ∀ ph, body ph = .next t → body' ph = .next (t.withOffStore o))
    (h : s.foreground i first body = .next t) :
    (s.withOffStore o).foreground i first body' = .next (t.withOffStore o) := by
  rcases State.foreground_cases i first body s with ⟨hf, he⟩ | ⟨ph, hf, he⟩ | ⟨-, -, -, -, he⟩ <;>
    rw [he] at h
  · rw [State.foreground_idle _ _ _ (s.withOffStore o) hf]; exact hbody _ h
  · rw [State.foreground_run _ _ ph _ (s.withOffStore o) hf]; exact hbody _ h
  · cases h

/-- A phase of a store command neither reads nor writes the part off the store. -/
theorem exec_withOffStore {i : Instr} (hi : StoreCommand i) {s t : State} (o : OffStore) (h : exec i s = .next t) :
    exec i (s.withOffStore o) = .next (t.withOffStore o) := by
  cases hi with
  | read addr =>
    rw [exec, execNvRead] at h ⊢
    refine State.foreground_withOffStore (fun ph hp => ?_) h
    cases ph with
    | nvRead r => exact (readStep_carriesOver addr r s o).run (fun a t => by cases a <;> rfl) hp
    | _ => cases hp
  | write addr v =>
    rw [exec, execNvWrite] at h ⊢
    refine State.foreground_withOffStore (fun ph hp => ?_) h
    cases ph with
    | nvWrite w => exact (writeStep_carriesOver addr v w s o).run (fun _ _ => rfl) hp
    | _ => cases hp
  | update addr v =>
    rw [exec, execNvUpdate] at h ⊢
    refine State.foreground_withOffStore (fun ph hp => ?_) h
    cases ph with
    | nvUpdate u => exact (updateStep_carriesOver addr v u s o).run (fun _ _ => rfl) hp
    | _ => cases hp

theorem nvuStep_withOffStore {worn : Option Byte} {s t : State} (o : OffStore) (h : nvuStep worn s = .next t) :
    nvuStep worn (s.withOffStore o) = .next (t.withOffStore o) := by
  rcases nvuStep_cases worn s with ⟨hb, he⟩ | ⟨hb, hv, he⟩ | ⟨-, -, he⟩ <;> rw [he] at h <;> cases h
  · exact nvuStep_of_idle worn hb
  · exact nvuStep_of_busy (s := s.withOffStore o) worn hb ((addrValid_iff _ _).1 hv)

/-! ### A run of the store on its own -/

/-- What an event of the store does: a word that starts a store command, a phase of one, or a step of `NVU`. -/
inductive StoreStep : State → Event → State → Prop
  | word {s t : State} {w : Word} {i : Instr} (hi : StoreCommand i) (hf : s.fg = .idle) (hd : decode w = .ok i)
      (hx : exec i s = .next t) : StoreStep s (.command w) t
  | phase {s t : State} {i : Instr} {ph : Phase} (hi : StoreCommand i) (hf : s.fg = .run i ph)
      (hx : exec i s = .next t) : StoreStep s .fg t
  | nvu {s t : State} {worn : Option Byte} (hx : nvuStep worn s = .next t) : StoreStep s (.nvu worn) t

/-- A run of the store, one event after the other. -/
inductive StoreRun : State → List Event → State → Prop
  | nil (s : State) : StoreRun s [] s
  | cons {s t u : State} {e : Event} {es : List Event} (h : StoreStep s e t) (hr : StoreRun t es u) :
      StoreRun s (e :: es) u

theorem StoreRun.append {s t u : State} {es fs : List Event} (h : StoreRun s es t) (h' : StoreRun t fs u) :
    StoreRun s (es ++ fs) u := by
  induction h with
  | nil s => exact h'
  | cons hstep _ ih => exact .cons hstep (ih h')

/-- An event that changes nothing may come any number of times. -/
theorem StoreStep.replicate {s : State} {e : Event} (h : StoreStep s e s) (n : Nat) :
    StoreRun s (List.replicate n e) s := by
  induction n with
  | zero => exact .nil s
  | succ n ih => exact .cons h ih

/-- The block takes the store's step, whatever stands off the store. -/
theorem StoreStep.step_withOffStore {s t : State} {e : Event} (h : StoreStep s e t) (o : OffStore) (k : List Event)
    (ha : o.agenda = e :: k) : step (s.withOffStore o) = .next (t.withOffStore { o with agenda := k }) := by
  cases h with
  | word hi hf hd hx =>
    rw [stepRunsPresentedCommand (s.withOffStore o) _ _ k hf ha hd]
    exact (exec_withOffStore hi { o with agenda := k } hx :)
  | phase hi hf hx =>
    obtain ⟨hrun, -⟩ := stepRunsCommandUnderWay (s.withOffStore o) k ha
    rw [hrun _ _ hf]
    exact (exec_withOffStore hi { o with agenda := k } hx :)
  | nvu hx =>
    rw [step_agent (s.withOffStore o) _ k ha rfl]
    exact (nvuStep_withOffStore { o with agenda := k } hx :)

/-- The block takes the store's run, whatever the background agents do between its events (R11); where they do nothing,
the part off the store stays as it was. -/
theorem StoreRun.interleaved {s t : State} {own es rest : List Event} (h : StoreRun s own t)
    (hes : Interleaves own isBackground es) (o : OffStore) (ha : o.agenda = es ++ rest) :
    ∃ o', Host.Core.run Sys2Proof.core es.length (s.withOffStore o) = .next (t.withOffStore o') ∧
      o'.agenda = rest ∧ ((∀ e ∈ es, isBackground e = false) → o' = { o with agenda := rest }) := by
  induction es generalizing s own o with
  | nil =>
    obtain rfl : [] = own := hes
    cases h
    have hrest : o.agenda = rest := ha
    exact ⟨o, rfl, hrest, fun _ => by rw [← hrest]⟩
  | cons e es ih =>
    rw [List.length_cons, Nat.add_comm]
    cases hb : isBackground e with
    | true =>
      obtain ⟨o', ha', hstep⟩ := step_background_withOffStore s o e _ ha hb
      have hes' : Interleaves own isBackground es := by simpa [Interleaves, hb] using hes
      obtain ⟨o'', hrun, hag, -⟩ := ih h hes' o' ha'
      refine ⟨o'', run_trans (run_one hstep) hrun, hag, fun hquiet => ?_⟩
      simp [hquiet e (by simp)] at hb
    | false =>
      obtain rfl : e :: es.filter (fun e => !isBackground e) = own := by simpa [Interleaves, hb] using hes
      cases h with
      | cons hfirst hothers =>
        obtain ⟨o', hrun, hag, hquiet⟩ := ih hothers rfl { o with agenda := es ++ rest } rfl
        have hstep := hfirst.step_withOffStore o (es ++ rest) ha
        exact ⟨o', run_trans (run_one hstep) hrun, hag, fun hq => hquiet fun e he => hq e (by simp [he])⟩

/-- The run from a state on which a command's word is pending, before an interleaving of the store's other events. -/
theorem StoreRun.interleaved_word {s t : State} {w : Word} {own es : List Event} (h : StoreRun s (.command w :: own) t)
    (hes : Interleaves own isBackground es) (rest : List Event) :
    ∃ o, Host.Core.run Sys2Proof.core (1 + es.length) (s.withAgenda (.command w :: es ++ rest)) =
        .next (t.withOffStore o) ∧
      o.agenda = rest ∧ ((∀ e ∈ es, isBackground e = false) → o = { s.offStore with agenda := rest }) := by
  have hword : Interleaves (.command w :: own) isBackground (.command w :: es) :=
    Interleaves.cons_of_others (bs := []) (by simp) rfl hes
  obtain ⟨o, hrun, hag, hquiet⟩ :=
    h.interleaved hword { s.offStore with agenda := .command w :: es ++ rest } rfl
  rw [List.length_cons, Nat.add_comm] at hrun
  exact ⟨o, hrun, hag, fun hq => hquiet (by simpa [isBackground] using hq)⟩

end Sys2Proof.Machine

/-! PROOF. The store commands run to their response (R141 to R146, R149). -/

namespace Sys2Proof.Machine

/-! ### One event of the store -/

section
variable {s t : State} {addr : Addr} {v : Byte}

/-- A command's word runs its first phase. -/
theorem StoreStep.start {i : Instr} (hi : StoreCommand i) (hf : s.fg = .idle) (hx : exec i s = .next t) :
    StoreStep s (.command (encode i)) t :=
  .word hi hf (decodeOfEncodeIsIdentity i) hx

theorem StoreStep.updating {u : UpdatePhase} (hx : exec (.nvUpdate addr v) (s.updating addr v u) = .next t) :
    StoreStep (s.updating addr v u) .fg t :=
  .phase (.update addr v) rfl hx

theorem StoreStep.completes (worn : Option Byte) (hb : s.nvBusy = true)
    (ha : s.nvAddr.toNat ≤ s.params.maxAddress.toNat) : StoreStep s (.nvu worn) (s.completed worn) :=
  .nvu (nvuStep_of_busy worn hb ha)

/-! ### A write, then a read -/

/-- The state after `NV_WRITE addr, v` and its completion by `NVU` on a healthy medium (R142, R144). -/
def State.written (addr : Addr) (v : Byte) (s : State) : State :=
  ((s.issued addr v).respond .success 0x00).completed none

theorem State.cell_written (b : Addr) (h : Memory.wf s.params s.nvm = true) :
    (s.written addr v).cell b = if b = addr then v else s.cell b :=
  State.cell_completed none ((s.issued addr v).respond .success 0x00) b h

theorem nvWrite_run (hf : s.fg = .idle) (hb : s.nvBusy = false) (ha : addr.toNat ≤ s.params.maxAddress.toNat) :
    StoreRun s [.command (encode (.nvWrite addr v)), .fg, .nvu none] (s.written addr v) :=
  .cons (.start (.write addr v) hf (nvWrite_starts hf ha)) <|
  .cons (.phase (.write addr v) rfl (nvWrite_issues (s := s.goto _ _) rfl hb)) <|
  .cons (.completes none rfl ha) <|
  .nil _

theorem nvRead_run (hf : s.fg = .idle) (hb : s.nvBusy = false) (ha : addr.toNat ≤ s.params.maxAddress.toNat) :
    StoreRun s [.command (encode (.nvRead addr)), .fg] ((s.accessed addr).respond .success (s.cell addr)) :=
  .cons (.start (.read addr) hf (nvRead_starts hf ha)) <|
  .cons (.phase (.read addr) rfl (nvRead_accesses (s := s.goto _ _) rfl hb ha)) <|
  .nil _

/-! ### An update -/

/-- `NV_UPDATE` of a cell that holds the value: one read, no write (R143 (d)). -/
theorem nvUpdate_run_of_equal (hf : s.fg = .idle) (hb : s.nvBusy = false)
    (ha : addr.toNat ≤ s.params.maxAddress.toNat) (he : s.cell addr = v) :
    StoreRun s [.command (encode (.nvUpdate addr v)), .fg, .fg] ((s.accessed addr).respond .success 0x00) :=
  .cons (.start (.update addr v) hf (nvUpdate_starts hf ha)) <|
  .cons (.updating (nvUpdate_reads hb ha)) <|
  .cons (.updating (nvUpdate_finds_equal he)) <|
  .nil _

/-- `NV_UPDATE` of a cell that differs, up to the read-back: one read, one write issued (U0 to U2). -/
theorem nvUpdate_run_to_readback (hf : s.fg = .idle) (hb : s.nvBusy = false)
    (ha : addr.toNat ≤ s.params.maxAddress.toNat) (hne : s.cell addr ≠ v) :
    StoreRun s (.command (encode (.nvUpdate addr v)) :: List.replicate 4 .fg)
      (((s.accessed addr).issued addr v).updating addr v (.u3 .nr0)) :=
  .cons (.start (.update addr v) hf (nvUpdate_starts hf ha)) <|
  .cons (.updating (nvUpdate_reads hb ha)) <|
  .cons (.updating (nvUpdate_finds_differing hne)) <|
  .cons (.updating (nvUpdate_checks_write (s := s.accessed addr) ha)) <|
  .cons (.updating (nvUpdate_issues (s := s.accessed addr) hb)) <|
  .nil _

/-- The state after a read-back of cell `addr` and its verification against `v` (U3, U4). -/
def State.verified (addr : Addr) (v : Byte) (s : State) : State :=
  (s.accessed addr).respond (if s.cell addr = v then .success else .verifyFail) 0x00

/-- The last two phases of `NV_UPDATE`, with no write pending. -/
theorem nvUpdate_run_verify (hb : s.nvBusy = false) (ha : addr.toNat ≤ s.params.maxAddress.toNat) :
    StoreRun (s.updating addr v (.u3 .nr1)) (List.replicate 2 .fg) (s.verified addr v) :=
  .cons (.updating (nvUpdate_reads_back hb ha)) <|
  .cons (.updating (nvUpdate_verifies (s.cell addr))) <|
  .nil _

/-- The read-back of `NV_UPDATE` with its write pending: the first of the further steps of `FG` is the bound
check, which is done after `NVU` where there is none. -/
theorem nvUpdate_run_readback (worn : Option Byte) (waits : Nat) (hb : s.nvBusy = true) (hp : s.nvAddr = addr)
    (ha : addr.toNat ≤ s.params.maxAddress.toNat) :
    StoreRun (s.updating addr v (.u3 .nr0))
      (List.replicate waits .fg ++ .nvu worn :: List.replicate (if waits = 0 then 3 else 2) .fg)
      ((s.completed worn).verified addr v) := by
  have hpa : s.nvAddr.toNat ≤ s.params.maxAddress.toNat := hp ▸ ha
  have hverify : StoreRun ((s.completed worn).updating addr v (.u3 .nr1)) (List.replicate 2 .fg)
      ((s.completed worn).verified addr v) := nvUpdate_run_verify rfl ha
  cases waits with
  | zero =>
    exact .cons (.completes (s := s.updating addr v _) worn hb hpa) <|
      .cons (.updating (nvUpdate_checks_readback (s := s.completed worn) ha)) hverify
  | succ n =>
    have hwait : StoreStep (s.updating addr v (.u3 .nr1)) .fg (s.updating addr v (.u3 .nr1)) :=
      .updating (nvUpdate_waits .readback hb)
    exact .cons (.updating (nvUpdate_checks_readback ha)) <| (hwait.replicate n).append <|
      .cons (.completes (s := s.updating addr v _) worn hb hpa) hverify

/-- The state after `NV_UPDATE addr, v` of a cell that differs, the medium storing `worn` if it is worn: one write and
two reads, and the status says whether the medium stored `v` (R145, R282). -/
def State.updated (addr : Addr) (v : Byte) (worn : Option Byte) (s : State) : State :=
  { s with
    nvm := Memory.write s.params s.nvm addr.toNat (worn.getD v), nvAddr := addr, nvData := worn.getD v
    rsp := if worn.getD v = v then 0x0000 else 0x0200
    nvWriteCount := s.nvWriteCount + 1, nvAccessCount := s.nvAccessCount + 3 }

@[simp] theorem State.updated_fg (worn : Option Byte) : (s.updated addr v worn).fg = s.fg := rfl
@[simp] theorem State.updated_nvBusy (worn : Option Byte) : (s.updated addr v worn).nvBusy = s.nvBusy := rfl

theorem State.cell_updated (worn : Option Byte) (b : Addr) (h : Memory.wf s.params s.nvm = true) :
    (s.updated addr v worn).cell b = if b = addr then worn.getD v else s.cell b :=
  s.cell_nvStore addr b _ h

/-- What the read-back finds is what the medium stored. -/
theorem State.verified_eq_updated (worn : Option Byte) (hf : s.fg = .idle) (hb : s.nvBusy = false)
    (hm : Memory.wf s.params s.nvm = true) :
    (((s.accessed addr).issued addr v).completed worn).verified addr v = s.updated addr v worn := by
  have hc : (((s.accessed addr).issued addr v).completed worn).cell addr = worn.getD v :=
    (State.cell_completed worn ((s.accessed addr).issued addr v) addr hm).trans (if_pos rfl)
  unfold State.verified State.updated
  rw [State.accessed_eq hc, hc]
  split <;> simp [State.accessed, State.issued, State.completed, State.nvStore, State.respond, hf, hb] <;> rfl

theorem nvUpdate_run_of_differing (worn : Option Byte) (waits : Nat) (hf : s.fg = .idle) (hb : s.nvBusy = false)
    (ha : addr.toNat ≤ s.params.maxAddress.toNat) (hm : Memory.wf s.params s.nvm = true) (hne : s.cell addr ≠ v) :
    StoreRun s (.command (encode (.nvUpdate addr v)) ::
      (List.replicate (4 + waits) .fg ++ .nvu worn :: List.replicate (if waits = 0 then 3 else 2) .fg))
      (s.updated addr v worn) := by
  have hback := nvUpdate_run_readback (s := (s.accessed addr).issued addr v) (addr := addr) (v := v)
    worn waits rfl rfl ha
  rw [State.verified_eq_updated worn hf hb hm] at hback
  rw [List.replicate_add, List.append_assoc, ← List.cons_append]
  exact (nvUpdate_run_to_readback hf hb ha hne).append hback

end

/-! ### The statements -/

/-- Settles O16: the read finds the cell that `NVU` has stored. -/
theorem writeThenReadReturnsValue : Obligations.WriteThenReadReturnsValue := by
  intro s addr v q₁ q₂ q₃ q₄ rest hf hb ha hm hq
  simp only [List.mem_append, or_imp, forall_and] at hq
  obtain ⟨⟨⟨h₁, h₂⟩, h₃⟩, h₄⟩ := hq
  have hes : Interleaves [.fg, .nvu none, .command (encode (.nvRead addr)), .fg] isBackground
      (q₁ ++ .fg :: (q₂ ++ .nvu none :: (q₃ ++ .command (encode (.nvRead addr)) :: (q₄ ++ [.fg])))) :=
    .cons_of_others h₁ rfl <| .cons_of_others h₂ rfl <| .cons_of_others h₃ rfl <| .cons_of_others h₄ rfl rfl
  have hcell (b : Addr) := State.cell_written (s := s) (addr := addr) (v := v) b hm
  have hread : StoreRun (s.written addr v) [.command (encode (.nvRead addr)), .fg] _ := nvRead_run rfl rfl ha
  rw [hcell addr, if_pos rfl] at hread
  have hrun := (nvWrite_run hf hb ha).append hread
  obtain ⟨o, hrun, hag, -⟩ := hrun.interleaved_word hes rest
  -- the statement brackets its list, and counts its steps, in another way
  have hrun' (n : Nat) (l : List Event) (hn : n = _) (hl : l = _) :=
    (congrArg₂ (fun n l => Host.Core.run Sys2Proof.core n (s.withAgenda l)) hn hl).trans hrun
  refine ⟨_, hrun' _ _ ?_ ?_, hag, rfl, rfl, by simp [hcell], fun b hne => by simp [hcell, hne]⟩
  · simp only [List.length_append, List.length_cons, List.length_nil]; omega
  · simp

/-- Settles O17: the update's run on the store alone, taken by the block beside the background agents. -/
theorem updateVerifiesWhatWasStored : Obligations.UpdateVerifiesWhatWasStored := by
  intro s addr v worn waits es rest hf hb ha hm hne hes
  have hcell (b : Addr) := State.cell_updated (s := s) (addr := addr) (v := v) worn b hm
  obtain ⟨o, hrun, hag, hquiet⟩ := (nvUpdate_run_of_differing worn waits hf hb ha hm hne).interleaved_word hes rest
  refine ⟨_, hrun, hag, by simpa using hf, rfl, by simpa using hb, rfl, rfl, by simp [hcell],
    fun b hne' => by simp [hcell, hne'], fun hq => ?_⟩
  rw [hquiet hq]; rfl

/-- Settles O18: after the first call the cell holds the value, so the second one only reads. -/
theorem updateTwiceWritesOnce : Obligations.UpdateTwiceWritesOnce := by
  intro s addr v waits es rest hf hb ha hm
  refine ⟨fun hne hes => ?_, fun he hes => ?_⟩
  · have hcell (b : Addr) := State.cell_updated (s := s) (addr := addr) (v := v) none b hm
    have hv : (s.updated addr v none).cell addr = v := (hcell addr).trans (if_pos rfl)
    have hagain := nvUpdate_run_of_equal (s := s.updated addr v none) hf hb ha hv
    obtain ⟨o, hrun, hag, -⟩ :=
      ((nvUpdate_run_of_differing none waits hf hb ha hm hne).append hagain).interleaved_word hes rest
    exact ⟨_, hrun, hag, rfl, rfl, by simpa using hb, by simpa using hv, fun b hne' => by simp [hcell, hne'], rfl,
      rfl⟩
  · have hagain := nvUpdate_run_of_equal (s := (s.accessed addr).respond .success 0x00) rfl hb ha he
    obtain ⟨o, hrun, hag, -⟩ :=
      ((nvUpdate_run_of_equal hf hb ha he).append hagain).interleaved_word hes rest
    exact ⟨_, hrun, hag, rfl, rfl, by simpa using hb, by simp, by simp, by simp⟩

end Sys2Proof.Machine

/-! PROOF. The bus commands phase by phase (R172 to R174, R176, R177, R250, R253), and the shifter (R171). -/

namespace Sys2Proof.Machine

/-! ### The shifter (R171) -/

/-- The state after `SPIU` has exchanged one byte, `m` being the one shifted in (R171). -/
def State.exchanged (m : Byte) (s : State) : State :=
  { s.traceBus (.xfer s.sel s.spiData m) with spiData := m, spiBusy := false, spiDone := true }

theorem spiuStep_of_busy {s : State} (m : Byte) (h : s.spiBusy = true) : spiuStep m s = s.exchanged m :=
  if_pos h

theorem spiuStep_of_idle {s : State} (m : Byte) (h : s.spiBusy = false) : spiuStep m s = s :=
  if_neg (by simp [h])

/-! ### A command as a sequence of phases -/

/-- While `FG` names a phase that `wrap` embeds, a phase of command `i` is a step of the inner sequence `sub`, whose
value ends it as `fin` says. -/
def Runs {π α : Type} (i : Instr) (wrap : π → Phase) (sub : π → State → Sub π α) (fin : α → State → State) :
    Prop :=
  ∀ (s : State) (q : π), s.fg = .run i (wrap q) → exec i s = (sub q s).run i wrap fin

/-- Command `i` is the inner sequence `sub`, begun at its phase `first`. -/
structure Performs {π α : Type} (i : Instr) (wrap : π → Phase) (first : π) (sub : π → State → Sub π α)
    (fin : α → State → State) : Prop where
  starts : ∀ s : State, s.fg = .idle → exec i s = (sub first s).run i wrap fin
  runs : Runs i wrap sub fin

theorem Runs.phase {π α : Type} {i : Instr} {wrap : π → Phase} {sub : π → State → Sub π α} {fin : α → State → State}
    (h : Runs i wrap sub fin) (s : State) (q : π) :
    exec i (s.goto i (wrap q)) = (sub q (s.goto i (wrap q))).run i wrap fin :=
  h _ q rfl

theorem spiXfer_performs (b : Byte) :
    Performs (.spiXfer b) .xfer .x1 (xferStep b) fun r t => t.respond .success r where
  starts s hf := by rw [exec, execSpiXfer, State.foreground_idle _ _ _ s hf]
  runs s q hf := by rw [exec, execSpiXfer, State.foreground_run _ _ _ _ s hf]

theorem pdRegwrite_performs (reg data : Byte) :
    Performs (.pdRegwrite reg data) .pd .p0 (frameStep reg data) fun _ t => t.respond .success 0x00 where
  starts s hf := by rw [exec, execPdRegwrite, State.foreground_idle _ _ _ s hf]
  runs s q hf := by rw [exec, execPdRegwrite, State.foreground_run _ _ _ _ s hf]

theorem facUpdatePd_performs (reg data : Byte) :
    Performs (.facUpdatePd reg data) .pd .p0 (frameStep reg data) fun _ t => t.respond .success 0x00 where
  starts s hf := by rw [exec, execFacUpdatePd, State.foreground_idle _ _ _ s hf]
  runs s q hf := by rw [exec, execFacUpdatePd, State.foreground_run _ _ _ _ s hf]

theorem potWrite_performs (w1 w2 : Byte) :
    Performs (.potWrite w1 w2) .pot .q0 (potStep w1 w2) fun _ t => t.respond .success 0x00 where
  starts s hf := by rw [exec, execPotWrite, State.foreground_idle _ _ _ s hf]
  runs s q hf := by rw [exec, execPotWrite, State.foreground_run _ _ _ _ s hf]

theorem facSetWiper_performs (w1 w2 : Byte) :
    Performs (.facSetWiper w1 w2) .pot .q0 (potStep w1 w2) fun _ t => t.respond .success 0x00 where
  starts s hf := by rw [exec, execFacSetWiper, State.foreground_idle _ _ _ s hf]
  runs s q hf := by rw [exec, execFacSetWiper, State.foreground_run _ _ _ _ s hf]

/-- Part J1 of `FAC_UPDATE` (R252): the line follows the frames. -/
theorem facUpdate_runs_frames (tag reg data : Byte) :
    Runs (.facUpdate tag reg data) .pd (frameStep reg data)
      fun _ t => t.goto (.facUpdate tag reg data) (.line .h0) := by
  intro s q hf
  rw [exec, execFacUpdate, State.foreground_run _ _ _ _ s hf]

/-- A sequence that stands inside another, which goes on at phase `after`, is itself run as phases of the command. -/
theorem Runs.inner {π α ρ β : Type} {i : Instr} {wrap : ρ → Phase} {sub : ρ → State → Sub ρ β}
    {fin : β → State → State} {inside : π → State → Sub π α} (h : Runs i wrap sub fin) (w : π → ρ) (after : ρ)
    (hw : ∀ x s, sub (w x) s = (inside x s).andThen w fun _ => .more after) :
    Runs i (fun x => wrap (w x)) inside fun _ t => t.goto i (wrap after) := by
  intro s x hf
  rw [h s (w x) hf, hw]
  match inside x s with
  | .ok (.more _) _ => rfl
  | .ok (.done _) _ => rfl
  | .refuse _ => rfl
  | .fault _ => rfl

/-! ### The transfer (R172) -/

/-- The state after byte `b` has been put out (X1). -/
def State.putOut (b : Byte) (s : State) : State :=
  { s with spiData := b, spiDone := false, spiBusy := true }

/-- The state after the completion of a transfer has been taken (X2). -/
def State.taken (s : State) : State :=
  { s with spiDone := false }

theorem xferStep_takes (b : Byte) (s : State) (h : s.spiDone = true) :
    xferStep b .x2 s = .ok (.done s.spiData) s.taken :=
  if_pos h

section
variable {i : Instr} {wrap : XferPhase → Phase} {b : Byte} {fin : Byte → State → State} {s : State}

theorem Runs.puts (h : Runs i wrap (xferStep b) fin) :
    exec i (s.goto i (wrap .x1)) = .next ((s.putOut b).goto i (wrap .x2)) :=
  h.phase s .x1

theorem Runs.waits (h : Runs i wrap (xferStep b) fin) (hd : s.spiDone = false) :
    exec i (s.goto i (wrap .x2)) = .next (s.goto i (wrap .x2)) := by
  rw [h.phase, xferStep_waits b (s.goto i (wrap .x2)) hd]; rfl

theorem Runs.takes (h : Runs i wrap (xferStep b) fin) (hd : s.spiDone = true) :
    exec i (s.goto i (wrap .x2)) = .next (fin s.spiData (s.taken.goto i (wrap .x2))) := by
  rw [h.phase, xferStep_takes b (s.goto i (wrap .x2)) hd]; rfl

/-- The three rows of a transfer inside a command that goes on at phase `after`. -/
theorem Runs.transfer {after : Phase} (h : Runs i wrap (xferStep b) fun _ t => t.goto i after) (s : State) :
    exec i (s.goto i (wrap .x1)) = .next ((s.putOut b).goto i (wrap .x2)) ∧
    (s.spiDone = false → exec i (s.goto i (wrap .x2)) = .next (s.goto i (wrap .x2))) ∧
    (s.spiDone = true → exec i (s.goto i (wrap .x2)) = .next (s.taken.goto i after)) :=
  ⟨h.puts, h.waits, h.takes⟩

end

/-! ### The register-write protocol (R176) -/

theorem frameStep_p0 {reg data : Byte} {s : State} (h : s.sel = .none) :
    frameStep reg data .p0 s = .ok (.more .p1) (s.traceBus (.gap .recover)) :=
  if_pos h

section
variable {i : Instr} {reg data : Byte} {fin : Unit → State → State} {s : State}

theorem Performs.frame_starts (h : Performs i .pd .p0 (frameStep reg data) fin) (hf : s.fg = .idle)
    (hs : s.sel = .none) : exec i s = .next ((s.traceBus (.gap .recover)).goto i (.pd .p1)) := by
  rw [h.starts s hf, frameStep_p0 hs]; rfl

theorem Runs.frame_recovers (h : Runs i .pd (frameStep reg data) fin) (hs : s.sel = .none) :
    exec i (s.goto i (.pd .p0)) = .next ((s.traceBus (.gap .recover)).goto i (.pd .p1)) := by
  rw [h.phase, frameStep_p0 (s := s.goto i (.pd .p0)) hs]; rfl

theorem Runs.frame_selects (h : Runs i .pd (frameStep reg data) fin) :
    exec i (s.goto i (.pd .p1)) = .next ((s.driveActive .pd).goto i (.pd (.p2 .x1))) :=
  h.phase s .p1

theorem Runs.frame_sends_reg (h : Runs i .pd (frameStep reg data) fin) :
    Runs i (fun x => .pd (.p2 x)) (xferStep reg) fun _ t => t.goto i (.pd (.p3 .x1)) :=
  h.inner .p2 (.p3 .x1) fun _ _ => rfl

theorem Runs.frame_sends_data (h : Runs i .pd (frameStep reg data) fin) :
    Runs i (fun x => .pd (.p3 x)) (xferStep data) fun _ t => t.goto i (.pd .p4) :=
  h.inner .p3 .p4 fun _ _ => rfl

theorem Runs.frame_deselects (h : Runs i .pd (frameStep reg data) fin) :
    exec i (s.goto i (.pd .p4)) = .next ((s.driveInactive .pd).goto i (.pd .p5)) :=
  h.phase s .p4

theorem Runs.frame_delays (h : Runs i .pd (frameStep reg data) fin) :
    exec i (s.goto i (.pd .p5)) = .next ((s.traceBus (.gap .commit)).goto i (.pd .p6)) :=
  h.phase s .p5

theorem Runs.frame_selects_again (h : Runs i .pd (frameStep reg data) fin) :
    exec i (s.goto i (.pd .p6)) = .next ((s.driveActive .pd).goto i (.pd (.p7 .x1))) :=
  h.phase s .p6

theorem Runs.frame_sends_marker (h : Runs i .pd (frameStep reg data) fin) :
    Runs i (fun x => .pd (.p7 x)) (xferStep commitMarker) fun _ t => t.goto i (.pd (.p8 .x1)) :=
  h.inner .p7 (.p8 .x1) fun _ _ => rfl

theorem Runs.frame_sends_commit (h : Runs i .pd (frameStep reg data) fin) :
    Runs i (fun x => .pd (.p8 x)) (xferStep commitData) fun _ t => t.goto i (.pd .p9) :=
  h.inner .p8 .p9 fun _ _ => rfl

theorem Runs.frame_ends (h : Runs i .pd (frameStep reg data) fin) :
    exec i (s.goto i (.pd .p9)) = .next (fin () ((s.goto i (.pd .p9)).driveInactive .pd)) :=
  h.phase s .p9

end

/-! ### The potentiometer frame (R177) -/

theorem potStep_q0 {w1 w2 : Byte} {s : State} (h : s.sel = .none) :
    potStep w1 w2 .q0 s = .ok (.more (.q1 .x1)) (s.driveActive .pot) :=
  if_pos h

section
variable {i : Instr} {w1 w2 : Byte} {fin : Unit → State → State} {s : State}

theorem Performs.pot_starts (h : Performs i .pot .q0 (potStep w1 w2) fin) (hf : s.fg = .idle)
    (hs : s.sel = .none) : exec i s = .next ((s.driveActive .pot).goto i (.pot (.q1 .x1))) := by
  rw [h.starts s hf, potStep_q0 hs]; rfl

theorem Runs.pot_sends_first (h : Runs i .pot (potStep w1 w2) fin) :
    Runs i (fun x => .pot (.q1 x)) (xferStep w1) fun _ t => t.goto i (.pot (.q2 .x1)) :=
  h.inner .q1 (.q2 .x1) fun _ _ => rfl

theorem Runs.pot_sends_second (h : Runs i .pot (potStep w1 w2) fin) :
    Runs i (fun x => .pot (.q2 x)) (xferStep w2) fun _ t => t.goto i (.pot .q3) :=
  h.inner .q2 .q3 fun _ _ => rfl

theorem Runs.pot_ends (h : Runs i .pot (potStep w1 w2) fin) :
    exec i (s.goto i (.pot .q3)) = .next (fin () ((s.goto i (.pot .q3)).driveInactive .pot)) :=
  h.phase s .q3

end

/-! ### The chip selects (R173, R174) -/

theorem selOfPeriph_ne_none (p : Periph) : selOfPeriph p ≠ .none := by
  cases p <;> simp [selOfPeriph]

section
variable {s : State} {p : Periph}

theorem csSelect_selects (hf : s.fg = .idle) (hs : s.sel = .none) :
    exec (.csSelect p) s = .next ((s.driveActive p).respond .success 0x00) := by
  rw [exec, execCsSelect, State.foreground_idle _ _ _ s hf]
  exact if_pos hs

theorem csSelect_keeps (hf : s.fg = .idle) (hs : s.sel = selOfPeriph p) :
    exec (.csSelect p) s = .next (s.respond .success 0x00) := by
  rw [exec, execCsSelect, State.foreground_idle _ _ _ s hf]
  exact (if_neg (hs ▸ selOfPeriph_ne_none p)).trans (if_pos hs)

theorem csSelect_refused (hf : s.fg = .idle) (hn : s.sel ≠ .none) (hs : s.sel ≠ selOfPeriph p) :
    exec (.csSelect p) s = .refused .otherPeripheralSelected := by
  rw [exec, execCsSelect, State.foreground_idle _ _ _ s hf]
  exact (if_neg hn).trans (if_neg hs)

theorem csDeselect_deselects (hf : s.fg = .idle) (hs : s.sel = selOfPeriph p) :
    exec (.csDeselect p) s = .next ((s.driveInactive p).respond .success 0x00) := by
  rw [exec, execCsDeselect, State.foreground_idle _ _ _ s hf]
  dsimp only
  rw [if_pos hs]

theorem csDeselect_passes (hf : s.fg = .idle) (hs : s.sel ≠ selOfPeriph p) :
    exec (.csDeselect p) s = .next (s.respond .success 0x00) := by
  rw [exec, execCsDeselect, State.foreground_idle _ _ _ s hf]
  dsimp only
  rw [if_neg hs]

end

/-! ### The statements -/

/-- Settles O19, from the rows of the transfer. -/
theorem spiXferPhases : Obligations.SpiXferPhases :=
  fun s b => ⟨(spiXfer_performs b).starts _ rfl, fun hd => (spiXfer_performs b).runs.waits (s := s) hd,
    fun hd => (spiXfer_performs b).runs.takes (s := s) hd⟩

/-- Settles O20: the shifter exchanges a byte when a transfer is under way, and passes otherwise. -/
theorem spiuExchangesOneByte : Obligations.SpiuExchangesOneByte := by
  intro s m es hag
  have hstep : step s = .next (spiuStep m (s.withAgenda es)) := step_agent s _ es hag rfl
  refine ⟨fun hb => ?_, fun hb => ?_⟩
  · rw [hstep, spiuStep_of_busy (s := s.withAgenda es) m hb]; rfl
  · rw [hstep, spiuStep_of_idle (s := s.withAgenda es) m hb]; rfl

/-- Settles O21: the three cases of R173, for each peripheral; R50's lines are the decoder's table. -/
theorem csSelectCases : Obligations.CsSelectCases := by
  intro s p
  refine ⟨fun hs => ?_, fun hs => ?_, fun hs => ?_, rfl, rfl, rfl, rfl, rfl, rfl⟩
  · cases p <;> exact csSelect_selects rfl hs
  · cases p <;> exact csSelect_keeps rfl hs
  · cases p <;> exact csSelect_refused rfl (by simp [hs]) (by simp [hs, selOfPeriph])

/-- Settles O22: the two cases of R174. -/
theorem csDeselectCases : Obligations.CsDeselectCases := by
  intro s p
  refine ⟨fun hs => ?_, fun hs => ?_⟩
  · cases p <;> exact csDeselect_deselects rfl hs
  · cases p <;> exact csDeselect_passes rfl hs

/-- Settles O23: the three commands run the same sequence, and differ only in how they begin and end it. -/
theorem registerWritePhases : Obligations.RegisterWritePhases := by
  intro s tag reg data i hi
  have hruns : ∃ fin, Runs i .pd (frameStep reg data) fin := by
    rcases hi with rfl | rfl | rfl
    · exact ⟨_, (pdRegwrite_performs reg data).runs⟩
    · exact ⟨_, (facUpdatePd_performs reg data).runs⟩
    · exact ⟨_, facUpdate_runs_frames tag reg data⟩
  have hwhole (hne : i ≠ .facUpdate tag reg data) :
      Performs i .pd .p0 (frameStep reg data) fun _ t => t.respond .success 0x00 := by
    rcases hi with rfl | rfl | rfl
    · exact pdRegwrite_performs reg data
    · exact facUpdatePd_performs reg data
    · exact absurd rfl hne
  obtain ⟨fin, h⟩ := hruns
  refine ⟨fun hs => ⟨fun hne => (hwhole hne).frame_starts rfl hs, h.frame_recovers hs⟩, h.frame_selects, ?_,
    h.frame_deselects, h.frame_delays, h.frame_selects_again, fun hne => (hwhole hne).runs.frame_ends, ?_⟩
  · simp only [List.forall_mem_cons]
    exact ⟨h.frame_sends_reg.transfer s, h.frame_sends_data.transfer s, h.frame_sends_marker.transfer s,
      h.frame_sends_commit.transfer s, by simp⟩
  · rintro rfl
    exact (facUpdate_runs_frames tag reg data).frame_ends

/-- Settles O24: both commands are the potentiometer frame. -/
theorem potentiometerPhases : Obligations.PotentiometerPhases := by
  intro s w1 w2 i hi
  have h : Performs i .pot .q0 (potStep w1 w2) fun _ t => t.respond .success 0x00 := by
    rcases hi with rfl | rfl
    · exact potWrite_performs w1 w2
    · exact facSetWiper_performs w1 w2
  refine ⟨fun hs => h.pot_starts rfl hs, ?_, h.runs.pot_ends⟩
  simp only [List.forall_mem_cons]
  exact ⟨h.runs.pot_sends_first.transfer s, h.runs.pot_sends_second.transfer s, by simp⟩

end Sys2Proof.Machine

/-! PROOF. Runs of the bus beside the agents off it (R11, R93, R170): a run of the foreground and the shifter on their own,
event by event, is the run of any interleaving of its events with those of the handlers, the transmitter, the receiver and
the write engine. -/

namespace Sys2Proof.Machine

/-! ### The end of an interleaving -/

/-- A run over events of the others alone: a property that their steps keep holds at its end. -/
theorem Interleaves.run_nil {other : Event → Bool} {es rest : List Event} {P : State → Prop}
    (hes : Interleaves [] other es)
    (hother : ∀ (u : State) (b : Event) (k : List Event), b ∈ es → other b = true → P u → u.agenda = b :: k →
      ∃ v, step u = .next v ∧ v.agenda = k ∧ P v)
    (s : State) (hs : P s) (ha : s.agenda = es ++ rest) :
    ∃ t, Host.Core.run Sys2Proof.core es.length s = .next t ∧ t.agenda = rest ∧ P t := by
  rw [Interleaves.nil_iff] at hes
  induction es generalizing s with
  | nil => exact ⟨s, rfl, ha, hs⟩
  | cons b es ih =>
    obtain ⟨v, hv, hva, hvp⟩ := hother s b _ (by simp) (hes b (by simp)) hs ha
    obtain ⟨t, ht, hta, htp⟩ :=
      ih (fun c hc => hes c (by simp [hc])) (fun u c k hc => hother u c k (by simp [hc])) v hvp hva
    refine ⟨t, ?_, hta, htp⟩
    rw [List.length_cons, Nat.add_comm]
    exact run_trans (run_one hv) ht

/-! ### What the bus shares with nobody -/

/-- What no bus command and no step of `SPIU` reads or writes: the serial part, the cells, a pending write, and the pending
events, of which a step takes the head. -/
structure OffBus extends SerialPart where
  nvm : Memory
  nvAddr : Addr
  nvBusy : Bool
  agenda : List Event

/-- The state with another part off the bus. -/
def State.withOffBus (s : State) (o : OffBus) : State :=
  { s.withSerial o.toSerialPart with nvm := o.nvm, nvAddr := o.nvAddr, nvBusy := o.nvBusy, agenda := o.agenda }

/-- The part of a state off the bus. -/
def State.offBus (s : State) : OffBus :=
  ⟨s.serial, s.nvm, s.nvAddr, s.nvBusy, s.agenda⟩

/-- A pending write is to a cell that exists. -/
def OffBus.Ok (p : Params) (o : OffBus) : Prop :=
  o.nvBusy = true → addrValid p o.nvAddr = true

/-- A step of an agent off the bus changes the part off the bus only (R170). -/
theorem step_offBus_withOffBus (s : State) (o : OffBus) (e : Event) (k : List Event) (ha : o.agenda = e :: k)
    (he : isOffBus e = true) (ho : o.Ok s.params) :
    ∃ o', o'.agenda = k ∧ o'.Ok s.params ∧ step (s.withOffBus o) = .next (s.withOffBus o') := by
  obtain ⟨p, m, y, hy, h⟩ := step_offBus (s.withOffBus o) e k ha he ho
  exact ⟨⟨p, m, o.nvAddr, y, k⟩, rfl, fun hb => ho (hy hb), h⟩

/-! ### A run of the bus on its own -/

/-- Event `e` takes `s` to `t`, whatever stands off the bus. -/
def BusStep (s : State) (e : Event) (t : State) : Prop :=
  ∀ (o : OffBus) (k : List Event), o.agenda = e :: k →
    step (s.withOffBus o) = .next (t.withOffBus { o with agenda := k })

/-- A run of the bus, one event after the other. -/
inductive BusRun : State → List Event → State → Prop
  | nil (s : State) : BusRun s [] s
  | cons {s t u : State} {e : Event} {es : List Event} (h : BusStep s e t) (hr : BusRun t es u) : BusRun s (e :: es) u

theorem BusRun.append {s t u : State} {es fs : List Event} (h : BusRun s es t) (h' : BusRun t fs u) :
    BusRun s (es ++ fs) u := by
  induction h with
  | nil s => exact h'
  | cons hstep _ ih => exact .cons hstep (ih h')

/-- An event that changes nothing may come any number of times. -/
theorem BusStep.replicate {s : State} {e : Event} (h : BusStep s e s) (n : Nat) :
    BusRun s (List.replicate n e) s := by
  induction n with
  | zero => exact .nil s
  | succ n ih => exact .cons h ih

/-- A command's word runs its first phase. -/
theorem BusStep.start {i : Instr} {s t : State} (hf : s.fg = .idle)
    (hx : ∀ o, exec i (s.withOffBus o) = .next (t.withOffBus o)) : BusStep s (.command (encode i)) t := by
  intro o k ha
  rw [stepRunsPresentedCommand (s.withOffBus o) _ i k hf ha (decodeOfEncodeIsIdentity i)]
  exact hx { o with agenda := k }

/-- A step of `FG` runs the phase under way. -/
theorem BusStep.phase {i : Instr} {ph : Phase} {s t : State} (hf : s.fg = .run i ph)
    (hx : ∀ o, exec i (s.withOffBus o) = .next (t.withOffBus o)) : BusStep s .fg t := by
  intro o k ha
  obtain ⟨hrun, -⟩ := stepRunsCommandUnderWay (s.withOffBus o) k ha
  rw [hrun i ph hf]
  exact hx { o with agenda := k }

/-- With a transfer under way a step of `SPIU` exchanges its byte. -/
theorem BusStep.exchange {s : State} (m : Byte) (h : s.spiBusy = true) : BusStep s (.spiu m) (s.exchanged m) := by
  intro o k ha
  obtain ⟨hbusy, -⟩ := spiuExchangesOneByte (s.withOffBus o) m k ha
  exact hbusy h

/-! ### The run beside the agents off the bus -/

/-- `u` is `s` but for the part off the bus, which is `o₀` still, its events apart, where `quiet`. -/
def State.Beside (s : State) (quiet : Prop) (o₀ : OffBus) (u : State) : Prop :=
  ∃ o, u = s.withOffBus o ∧ o.Ok s.params ∧ (quiet → o = { o₀ with agenda := o.agenda })

theorem State.Beside.step_offBus {s u : State} {quiet : Prop} {o₀ : OffBus} {b : Event} {k : List Event}
    (hq : quiet → isOffBus b = false) (hb : isOffBus b = true) (h : s.Beside quiet o₀ u) (ha : u.agenda = b :: k) :
    ∃ v, step u = .next v ∧ v.agenda = k ∧ s.Beside quiet o₀ v := by
  obtain ⟨o, rfl, ho, -⟩ := h
  obtain ⟨o', ha', ho', hstep⟩ := step_offBus_withOffBus s o b k ha hb ho
  exact ⟨_, hstep, ha', o', rfl, ho', fun q => by simp [hq q] at hb⟩

theorem State.Beside.step_bus {s t u : State} {quiet : Prop} {o₀ : OffBus} {e : Event} {k : List Event}
    (hstep : BusStep s e t) (h : s.Beside quiet o₀ u) (ha : u.agenda = e :: k) :
    ∃ v, step u = .next v ∧ v.agenda = k ∧ t.Beside quiet o₀ v := by
  obtain ⟨o, rfl, ho, hquiet⟩ := h
  have hs := hstep o k ha
  have hp : (t.withOffBus _).params = (s.withOffBus o).params := step_params hs
  refine ⟨_, hs, rfl, _, rfl, ?_, fun q => ?_⟩
  · exact fun hb => hp ▸ ho hb
  · rw [hquiet q]

/-- The block takes the bus's run, whatever the agents off the bus do between its events (R11). -/
theorem BusRun.interleaved {s t u : State} {own es rest : List Event} {quiet : Prop} {o₀ : OffBus} (h : BusRun s own t)
    (hes : Interleaves own isOffBus es) (hq : quiet → ∀ e ∈ es, isOffBus e = false) (hu : s.Beside quiet o₀ u)
    (ha : u.agenda = es ++ rest) :
    ∃ v, Host.Core.run Sys2Proof.core es.length u = .next v ∧ v.agenda = rest ∧ t.Beside quiet o₀ v := by
  induction h generalizing es u with
  | nil s => exact hes.run_nil (fun _ b _ hm hb h ha => h.step_offBus (fun q => hq q b hm) hb ha) u hu ha
  | cons hstep _ ih =>
    obtain ⟨n, es', v, hlen, hsub, hes', hrun, hva, hv⟩ :=
      hes.run_cons (fun _ b _ hm hb h ha => h.step_offBus (fun q => hq q b hm) hb ha)
        (fun _ _ h ha => h.step_bus hstep ha) u hu ha
    obtain ⟨w, hrun', hwa, hw⟩ := ih hes' (fun q e he => hq q e (hsub he)) hv hva
    exact ⟨w, hlen ▸ run_trans hrun hrun', hwa, hw⟩

/-- The run from a state on which a command's word is pending, before an interleaving of the bus's other events; where no
other agent steps, the part off the bus stays as it was. -/
theorem BusRun.interleaved_word {s t : State} {w : Word} {own es : List Event} (h : BusRun s (.command w :: own) t)
    (hes : Interleaves own isOffBus es) (hw : s.nvBusy = true → addrValid s.params s.nvAddr = true)
    (rest : List Event) :
    ∃ o, Host.Core.run Sys2Proof.core (1 + es.length) (s.withAgenda (.command w :: es ++ rest)) =
        .next (t.withOffBus o) ∧
      o.agenda = rest ∧ ((∀ e ∈ es, isOffBus e = false) → o = { s.offBus with agenda := rest }) := by
  have hword : Interleaves (.command w :: own) isOffBus (.command w :: es) :=
    Interleaves.cons_of_others (bs := []) (by simp) rfl hes
  have hstart : s.Beside (∀ e ∈ es, isOffBus e = false) s.offBus (s.withAgenda (.command w :: es ++ rest)) :=
    ⟨{ s.offBus with agenda := .command w :: es ++ rest }, rfl, hw, fun _ => rfl⟩
  obtain ⟨v, hrun, hva, o, rfl, -, hquiet⟩ :=
    h.interleaved (rest := rest) hword (fun q => by simpa [isOffBus] using q) hstart rfl
  obtain rfl : o.agenda = rest := hva
  rw [List.length_cons, Nat.add_comm] at hrun
  exact ⟨o, hrun, rfl, hquiet⟩

end Sys2Proof.Machine

/-! PROOF. The framing commands run to their response (R176, R177, R250, R253). -/

namespace Sys2Proof.Machine

/-! ### One transfer -/

/-- The state after a transfer: `b` put out, `m` shifted in, the completion taken (R171, R172). -/
def State.transferred (b m : Byte) (s : State) : State :=
  ((s.putOut b).exchanged m).taken

theorem State.transferred_eq (b m : Byte) (s : State) :
    s.transferred b m = { s with
      spiData := m, spiBusy := false, spiDone := false, busTrace := s.busTrace ++ [.xfer s.sel b m] } :=
  rfl

/-- The events of one transfer that `FG` awaits `n` times in vain, `m` being the byte shifted in. -/
def transferEvents (n : Nat) (m : Byte) : List Event :=
  Event.fg :: (List.replicate n Event.fg ++ [Event.spiu m, Event.fg])

theorem BusStep.goto {i : Instr} {ph : Phase} {s t : State}
    (hx : ∀ o, exec i ((s.withOffBus o).goto i ph) = .next (t.withOffBus o)) : BusStep (s.goto i ph) .fg t :=
  .phase rfl hx

/-- A transfer inside a command that goes on at phase `after`, however long it takes. -/
theorem Runs.transfer_run {i : Instr} {wrap : XferPhase → Phase} {b : Byte} {after : Phase}
    (h : Runs i wrap (xferStep b) fun _ t => t.goto i after) (n : Nat) (m : Byte) (s : State) :
    BusRun (s.goto i (wrap .x1)) (transferEvents n m) ((s.transferred b m).goto i after) := by
  have hputs : BusStep (s.goto i (wrap .x1)) .fg ((s.putOut b).goto i (wrap .x2)) := .goto fun _ => h.puts
  have hwaits : BusStep ((s.putOut b).goto i (wrap .x2)) .fg ((s.putOut b).goto i (wrap .x2)) :=
    .goto fun _ => h.waits rfl
  have hspiu : BusStep ((s.putOut b).goto i (wrap .x2)) (.spiu m) (((s.putOut b).exchanged m).goto i (wrap .x2)) :=
    .exchange m rfl
  have htakes : BusStep (((s.putOut b).exchanged m).goto i (wrap .x2)) .fg ((s.transferred b m).goto i after) :=
    .goto fun _ => h.takes rfl
  exact .cons hputs <| (hwaits.replicate n).append <| .cons hspiu <| .cons htakes <| .nil _

/-! ### The register-write protocol -/

/-- The state after phases P1 to P8. -/
def State.framed (reg data m₁ m₂ m₃ m₄ : Byte) (s : State) : State :=
  (((((((s.driveActive .pd).transferred reg m₁).transferred data m₂).driveInactive .pd).traceBus
    (.gap .commit)).driveActive .pd).transferred commitMarker m₃).transferred commitData m₄

section
variable {i : Instr} {fin : Unit → State → State}

/-- Phases P1 to P8, whichever command runs them. -/
theorem Runs.frame_run {reg data : Byte} (h : Runs i .pd (frameStep reg data) fin) (m₁ m₂ m₃ m₄ : Byte)
    (n₁ n₂ n₃ n₄ : Nat) (s : State) :
    BusRun (s.goto i (.pd .p1))
      (Event.fg :: (transferEvents n₁ m₁ ++ (transferEvents n₂ m₂ ++ Event.fg :: Event.fg :: Event.fg ::
        (transferEvents n₃ m₃ ++ transferEvents n₄ m₄))))
      ((s.framed reg data m₁ m₂ m₃ m₄).goto i (.pd .p9)) := by
  have hselects (s : State) : BusStep (s.goto i (.pd .p1)) .fg ((s.driveActive .pd).goto i (.pd (.p2 .x1))) :=
    .goto fun _ => h.frame_selects
  have hdeselects (s : State) : BusStep (s.goto i (.pd .p4)) .fg ((s.driveInactive .pd).goto i (.pd .p5)) :=
    .goto fun _ => h.frame_deselects
  have hdelays (s : State) : BusStep (s.goto i (.pd .p5)) .fg ((s.traceBus (.gap .commit)).goto i (.pd .p6)) :=
    .goto fun _ => h.frame_delays
  have hselects' (s : State) : BusStep (s.goto i (.pd .p6)) .fg ((s.driveActive .pd).goto i (.pd (.p7 .x1))) :=
    .goto fun _ => h.frame_selects_again
  exact .cons (hselects _) <| (h.frame_sends_reg.transfer_run n₁ m₁ _).append <|
    (h.frame_sends_data.transfer_run n₂ m₂ _).append <|
    .cons (hdeselects _) <| .cons (hdelays _) <| .cons (hselects' _) <|
    (h.frame_sends_marker.transfer_run n₃ m₃ _).append <| h.frame_sends_commit.transfer_run n₄ m₄ _

/-- A command that performs the protocol, from its word to its response. -/
theorem Performs.frame_run {reg data : Byte}
    (h : Performs i .pd .p0 (frameStep reg data) fun _ t => t.respond .success 0x00)
    (m₁ m₂ m₃ m₄ : Byte) (n₁ n₂ n₃ n₄ : Nat) {s : State} (hf : s.fg = .idle) (hs : s.sel = .none) :
    BusRun s (.command (encode i) ::
      (List.replicate (2 + n₁) Event.fg ++ Event.spiu m₁ :: List.replicate (2 + n₂) Event.fg ++ Event.spiu m₂ ::
        List.replicate (5 + n₃) Event.fg ++ Event.spiu m₃ :: List.replicate (2 + n₄) Event.fg ++ Event.spiu m₄ ::
        [Event.fg, Event.fg]))
      ((((s.traceBus (.gap .recover)).framed reg data m₁ m₂ m₃ m₄).driveInactive .pd).respond .success 0x00) := by
  have hstarts : BusStep s (.command (encode i)) ((s.traceBus (.gap .recover)).goto i (.pd .p1)) :=
    .start hf fun o => h.frame_starts (s := s.withOffBus o) hf hs
  have hends (s : State) : BusStep (s.goto i (.pd .p9)) .fg ((s.driveInactive .pd).respond .success 0x00) :=
    .goto fun _ => h.runs.frame_ends
  have hrun := BusRun.cons hstarts <| (h.runs.frame_run m₁ m₂ m₃ m₄ n₁ n₂ n₃ n₄ _).append <| .cons (hends _) <| .nil _
  simpa [transferEvents, List.replicate_add] using hrun

/-! ### The potentiometer frame -/

/-- The state after phases Q0 to Q2. -/
def State.potFramed (w1 w2 m₁ m₂ : Byte) (s : State) : State :=
  ((s.driveActive .pot).transferred w1 m₁).transferred w2 m₂

/-- A command that performs the frame, from its word to its response. -/
theorem Performs.pot_run {w1 w2 : Byte} (h : Performs i .pot .q0 (potStep w1 w2) fun _ t => t.respond .success 0x00)
    (m₁ m₂ : Byte) (n₁ n₂ : Nat) {s : State} (hf : s.fg = .idle) (hs : s.sel = .none) :
    BusRun s (.command (encode i) ::
      (List.replicate (1 + n₁) Event.fg ++ Event.spiu m₁ :: List.replicate (2 + n₂) Event.fg ++ Event.spiu m₂ ::
        [Event.fg, Event.fg]))
      (((s.potFramed w1 w2 m₁ m₂).driveInactive .pot).respond .success 0x00) := by
  have hstarts : BusStep s (.command (encode i)) ((s.driveActive .pot).goto i (.pot (.q1 .x1))) :=
    .start hf fun o => h.pot_starts (s := s.withOffBus o) hf hs
  have hends (s : State) : BusStep (s.goto i (.pot .q3)) .fg ((s.driveInactive .pot).respond .success 0x00) :=
    .goto fun _ => h.runs.pot_ends
  have hrun := BusRun.cons hstarts <| (h.runs.pot_sends_first.transfer_run n₁ m₁ _).append <|
    (h.runs.pot_sends_second.transfer_run n₂ m₂ _).append <| .cons (hends (s.potFramed w1 w2 m₁ m₂)) <| .nil _
  simpa [transferEvents, List.replicate_add] using hrun

end

/-! ### The bus events appended -/

/-- The state after a framing command that appends the bus events `evs`, the last byte shifted in being `m`. -/
def State.framingDone (evs : List BusEvent) (m : Byte) (s : State) : State :=
  { s with
    rsp := responseWord .success 0x00, spiData := m, spiBusy := false, spiDone := false
    busTrace := s.busTrace ++ evs }

section
variable {s : State} (hf : s.fg = .idle) (hs : s.sel = .none)
include hf hs

/-- The register-write protocol leaves its ten bus events, and the bus free. -/
theorem State.framed_eq_framingDone (reg data m₁ m₂ m₃ m₄ : Byte) :
    (((s.traceBus (.gap .recover)).framed reg data m₁ m₂ m₃ m₄).driveInactive .pd).respond .success 0x00 =
      s.framingDone [.gap .recover, .sel .pd, .xfer .pd reg m₁, .xfer .pd data m₂, .desel .pd,
        .gap .commit, .sel .pd, .xfer .pd commitMarker m₃, .xfer .pd commitData m₄, .desel .pd] m₄ := by
  simp [State.framed, State.transferred_eq, State.framingDone, State.driveActive, State.driveInactive,
    State.traceBus, State.respond, selOfPeriph, hf, hs]

/-- The potentiometer frame leaves its four bus events, and the bus free. -/
theorem State.potFramed_eq_framingDone (w1 w2 m₁ m₂ : Byte) :
    ((s.potFramed w1 w2 m₁ m₂).driveInactive .pot).respond .success 0x00 =
      s.framingDone [.sel .pot, .xfer .pot w1 m₁, .xfer .pot w2 m₂, .desel .pot] m₂ := by
  simp [State.potFramed, State.transferred_eq, State.framingDone, State.driveActive, State.driveInactive,
    State.respond, selOfPeriph, hf, hs]

end

/-! ### The statements -/

/-- Settles O26: the command's run on the bus alone, taken by the block beside the agents off the bus. -/
theorem registerWriteTenEvents : Obligations.RegisterWriteTenEvents := by
  intro s reg data m₁ m₂ m₃ m₄ n₁ n₂ n₃ n₄ i es rest hi hf hs hw hes
  have h : Performs i .pd .p0 (frameStep reg data) fun _ t => t.respond .success 0x00 := by
    rcases hi with rfl | rfl
    · exact pdRegwrite_performs reg data
    · exact facUpdatePd_performs reg data
  have hbus := h.frame_run m₁ m₂ m₃ m₄ n₁ n₂ n₃ n₄ hf hs
  rw [State.framed_eq_framingDone hf hs] at hbus
  obtain ⟨o, hrun, hag, hquiet⟩ := hbus.interleaved_word hes hw rest
  exact ⟨_, hrun, hag, hf, rfl, hs, rfl, rfl, rfl, rfl, fun hq => by rw [hquiet hq]; rfl⟩

/-- Settles O27: the command's run on the bus alone, taken by the block beside the agents off the bus. -/
theorem potentiometerFourEvents : Obligations.PotentiometerFourEvents := by
  intro s w1 w2 m₁ m₂ n₁ n₂ i es rest hi hf hs hw hes
  have h : Performs i .pot .q0 (potStep w1 w2) fun _ t => t.respond .success 0x00 := by
    rcases hi with rfl | rfl
    · exact potWrite_performs w1 w2
    · exact facSetWiper_performs w1 w2
  have hbus := h.pot_run m₁ m₂ n₁ n₂ hf hs
  rw [State.potFramed_eq_framingDone hf hs] at hbus
  obtain ⟨o, hrun, hag, hquiet⟩ := hbus.interleaved_word hes hw rest
  exact ⟨_, hrun, hag, hf, rfl, hs, rfl, rfl, rfl, rfl, fun hq => by rw [hquiet hq]; rfl⟩

end Sys2Proof.Machine

/-! PROOF. The invariant at reset and over every step (R64, R220, R221). -/

namespace Sys2Proof.Machine

theorem testParams_legal : Config.testParams.Legal := by
  have cells : Config.testParams.nvmInit.length = Config.testParams.maxAddress.toNat + 1 := by
    simp only [Config.testParams, List.length_append, List.length_replicate, List.length_singleton]
    rfl
  exact ⟨by decide, by decide, by decide, by decide, by decide, by decide, by decide, by decide, by decide, by decide,
    cells⟩

/-- The parameters at reset are legal, whatever the free launch value is (log 4). -/
theorem launched_params_legal : Config.params.Legal := by
  unfold Config.params
  split
  · assumption
  · exact testParams_legal

/-- Settles O57: each command, each agent and a reset keep it (`step_keeps_inv`). -/
theorem stepKeepsInvariant : Obligations.StepKeepsInvariant :=
  step_keeps_inv

/-- Settles O56: a power-on with legal parameters and no listed cell is sound, and the sequencer is idle. -/
theorem invariantHoldsAtReset : Obligations.InvariantHoldsAtReset :=
  (State.inv_iff _).2 ⟨State.powerOn_sound _ _ _ _ _ launched_params_legal (Memory.wf_nil _), trivial⟩

end Sys2Proof.Machine

/-! PROOF. The serial transport: its handlers and engines (R212 to R215, R291), the output direction (R216), and its
commands phase by phase (R200 to R204, R211). -/

namespace Sys2Proof.Machine

/-! ### The translations and the buffers -/

theorem needsCarriageReturn_iff (c : Byte) : needsCarriageReturn c = true ↔ c = 0x0A :=
  beq_iff_eq

theorem translated_eq (c : Byte) : translated c = if c = 0x0A then [0x0D, 0x0A] else [c] := by
  unfold translated
  by_cases h : c = 0x0A
  · rw [if_pos ((needsCarriageReturn_iff c).2 h), if_pos h, h]; rfl
  · rw [if_neg (mt (needsCarriageReturn_iff c).1 h), if_neg h]

theorem storedByte_eq (c : Byte) : storedByte c = if c = 0x0D then 0x0A else c :=
  if_congr beq_iff_eq rfl rfl

theorem Ring.front_of_getElem? {cap : Nat} {r : Ring} {c : Byte}
    (h : r.slots[(r.head + cap - r.count) % cap]? = some c) : r.front cap = c := by
  rw [Ring.front, Ring.oldest, List.getD_eq_getElem?_getD, h, Option.getD_some]

/-! ### `H_DRAIN` (R212) -/

/-- A handler is taken with `GIE` set only, so its return leaves `GIE` as it was before (R291, R295). -/
theorem State.returnFromInterrupt_of_gie {s : State} (h : s.gie = true) : s.returnFromInterrupt = s := by
  rw [State.returnFromInterrupt, ← h]

theorem State.drainEnabled_iff (s : State) :
    s.drainEnabled = true ↔ s.gie = true ∧ s.drainIe = true ∧ s.txFull = false := by
  simp [State.drainEnabled, State.drainPending, and_assoc]

theorem State.drainEnabled_of_masked {s : State} (h : s.gie = false ∨ s.drainIe = false ∨ s.txFull = true) :
    s.drainEnabled = false := by
  rcases h with h | h | h <;> simp [State.drainEnabled, State.drainPending, h]

theorem drainHandler_of_masked {s : State} (h : s.drainEnabled = false) : drainHandler s = s := by
  simp [drainHandler, h]

section
variable {s : State} (hg : s.gie = true) (hie : s.drainIe = true) (ht : s.txFull = false)
include hg hie ht

/-- `H_DRAIN` moves the oldest byte of a buffer that holds one, and leaves `GIE` set (R295). -/
theorem drainHandler_of_pending (hc : 0 < s.outBuf.count) : drainHandler s = s.takeOldest := by
  rcases drainHandler_cases s with ⟨hn, -⟩ | ⟨-, h0, -⟩ | ⟨-, -, he⟩
  · rw [(State.drainEnabled_iff s).2 ⟨hg, hie, ht⟩] at hn; cases hn
  · omega
  · exact he.trans (State.returnFromInterrupt_of_gie (s := s.takeOldest) hg)

/-- On an empty buffer `H_DRAIN` disables itself. -/
theorem drainHandler_of_empty (hc : s.outBuf.count = 0) : drainHandler s = { s with drainIe := false } := by
  rcases drainHandler_cases s with ⟨hn, -⟩ | ⟨-, -, he⟩ | ⟨-, h0, -⟩
  · rw [(State.drainEnabled_iff s).2 ⟨hg, hie, ht⟩] at hn; cases hn
  · exact he.trans (State.returnFromInterrupt_of_gie (s := { s with drainIe := false }) hg)
  · omega

end

/-! ### What an enqueue of a handler leaves (R201, R213) -/

/-- `t` is `s` with the bytes `bs` queued for the host at the end of the outbound buffer (R201): nothing else changes
but the drain interrupt, enabled with the first of them. -/
structure State.Queues (s : State) (bs : List Byte) (t : State) : Prop where
  pending : t.outBuf.pending s.params.outCap = s.outBuf.pending s.params.outCap ++ bs
  ok : t.outBuf.Ok s.params.outCap
  frame : t = { s with outBuf := t.outBuf, drainIe := s.drainIe || !bs.isEmpty }

theorem State.Queues.params {s t : State} {bs : List Byte} (h : s.Queues bs t) : t.params = s.params := by
  rw [h.frame]

theorem State.Queues.gie {s t : State} {bs : List Byte} (h : s.Queues bs t) : t.gie = s.gie := by
  rw [h.frame]

theorem State.Queues.count {s t : State} {bs : List Byte} (h : s.Queues bs t) :
    t.outBuf.count = s.outBuf.count + bs.length := by
  rw [← Ring.pending_length s.params.outCap t.outBuf, h.pending, List.length_append, Ring.pending_length]

theorem State.Queues.nil {s : State} (h : s.outBuf.Ok s.params.outCap) : s.Queues [] s where
  pending := by rw [List.append_nil]
  ok := h
  frame := by simp

theorem State.Queues.trans {s t u : State} {bs cs : List Byte} (h : s.Queues bs t) (h' : t.Queues cs u) :
    s.Queues (bs ++ cs) u where
  pending := by rw [← h.params, h'.pending, h.params, h.pending, List.append_assoc]
  ok := by rw [← h.params]; exact h'.ok
  frame := by
    rw [h'.frame, h.frame]
    cases bs <;> simp

/-- An enqueue queues its byte. -/
theorem State.Queues.enqueued {s : State} (b : Byte) (h : s.outBuf.Ok s.params.outCap)
    (hc : s.outBuf.count < s.params.outCap) : s.Queues [b] (s.enqueued b s.gie) where
  pending := Ring.pending_enqueue _ _ _ h hc
  ok := Ring.ok_enqueue _ _ _ h hc
  frame := by simp [State.enqueued]

/-- The enqueue of a handler, its result discarded, queues its byte where there is room. -/
theorem State.putOrDrop_queues {s : State} (b : Byte) (h : s.outBuf.Ok s.params.outCap) (hg : s.gie = false) :
    s.Queues ([b].take (s.params.outCap - s.outBuf.count)) (s.putOrDrop b) := by
  rw [State.putOrDrop_eq]
  split
  · next hc =>
    rw [List.take_of_length_le (show [b].length ≤ _ by simp; omega), ← hg]
    exact .enqueued b h hc
  · next hc =>
    rw [show s.params.outCap - s.outBuf.count = 0 by omega, List.take_zero]
    exact .nil h

/-- The echo of a byte queues as much of its translation as there is room for (R205, R213). -/
theorem State.echoChar_queues {s : State} (c : Byte) (h : s.outBuf.Ok s.params.outCap) (hg : s.gie = false) :
    s.Queues ((translated c).take (s.params.outCap - s.outBuf.count)) (s.echoChar c) := by
  unfold State.echoChar translated
  split
  · have hcr := State.putOrDrop_queues carriageReturn h hg
    have hok : (s.putOrDrop carriageReturn).outBuf.Ok (s.putOrDrop carriageReturn).params.outCap := by
      rw [hcr.params]; exact hcr.ok
    have hboth := hcr.trans (State.putOrDrop_queues c hok (hcr.gie.trans hg))
    have hleft : s.params.outCap -
          (s.outBuf.count + ([carriageReturn].take (s.params.outCap - s.outBuf.count)).length) =
        s.params.outCap - s.outBuf.count - [carriageReturn].length := by
      simp only [List.length_take, List.length_singleton]
      omega
    rw [hcr.params, hcr.count, hleft, ← List.take_append] at hboth
    exact hboth
  · exact State.putOrDrop_queues c h hg

/-! ### `H_RX` (R213) -/

theorem State.rxEnabled_iff (s : State) :
    s.rxEnabled = true ↔ s.gie = true ∧ s.rxIe = true ∧ s.rxFull = true := by
  simp [State.rxEnabled, State.rxPending, and_assoc]

theorem State.rxEnabled_of_masked {s : State} (h : s.gie = false ∨ s.rxIe = false ∨ s.rxFull = false) :
    s.rxEnabled = false := by
  rcases h with h | h | h <;> simp [State.rxEnabled, State.rxPending, h]

theorem rxHandler_of_masked {s : State} (h : s.rxEnabled = false) : rxHandler s = s := by
  simp [rxHandler, h]

theorem capture_eq (c : Byte) (s : State) :
    capture c s = { s with
      inBuf := if s.inBuf.count < s.params.inCap then s.inBuf.enqueue s.params.inCap (storedByte c) else s.inBuf,
      overrun := s.overrun || decide (s.params.inCap ≤ s.inBuf.count) } := by
  rcases capture_cases c s with ⟨hc, e⟩ | ⟨hc, e⟩ <;> rw [e]
  · rw [if_pos hc, decide_eq_false (Nat.not_le.2 hc), Bool.or_false]
  · rw [if_neg (Nat.not_lt.2 hc), decide_eq_true hc, Bool.or_true]

theorem capture_outBuf (c : Byte) (s : State) : (capture c s).outBuf = s.outBuf := by
  rw [capture_eq]

/-- The capture neither reads nor writes `GIE`. -/
theorem capture_returnFromInterrupt (c : Byte) (s : State) :
    (capture c s).returnFromInterrupt = capture c s.returnFromInterrupt := by
  rw [capture_eq, capture_eq]; rfl

/-- Without echo `H_RX` takes the byte and captures it; `GIE` is as before. -/
theorem rxHandler_of_no_echo {s : State} (h : s.rxEnabled = true) (he : s.echo = false) :
    rxHandler s = capture s.rxData { s with rxFull := false } := by
  obtain ⟨hg, -, -⟩ := s.rxEnabled_iff.1 h
  rcases rxHandler_cases s with ⟨hn, -⟩ | ⟨-, -, e⟩ | ⟨-, hn, -⟩
  · rw [h] at hn; cases hn
  · rw [e, capture_returnFromInterrupt]
    exact congrArg (capture s.rxData) (State.returnFromInterrupt_of_gie (s := { s with rxFull := false }) hg)
  · rw [he] at hn; cases hn

/-- With echo `H_RX` queues the byte as received, as much as fits, and then captures it as without. -/
theorem rxHandler_of_echo {s : State} (h : s.rxEnabled = true) (he : s.echo = true)
    (hok : s.outBuf.Ok s.params.outCap) :
    ∃ t, State.Queues { s with rxFull := false } ((translated s.rxData).take (s.params.outCap - s.outBuf.count)) t ∧
      rxHandler s = capture s.rxData t := by
  obtain ⟨hg, -, -⟩ := s.rxEnabled_iff.1 h
  have hq := State.echoChar_queues (s := { s with rxFull := false, gie := false }) s.rxData hok rfl
  refine ⟨(State.echoChar s.rxData { s with rxFull := false, gie := false }).returnFromInterrupt,
    ⟨hq.pending, hq.ok, ?_⟩, ?_⟩
  · rw [hq.frame]; simp [State.returnFromInterrupt, hg]
  · rcases rxHandler_cases s with ⟨hn, -⟩ | ⟨-, hn, -⟩ | ⟨-, -, e⟩
    · rw [h] at hn; cases hn
    · rw [he] at hn; cases hn
    · rw [e, capture_returnFromInterrupt]

/-! ### The phases of `SER_WRITE` (R202) -/

theorem serWrite_performs (c : Byte) :
    Performs (.serWrite c) .char .v0 (charStep c) fun r t => t.respond (writeStatus (r == .dropped)) 0x00 where
  starts s hf := by rw [exec, execSerWrite, State.foreground_idle _ _ _ s hf]
  runs s q hf := by rw [exec, execSerWrite, State.foreground_run _ _ _ _ s hf]

section
variable {s : State} (c : Byte)

theorem charStep_v0 (h : s.serInited = true) :
    charStep c .v0 s = .ok (.more (if c = 0x0A then .v1 else .v2)) s := by
  rw [charStep, if_pos h, if_congr (needsCarriageReturn_iff c) rfl rfl]

theorem charStep_v1_of_room (h : s.outBuf.count < s.params.outCap) :
    charStep c .v1 s = .ok (.more .v2) (s.enqueued carriageReturn s.gie) := by
  rw [charStep, State.putByte_room s _ _ h]

theorem charStep_v2_of_room (h : s.outBuf.count < s.params.outCap) :
    charStep c .v2 s = .ok (.done .ok) (s.enqueued c s.gie) := by
  rw [charStep, State.putByte_room s _ _ h]

theorem charStep_v1_of_full (h : s.params.outCap ≤ s.outBuf.count) (hg : s.gie = false) :
    charStep c .v1 s = .ok (.more .v2) s := by
  rw [charStep, hg, State.putByte_dropped s _ h]

theorem charStep_v2_of_full (h : s.params.outCap ≤ s.outBuf.count) (hg : s.gie = false) :
    charStep c .v2 s = .ok (.done .dropped) s := by
  rw [charStep, hg, State.putByte_dropped s _ h]

theorem serWrite_starts (hf : s.fg = .idle) (h : s.serInited = true) :
    exec (.serWrite c) s = .next (s.goto (.serWrite c) (.char (if c = 0x0A then .v1 else .v2))) := by
  rw [(serWrite_performs c).starts s hf, charStep_v0 c h]; rfl

theorem serWrite_queues_return (h : s.outBuf.count < s.params.outCap) :
    exec (.serWrite c) (s.goto (.serWrite c) (.char .v1)) =
      .next ((s.enqueued carriageReturn s.gie).goto (.serWrite c) (.char .v2)) := by
  rw [(serWrite_performs c).runs.phase, charStep_v1_of_room (s := s.goto _ _) c h]; rfl

theorem serWrite_queues (h : s.outBuf.count < s.params.outCap) :
    exec (.serWrite c) (s.goto (.serWrite c) (.char .v2)) =
      .next ((s.enqueued c s.gie).respond .success 0x00) := by
  rw [(serWrite_performs c).runs.phase, charStep_v2_of_room (s := s.goto _ _) c h]; rfl

theorem serWrite_drops_return (h : s.params.outCap ≤ s.outBuf.count) (hg : s.gie = false) :
    exec (.serWrite c) (s.goto (.serWrite c) (.char .v1)) = .next (s.goto (.serWrite c) (.char .v2)) := by
  rw [(serWrite_performs c).runs.phase, charStep_v1_of_full (s := s.goto _ _) c h hg]; rfl

theorem serWrite_drops (h : s.params.outCap ≤ s.outBuf.count) (hg : s.gie = false) :
    exec (.serWrite c) (s.goto (.serWrite c) (.char .v2)) = .next (s.respond .writeDropped 0x00) := by
  rw [(serWrite_performs c).runs.phase, charStep_v2_of_full (s := s.goto _ _) c h hg]; rfl

theorem serWrite_waits {q : CharPhase} (hq : q.awaitsRoom = true) (h : s.params.outCap ≤ s.outBuf.count)
    (hg : s.gie = true) :
    exec (.serWrite c) (s.goto (.serWrite c) (.char q)) = .next (s.goto (.serWrite c) (.char q)) := by
  rw [(serWrite_performs c).runs.phase, charStep_waits c q (s.goto _ _) hq h hg]; rfl

end

/-! ### The other commands (R200, R203, R204, R211) -/

section
variable {s : State}

theorem serInit_configures {e : Bool} {baud : BitVec 23} (hf : s.fg = .idle) (hi : s.serInited = false) :
    exec (.serInit e baud) s = .next (State.respond .success 0x00 { s with
      echo := e, baud := baud, outBuf := { s.outBuf with head := 0, count := 0 },
      inBuf := { s.inBuf with head := 0, count := 0 }, drainIe := false, rxIe := true, serInited := true }) := by
  rw [exec, execSerInit, State.foreground_idle _ _ _ s hf]
  exact if_neg (by simp [hi])

theorem serInit_refused {e : Bool} {baud : BitVec 23} (hf : s.fg = .idle) (hi : s.serInited = true) :
    exec (.serInit e baud) s = .refused .alreadyInitialized := by
  rw [exec, execSerInit, State.foreground_idle _ _ _ s hf]
  exact if_pos hi

theorem serRead_starts (hf : s.fg = .idle) (hi : s.serInited = true) :
    exec .serRead s = .next (s.goto .serRead .rd1) := by
  rw [exec, execSerRead, State.foreground_idle _ _ _ s hf]
  exact if_pos hi

theorem serRead_waits (hc : s.inBuf.count = 0) :
    exec .serRead (s.goto .serRead .rd1) = .next (s.goto .serRead .rd1) := by
  rw [exec, execSerRead, State.foreground_run _ _ _ _ (s.goto _ _) rfl]
  exact congrArg Host.Outcome.next (if_pos hc)

theorem serRead_reads (hc : 0 < s.inBuf.count) :
    exec .serRead (s.goto .serRead .rd1) =
      .next (State.respond .success (s.inBuf.front s.params.inCap) { s with inBuf := s.inBuf.dequeue }) := by
  rw [exec, execSerRead, State.foreground_run _ _ _ _ (s.goto _ _) rfl]
  exact congrArg Host.Outcome.next (if_neg (Nat.pos_iff_ne_zero.1 hc))

theorem serAvail_responds (hf : s.fg = .idle) (hi : s.serInited = true) :
    exec .serAvail s = .next (s.respond .success (byteOfBool s.inAvail)) := by
  rw [exec, execSerAvail, State.foreground_idle _ _ _ s hf]
  exact if_pos hi

theorem serOverrun_responds (hf : s.fg = .idle) (hi : s.serInited = true) :
    exec .serOverrun s = .next (s.respond .success (byteOfBool s.overrun)) := by
  rw [exec, execSerOverrun, State.foreground_idle _ _ _ s hf]
  exact if_pos hi

end

/-! ### The output direction (R48, R216) -/

section
variable {s : State}

theorem State.outDirection_idle_iff : s.outDirection = .idle ↔ s.outBuf.count = 0 ∧ s.drainIe = false := by
  unfold State.outDirection
  cases s.outBuf.count <;> cases s.drainIe <;> simp

theorem State.outDirection_tail_iff : s.outDirection = .tail ↔ s.outBuf.count = 0 ∧ s.drainIe = true := by
  unfold State.outDirection
  cases s.outBuf.count <;> cases s.drainIe <;> simp

theorem State.outDirection_draining_iff : s.outDirection = .draining ↔ 0 < s.outBuf.count ∧ s.drainIe = true := by
  unfold State.outDirection
  cases s.outBuf.count <;> cases s.drainIe <;> simp

/-- An enqueue leads to `DRAINING` from every state (R216). -/
theorem State.outDirection_enqueued (b : Byte) (ie : Bool) : (s.enqueued b ie).outDirection = .draining :=
  State.outDirection_draining_iff.2 ⟨Nat.succ_pos _, rfl⟩

end

/-! ### The statements -/

/-- Settles O28, from the two rows of `SER_INIT`. -/
theorem serInitOnce : Obligations.SerInitOnce :=
  fun _ _ _ => ⟨fun hi => serInit_configures rfl hi, fun hi => serInit_refused rfl hi⟩

/-- Settles O30, from the rows of `SER_WRITE`. -/
theorem serWritePhases : Obligations.SerWritePhases := by
  intro s c
  refine ⟨fun hi => serWrite_starts c rfl hi, fun hc => ?_, fun hc hg => ?_, fun hc hg => ?_⟩
  · exact ⟨serWrite_queues_return c hc, serWrite_queues c hc⟩
  · exact ⟨serWrite_drops_return c hc hg, serWrite_drops c hc hg⟩
  · exact ⟨serWrite_waits c (q := .v1) rfl hc hg, serWrite_waits c (q := .v2) rfl hc hg⟩

/-- Settles O31, from the rows of `SER_READ`: the slot named is the oldest byte's. -/
theorem serReadPhases : Obligations.SerReadPhases := by
  intro s c
  refine ⟨fun hi => serRead_starts rfl hi, fun hc => serRead_waits hc, fun hc hslot => ?_⟩
  rw [← Ring.front_of_getElem? hslot]
  exact serRead_reads hc

/-- Settles O32: the response is `IN_AVAIL` as a byte. -/
theorem serAvailAnswers : Obligations.SerAvailAnswers := by
  intro s hi
  rw [serAvail_responds (s := { s with fg := .idle }) rfl hi]
  by_cases hc : s.inBuf.count = 0 <;> simp [State.respond, State.inAvail, byteOfBool, responseWord, Status.code, hc]

/-- Settles O33: the response is `OVERRUN` as a byte. -/
theorem serOverrunAnswers : Obligations.SerOverrunAnswers := by
  intro s hi
  rw [serOverrun_responds (s := { s with fg := .idle }) rfl hi]
  cases ho : s.overrun <;> simp [State.respond, byteOfBool, responseWord, Status.code]

/-- Settles O34, case by case of `H_DRAIN`. -/
theorem drainHandlerStep : Obligations.DrainHandlerStep := by
  intro s c es ha
  have hstep : step s = .next (drainHandler (s.withAgenda es)) := step_agent s _ es ha rfl
  refine ⟨fun hg hie ht hc hslot => ?_, fun hg hie ht hc => ?_, fun hm => ?_⟩ <;> rw [hstep]
  · rw [drainHandler_of_pending (s := s.withAgenda es) hg hie ht hc, ← Ring.front_of_getElem? hslot]; rfl
  · rw [drainHandler_of_empty (s := s.withAgenda es) hg hie ht hc]; rfl
  · rw [drainHandler_of_masked (State.drainEnabled_of_masked (s := s.withAgenda es) hm)]; rfl

/-- Settles O35: without echo `H_RX` is the capture. -/
theorem receiveHandlerStep : Obligations.ReceiveHandlerStep := by
  intro s es ha
  have hstep : step s = .next (rxHandler (s.withAgenda es)) := step_agent s _ es ha rfl
  have hcapture (hg : s.gie = true) (hie : s.rxIe = true) (hr : s.rxFull = true) (he : s.echo = false) :
      rxHandler (s.withAgenda es) = capture s.rxData { s with agenda := es, rxFull := false } :=
    rxHandler_of_no_echo ((State.rxEnabled_iff _).2 ⟨hg, hie, hr⟩) he
  refine ⟨fun hg hie hr he hc => ?_, fun hg hie hr he hc => ?_, fun hm => ?_⟩ <;> rw [hstep]
  · rw [hcapture hg hie hr he, capture, if_pos hc, storedByte_eq]; rfl
  · rw [hcapture hg hie hr he, capture, if_neg (Nat.not_lt.2 hc)]
  · rw [rxHandler_of_masked (State.rxEnabled_of_masked (s := s.withAgenda es) hm)]; rfl

/-- Settles O37: the two cases of `TXU`. -/
theorem transmitterStep : Obligations.TransmitterStep := by
  intro s es ha
  have hstep : step s = .next (txuStep (s.withAgenda es)) := step_agent s _ es ha rfl
  refine ⟨fun ht => ?_, fun ht => ?_⟩ <;> rw [hstep]
  · exact congrArg Host.Outcome.next (if_pos ht)
  · exact congrArg Host.Outcome.next (if_neg (by simp [State.withAgenda, ht]))

/-- Settles O38: the three cases of `RXU`. -/
theorem receiverStep : Obligations.ReceiverStep := by
  intro s b es ha
  have hstep : step s = .next (rxuStep b (s.withAgenda es)) := step_agent s _ es ha rfl
  refine ⟨fun hi hr => ?_, fun hi hr => ?_, fun hi => ?_⟩ <;> rw [hstep] <;> refine congrArg Host.Outcome.next ?_
  · exact (if_pos hi).trans (if_neg (by simp [State.withAgenda, hr]))
  · exact (if_pos hi).trans (if_pos hr)
  · exact if_neg (by simp [State.withAgenda, hi])

/-- Settles O36: the echo queues as much of the translation as fits, and the capture writes other fields. -/
theorem echoQueuesByteAsReceived : Obligations.EchoQueuesByteAsReceived := by
  intro s es ha hg hie hr he hok
  have hstep : step s = .next (rxHandler (s.withAgenda es)) := step_agent s _ es ha rfl
  obtain ⟨t, hq, ht⟩ :=
    rxHandler_of_echo (s := s.withAgenda es) ((State.rxEnabled_iff _).2 ⟨hg, hie, hr⟩) he hok
  intro bytes queued
  have hqueued : queued = (translated s.rxData).take (s.params.outCap - s.outBuf.count) := by
    rw [translated_eq]
  refine ⟨capture s.rxData t, hstep.trans (congrArg _ ht), ?_, ?_, ?_⟩
  · rw [capture_outBuf, hqueued]; exact hq.pending
  · rw [capture_outBuf]; exact hq.ok
  · rw [capture_eq, hqueued, hq.frame, storedByte_eq]; rfl

/-- Settles O39, row by row. -/
theorem outputDirectionTransitions : Obligations.OutputDirectionTransitions := by
  intro s b ie hcap
  refine ⟨fun hd => ?_, fun hd hc => ?_, fun hd hc => ?_, fun es hg ht ha => ?_⟩
  · have hc : s.outBuf.count = 0 := by
      rcases hd with hd | hd
      · exact (State.outDirection_idle_iff.1 hd).1
      · exact (State.outDirection_tail_iff.1 hd).1
    exact ⟨_, s.putByte_room b ie (by omega), State.outDirection_enqueued b ie, congrArg (· + 1) hc⟩
  · exact ⟨_, s.putByte_room b ie hc, State.outDirection_enqueued b ie, rfl⟩
  · cases ie with
    | true => exact s.putByte_waits b (by omega)
    | false => exact s.putByte_dropped b (by omega)
  · have hstep : step s = .next (drainHandler (s.withAgenda es)) := step_agent s _ es ha rfl
    have hmoves (hd : s.outDirection = .draining) : step s = .next (s.withAgenda es).takeOldest := by
      obtain ⟨hc, hie⟩ := State.outDirection_draining_iff.1 hd
      rw [hstep, drainHandler_of_pending (s := s.withAgenda es) hg hie ht hc]
    refine ⟨fun hd hc => ⟨_, hmoves hd, ?_, rfl, rfl, rfl⟩, fun hd hc => ⟨_, hmoves hd, ?_, rfl, rfl⟩, fun hd => ?_⟩
    · exact State.outDirection_draining_iff.2 ⟨Nat.sub_pos_of_lt hc, (State.outDirection_draining_iff.1 hd).2⟩
    · exact State.outDirection_tail_iff.2 ⟨Nat.sub_eq_zero_of_le hc.le, (State.outDirection_draining_iff.1 hd).2⟩
    · obtain ⟨hc, hie⟩ := State.outDirection_tail_iff.1 hd
      refine ⟨_, hstep, ?_⟩
      rw [drainHandler_of_empty (s := s.withAgenda es) hg hie ht hc]
      exact ⟨State.outDirection_idle_iff.2 ⟨hc, rfl⟩, ht⟩

end Sys2Proof.Machine

/-! PROOF. The streams of R223 and R91: what each phase of a command, each agent and each step does with the bytes on
their way to the host and with those stored for the foreground. -/

namespace Sys2Proof.Machine

/-! ### The streams after one operation -/

/-- Both streams are as they were. -/
structure State.SameStreams (s t : State) : Prop where
  out : t.outStream = s.outStream := by rfl
  inb : t.inStream = s.inStream := by rfl

theorem State.takeEvent_sameStreams (s : State) : s.SameStreams s.takeEvent where
  out := by simp [State.outStream, State.inTransmitter]
  inb := by simp [State.inStream]

/-- Bytes queued for the host are at the end of the outbound stream (R223). -/
theorem State.Queues.outStream {s t : State} {bs : List Byte} (h : s.Queues bs t) :
    t.outStream = s.outStream ++ bs := by
  have hline : t.txLine = s.txLine := by rw [h.frame]
  have hheld : t.inTransmitter = s.inTransmitter := by rw [h.frame]; rfl
  simp only [State.outStream, hline, hheld, h.params, h.pending, List.append_assoc]

theorem State.Queues.inStream {s t : State} {bs : List Byte} (h : s.Queues bs t) : t.inStream = s.inStream := by
  rw [h.frame]; rfl

/-- The byte that `H_DRAIN` moves stays where it is in the outbound stream (R212). -/
theorem State.outStream_takeOldest {s : State} (h : s.outBuf.Ok s.params.outCap) (hc : 0 < s.outBuf.count)
    (ht : s.txFull = false) : s.takeOldest.outStream = s.outStream := by
  have hpend := Ring.pending_dequeue _ _ h hc
  simp [State.outStream, State.inTransmitter, State.takeOldest, ht, hpend]

/-- The byte that `TXU` puts on the line stays where it is in the outbound stream (R214). -/
theorem txuStep_sameStreams (s : State) : s.SameStreams (txuStep s) := by
  unfold txuStep
  split
  · next hf => exact ⟨by simp [State.outStream, State.inTransmitter, hf], rfl⟩
  · exact {}

/-! ### What a phase of a command does -/

/-- The outbound stream grows at its end, but not in the first phase of a command; the inbound one stays. -/
structure State.Sends (s t : State) : Prop where
  out : ∃ bs, t.outStream = s.outStream ++ bs ∧ (s.fg = .idle → bs = [])
  inb : t.inStream = s.inStream

/-- The inbound stream gives its oldest byte, which is the response (R203); the outbound one stays. -/
structure State.Reads (s t : State) : Prop where
  out : t.outStream = s.outStream
  inb : ∃ b, s.inStream = b :: t.inStream ∧ t.rsp = responseWord .success b
  busy : s.fg ≠ .idle

theorem State.SameStreams.sends {s t : State} (h : s.SameStreams t) : s.Sends t where
  out := ⟨[], by rw [h.out, List.append_nil], fun _ => rfl⟩
  inb := h.inb

theorem State.Sends.trans_same {s t u : State} (h : s.Sends t) (h' : t.SameStreams u) : s.Sends u where
  out := by rw [h'.out]; exact h.out
  inb := h'.inb.trans h.inb

/-- An enabled enqueue of a command past its first phase (R201). -/
theorem State.putByte_sends {s t : State} {b : Byte} {r : PutResult} (h : s.outBuf.Ok s.params.outCap)
    (hf : s.fg ≠ .idle) (hp : s.putByte b s.gie = some (r, t)) : s.Sends t := by
  rcases State.putByte_some _ _ _ _ _ hp with ⟨-, hc, rfl⟩ | ⟨-, -, -, rfl⟩
  · exact ⟨⟨[b], (State.Queues.enqueued b h hc).outStream, fun hi => absurd hi hf⟩, rfl⟩
  · exact State.SameStreams.sends {}

/-- Where an inner sequence does not stop, it only sends. -/
def Sub.Sends {π α : Type} (s : State) (x : Sub π α) : Prop :=
  ∀ p t, x = .ok p t → s.Sends t

theorem readStep_sends (addr : Addr) (r : ReadPhase) (s : State) : (readStep addr r s).Sends s := by
  intro p t h
  rcases readStep_ok _ _ _ _ _ h with ⟨-, rfl, -⟩ | ⟨-, -, rfl, -⟩ | ⟨b, -, -, -, -, rfl⟩ <;>
    exact State.SameStreams.sends {}

theorem writeStep_sends (addr : Addr) (v : Byte) (w : WritePhase) (s : State) : (writeStep addr v w s).Sends s := by
  intro p t h
  rcases writeStep_ok _ _ _ _ _ _ h with ⟨-, rfl, -⟩ | ⟨-, -, rfl, -⟩ | ⟨-, -, -, rfl⟩ <;>
    exact State.SameStreams.sends {}

theorem updateStep_sends (addr : Addr) (v : Byte) (u : UpdatePhase) (s : State) : (updateStep addr v u s).Sends s := by
  intro p t h
  rcases updateStep_ok _ _ _ _ _ _ h with
    ⟨r, q, -, hq, -⟩ | ⟨-, -, rfl, -⟩ | ⟨w, q, -, hq, -⟩ | ⟨r, q, -, hq, -⟩ | ⟨-, -, rfl, -⟩
  · exact readStep_sends _ _ _ _ _ hq
  · exact State.SameStreams.sends {}
  · exact writeStep_sends _ _ _ _ _ _ hq
  · exact readStep_sends _ _ _ _ _ hq
  · exact State.SameStreams.sends {}

theorem xferStep_sends (b : Byte) (x : XferPhase) (s : State) : (xferStep b x s).Sends s := by
  intro p t h
  rcases xferStep_ok _ _ _ _ _ h with ⟨-, -, rfl⟩ | ⟨-, -, -, rfl⟩ | ⟨-, -, -, rfl⟩ <;>
    exact State.SameStreams.sends {}

theorem frameStep_sends (reg data : Byte) (f : FramePhase) (s : State) : (frameStep reg data f s).Sends s := by
  intro p t h
  rcases frameStep_ok _ _ _ _ _ _ h with ⟨-, -, -, rfl⟩ | ⟨-, -, rfl⟩ | ⟨-, -, rfl⟩ | ⟨-, -, rfl⟩ | ⟨-, -, rfl⟩ |
    ⟨-, -, rfl⟩ | ⟨x, b, wrap, after, q, -, -, hq, -⟩
  on_goal 7 => exact xferStep_sends _ _ _ _ _ hq
  all_goals exact State.SameStreams.sends {}

theorem potStep_sends (w1 w2 : Byte) (q : PotPhase) (s : State) : (potStep w1 w2 q s).Sends s := by
  intro p t h
  rcases potStep_ok _ _ _ _ _ _ h with ⟨-, -, -, rfl⟩ | ⟨x, r, -, hr, -⟩ | ⟨x, r, -, hr, -⟩ | ⟨-, -, rfl⟩
  · exact State.SameStreams.sends {}
  · exact xferStep_sends _ _ _ _ _ hr
  · exact xferStep_sends _ _ _ _ _ hr
  · exact State.SameStreams.sends {}

/-- V1 and V2 enqueue, V0 does not (R202). -/
theorem charStep_sends {s : State} (h : s.outBuf.Ok s.params.outCap) (c : Byte) (q : CharPhase)
    (hf : q ≠ .v0 → s.fg ≠ .idle) : (charStep c q s).Sends s := by
  intro p t ht
  rcases charStep_ok _ _ _ _ _ ht with ⟨-, -, rfl, -⟩ | ⟨-, -, -, rfl, -⟩ | ⟨rfl, -, r, hr⟩ | ⟨r, rfl, -, hr⟩
  · exact State.SameStreams.sends {}
  · exact State.SameStreams.sends {}
  · exact State.putByte_sends h (hf (by simp)) hr
  · exact State.putByte_sends h (hf (by simp)) hr

/-- H1 to H3 enqueue, H0 does not (R251). -/
theorem lineStep_sends {s : State} (h : s.outBuf.Ok s.params.outCap) (tag data : Byte) (l : LinePhase)
    (hf : l ≠ .h0 → s.fg ≠ .idle) : (lineStep tag data l s).Sends s := by
  intro p t ht
  rcases lineStep_ok _ _ _ _ _ _ ht with
    ⟨-, -, rfl, -⟩ | ⟨c, d, q, rfl, hq, -⟩ | ⟨c, d, q, rfl, hq, -⟩ | ⟨c, d, q, rfl, hq, -⟩
  · exact State.SameStreams.sends {}
  all_goals exact charStep_sends h _ _ (fun _ => hf (by simp)) _ _ hq

/-! ### The commands -/

/-- Where a phase of a command does not stop, it sends or reads. -/
def State.PhaseMoves (s : State) (r : Result) : Prop :=
  ∀ t, r = .next t → s.Sends t ∨ s.Reads t

theorem State.PhaseMoves.same {s t : State} (h : s.SameStreams t) : s.PhaseMoves (.next t) := by
  rintro _ ⟨⟩; exact .inl h.sends

theorem State.PhaseMoves.refused {s : State} {r : Refusal} : s.PhaseMoves (.refused r) := by
  rintro t ⟨⟩

theorem State.PhaseMoves.fault {s : State} {f : Fault} : s.PhaseMoves (.fault f) := by
  rintro t ⟨⟩

theorem State.PhaseMoves.ite {s : State} {c : Prop} [Decidable c] {a b : Result} (ha : s.PhaseMoves a)
    (hb : s.PhaseMoves b) : s.PhaseMoves (if c then a else b) := by
  split
  · exact ha
  · exact hb

/-- A command whose phases all send or read; in a phase other than the first the sequencer is busy. -/
theorem State.PhaseMoves.foreground {s : State} {i : Instr} {first : Phase} {body : Phase → Result}
    (h : ∀ ph, (ph ≠ first → s.fg ≠ .idle) → s.PhaseMoves (body ph)) : s.PhaseMoves (s.foreground i first body) := by
  rcases State.foreground_cases i first body s with ⟨-, e⟩ | ⟨ph, hf, e⟩ | ⟨j, ph, -, -, e⟩ <;> rw [e]
  · exact h first fun hn => absurd rfl hn
  · exact h ph fun _ => by simp [hf]
  · exact .refused

/-- An inner sequence run as a command's phases; what ends it leaves the streams. -/
theorem Sub.Sends.run {π α : Type} {s : State} {x : Sub π α} (h : x.Sends s) {i : Instr} {wrap : π → Phase}
    {fin : α → State → State} (hfin : ∀ a u, State.SameStreams u (fin a u)) : s.PhaseMoves (x.run i wrap fin) := by
  intro t ht
  rcases Sub.run_next _ _ _ _ _ ht with ⟨q, u, hq, rfl⟩ | ⟨a, u, hq, rfl⟩
  · exact .inl ((h _ _ hq).trans_same {})
  · exact .inl ((h _ _ hq).trans_same (hfin a u))

theorem execNvRead_moves (addr : Addr) (s : State) : s.PhaseMoves (execNvRead addr s) := by
  refine .foreground fun ph _ => ?_
  cases ph with
  | nvRead r => exact (readStep_sends addr r s).run fun a u => by cases a <;> exact {}
  | _ => exact .fault

theorem execNvWrite_moves (addr : Addr) (v : Byte) (s : State) : s.PhaseMoves (execNvWrite addr v s) := by
  refine .foreground fun ph _ => ?_
  cases ph with
  | nvWrite w => exact (writeStep_sends addr v w s).run fun _ _ => {}
  | _ => exact .fault

theorem execNvUpdate_moves (addr : Addr) (v : Byte) (s : State) : s.PhaseMoves (execNvUpdate addr v s) := by
  refine .foreground fun ph _ => ?_
  cases ph with
  | nvUpdate u => exact (updateStep_sends addr v u s).run fun _ _ => {}
  | _ => exact .fault

theorem execSpiXfer_moves (b : Byte) (s : State) : s.PhaseMoves (execSpiXfer b s) := by
  refine .foreground fun ph _ => ?_
  cases ph with
  | xfer x => exact (xferStep_sends b x s).run fun _ _ => {}
  | _ => exact .fault

theorem execCsSelect_moves (p : Periph) (s : State) : s.PhaseMoves (execCsSelect p s) := by
  refine .foreground fun ph _ => ?_
  cases ph with
  | s0 => exact .ite (.same {}) (.ite (.same {}) .refused)
  | _ => exact .fault

theorem execCsDeselect_moves (p : Periph) (s : State) : s.PhaseMoves (execCsDeselect p s) := by
  refine .foreground fun ph _ => ?_
  cases ph with
  | d0 => refine .same ?_; split <;> exact {}
  | _ => exact .fault

theorem execPdRegwrite_moves (reg data : Byte) (s : State) : s.PhaseMoves (execPdRegwrite reg data s) := by
  refine .foreground fun ph _ => ?_
  cases ph with
  | pd f => exact (frameStep_sends reg data f s).run fun _ _ => {}
  | _ => exact .fault

theorem execPotWrite_moves (w1 w2 : Byte) (s : State) : s.PhaseMoves (execPotWrite w1 w2 s) := by
  refine .foreground fun ph _ => ?_
  cases ph with
  | pot q => exact (potStep_sends w1 w2 q s).run fun _ _ => {}
  | _ => exact .fault

/-- Initialization empties buffers that are empty already: it loses no byte (R200). -/
theorem execSerInit_moves {s : State} (h : s.Inv) (e : Bool) (baud : BitVec 23) :
    s.PhaseMoves (execSerInit e baud s) := by
  refine .foreground fun ph _ => ?_
  cases ph with
  | i0 =>
    dsimp only
    split
    · exact .refused
    · next hi =>
      obtain ⟨hout, hin⟩ := h.fresh (by simpa using hi)
      refine .same ⟨?_, ?_⟩
      · exact congrArg (s.txLine ++ s.inTransmitter ++ ·) (Ring.pending_of_count_zero _ _ hout).symm
      · exact (Ring.pending_of_count_zero _ _ hin).symm
  | _ => exact .fault

theorem execSerWrite_moves {s : State} (h : s.Inv) (c : Byte) : s.PhaseMoves (execSerWrite c s) := by
  refine .foreground fun ph hf => ?_
  cases ph with
  | char q => exact (charStep_sends h.outBuf c q fun hq => hf (by simpa using hq)).run fun _ _ => {}
  | _ => exact .fault

/-- RD1 awaits a byte, or takes the oldest one (R203). -/
theorem execSerRead_moves {s : State} (h : s.Inv) : s.PhaseMoves (execSerRead s) := by
  refine .foreground fun ph hf => ?_
  cases ph with
  | rd0 => exact .ite (.same {}) .refused
  | rd1 =>
    rintro t ⟨⟩
    split
    · exact .inl (State.SameStreams.sends {})
    · next hc =>
      have oldest := Ring.pending_dequeue _ _ h.inBuf (Nat.pos_of_ne_zero hc)
      exact .inr ⟨rfl, ⟨_, oldest, rfl⟩, hf (by simp)⟩
  | _ => exact .fault

theorem execSerAvail_moves (s : State) : s.PhaseMoves (execSerAvail s) := by
  refine .foreground fun ph _ => ?_
  cases ph with
  | a0 => exact .ite (.same {}) .refused
  | _ => exact .fault

theorem execSerOverrun_moves (s : State) : s.PhaseMoves (execSerOverrun s) := by
  refine .foreground fun ph _ => ?_
  cases ph with
  | o0 => exact .ite (.same {}) .refused
  | _ => exact .fault

theorem execFacUpdatePd_moves (reg data : Byte) (s : State) : s.PhaseMoves (execFacUpdatePd reg data s) := by
  refine .foreground fun ph _ => ?_
  cases ph with
  | pd f => exact (frameStep_sends reg data f s).run fun _ _ => {}
  | _ => exact .fault

theorem execFacNotify_moves {s : State} (h : s.Inv) (tag data : Byte) : s.PhaseMoves (execFacNotify tag data s) := by
  refine .foreground fun ph hf => ?_
  cases ph with
  | line l => exact (lineStep_sends h.outBuf tag data l fun hl => hf (by simpa using hl)).run fun _ _ => {}
  | _ => exact .fault

theorem execFacUpdate_moves {s : State} (h : s.Inv) (tag reg data : Byte) :
    s.PhaseMoves (execFacUpdate tag reg data s) := by
  refine .foreground fun ph hf => ?_
  cases ph with
  | j0 => exact .ite .refused (.ite (.same {}) .refused)
  | pd f => exact (frameStep_sends reg data f s).run fun _ _ => {}
  | line l => exact (lineStep_sends h.outBuf tag data l fun _ => hf (by simp)).run fun _ _ => {}
  | _ => exact .fault

theorem execFacSetWiper_moves (w1 w2 : Byte) (s : State) : s.PhaseMoves (execFacSetWiper w1 w2 s) := by
  refine .foreground fun ph _ => ?_
  cases ph with
  | pot q => exact (potStep_sends w1 w2 q s).run fun _ _ => {}
  | _ => exact .fault

theorem execIrqSuppress_moves (s : State) : s.PhaseMoves (execIrqSuppress s) := by
  refine .foreground fun ph _ => ?_
  cases ph with
  | k0 => exact .same {}
  | _ => exact .fault

theorem execIrqRestore_moves (tok : Bool) (s : State) : s.PhaseMoves (execIrqRestore tok s) := by
  refine .foreground fun ph _ => ?_
  cases ph with
  | l0 => exact .same {}
  | _ => exact .fault

/-- A phase of a command sends or reads. -/
theorem exec_moves {s : State} (h : s.Inv) (i : Instr) : s.PhaseMoves (exec i s) := by
  cases i with
  | nvRead addr => exact execNvRead_moves addr s
  | nvWrite addr v => exact execNvWrite_moves addr v s
  | nvUpdate addr v => exact execNvUpdate_moves addr v s
  | spiXfer b => exact execSpiXfer_moves b s
  | csSelect p => exact execCsSelect_moves p s
  | csDeselect p => exact execCsDeselect_moves p s
  | pdRegwrite reg data => exact execPdRegwrite_moves reg data s
  | potWrite w1 w2 => exact execPotWrite_moves w1 w2 s
  | serInit e baud => exact execSerInit_moves h e baud
  | serWrite c => exact execSerWrite_moves h c
  | serRead => exact execSerRead_moves h
  | serAvail => exact execSerAvail_moves s
  | serOverrun => exact execSerOverrun_moves s
  | facUpdatePd reg data => exact execFacUpdatePd_moves reg data s
  | facNotify tag data => exact execFacNotify_moves h tag data
  | facUpdate tag reg data => exact execFacUpdate_moves h tag reg data
  | facSetWiper w1 w2 => exact execFacSetWiper_moves w1 w2 s
  | irqSuppress => exact execIrqSuppress_moves s
  | irqRestore tok => exact execIrqRestore_moves tok s

/-! ### The agents -/

theorem drainHandler_sameStreams {s : State} (h : s.outBuf.Ok s.params.outCap) : s.SameStreams (drainHandler s) := by
  cases he : s.drainEnabled with
  | false => rw [drainHandler_of_masked he]; exact {}
  | true =>
    obtain ⟨hg, hie, ht⟩ := s.drainEnabled_iff.1 he
    by_cases hc : s.outBuf.count = 0
    · rw [drainHandler_of_empty hg hie ht hc]; exact {}
    · have hpos := Nat.pos_of_ne_zero hc
      rw [drainHandler_of_pending hg hie ht hpos]
      exact ⟨State.outStream_takeOldest h hpos ht, rfl⟩

/-- The outbound stream grows at its end, by an echo; the inbound one gains at most one byte at its end (R213). -/
structure State.Receives (s t : State) : Prop where
  out : ∃ bs, t.outStream = s.outStream ++ bs
  inb : t.inStream = s.inStream ∨ ∃ b, t.inStream = s.inStream ++ [b]

theorem State.SameStreams.receives {s t u : State} (h : s.SameStreams t) (h' : t.Receives u) : s.Receives u where
  out := by rw [← h.out]; exact h'.out
  inb := by rw [← h.inb]; exact h'.inb

theorem State.Queues.receives {s t u : State} {bs : List Byte} (h : s.Queues bs t) (h' : t.Receives u) :
    s.Receives u where
  out := by
    obtain ⟨cs, hcs⟩ := h'.out
    exact ⟨bs ++ cs, by rw [hcs, h.outStream, List.append_assoc]⟩
  inb := by rw [← h.inStream]; exact h'.inb

/-- The capture stores the byte at the end of the inbound stream, or discards it. -/
theorem capture_receives {s : State} (c : Byte) (h : s.inBuf.Ok s.params.inCap) : s.Receives (capture c s) := by
  rcases capture_cases c s with ⟨hc, e⟩ | ⟨-, e⟩ <;> rw [e]
  · exact ⟨⟨[], (List.append_nil _).symm⟩, .inr ⟨_, Ring.pending_enqueue _ _ _ h hc⟩⟩
  · exact ⟨⟨[], (List.append_nil _).symm⟩, .inl rfl⟩

theorem rxHandler_receives {s : State} (h : s.Inv) : s.Receives (rxHandler s) := by
  have taken : s.SameStreams { s with rxFull := false } := {}
  cases hx : s.rxEnabled with
  | false => rw [rxHandler_of_masked hx]; exact ⟨⟨[], (List.append_nil _).symm⟩, .inl rfl⟩
  | true =>
    cases he : s.echo with
    | false =>
      rw [rxHandler_of_no_echo hx he]
      exact taken.receives (capture_receives _ h.inBuf)
    | true =>
      obtain ⟨t, hq, e⟩ := rxHandler_of_echo hx he h.outBuf
      have hin : t.inBuf.Ok t.params.inCap := by rw [hq.frame]; exact h.inBuf
      rw [e]
      exact taken.receives (hq.receives (capture_receives _ hin))

/-- Beside the foreground and resets, `H_RX` alone moves a stream. -/
theorem agentStep_streams {e : Event} {s t : State} (h : s.Inv) (ht : agentStep e s = .next t) (hr : e ≠ .reset) :
    s.SameStreams t ∨ (e = .hRx ∧ s.Receives t) := by
  cases e with
  | command w => cases ht; exact .inl {}
  | fg => cases ht; exact .inl {}
  | hDrain => cases ht; exact .inl (drainHandler_sameStreams h.outBuf)
  | hRx => cases ht; exact .inr ⟨rfl, rxHandler_receives h⟩
  | txu => cases ht; exact .inl (txuStep_sameStreams s)
  | rxu b =>
    cases ht
    left
    unfold rxuStep
    split
    · split <;> exact {}
    · exact {}
  | spiu m => cases ht; rcases spiuStep_cases m s with ⟨-, e⟩ | ⟨-, e⟩ <;> rw [e] <;> exact .inl {}
  | nvu worn =>
    rcases nvuStep_cases worn s with ⟨-, e⟩ | ⟨-, -, e⟩ | ⟨-, -, e⟩ <;> rw [agentStep, e] at ht <;> cases ht <;>
      exact .inl {}
  | reset => exact absurd rfl hr

/-! ### The step -/

/-- What is sent or read from the idle sequencer is nothing. -/
theorem State.sameStreams_of_idle {s t : State} (hf : s.fg = .idle) (h : s.Sends t ∨ s.Reads t) : s.SameStreams t := by
  rcases h with hsend | hread
  · obtain ⟨bs, hbs, hnil⟩ := hsend.out
    exact ⟨by rw [hbs, hnil hf, List.append_nil], hsend.inb⟩
  · exact absurd hf hread.busy

/-- Everything a step but a reset can do with the streams, from the state with the event taken. -/
theorem step_streams {s t : State} (h : s.Inv) (ht : step s = .next t) (hr : s.event ≠ .reset) :
    s.takeEvent.SameStreams t ∨ (s.event = .fg ∧ (s.takeEvent.Sends t ∨ s.takeEvent.Reads t)) ∨
    (s.event = .hRx ∧ s.takeEvent.Receives t) := by
  rcases step_next s t ht with ⟨i, hc, hx⟩ | ⟨-, ha⟩
  · have hmoves := exec_moves h.takeEvent i t hx
    rcases commandOf_some _ _ _ hc with ⟨w, -, hf, -⟩ | ⟨ph, hev, -⟩
    · exact .inl (State.sameStreams_of_idle hf hmoves)
    · exact .inr (.inl ⟨hev, hmoves⟩)
  · exact (agentStep_streams h.takeEvent ha hr).imp_right .inr

/-- Settles O42: `H_DRAIN` and `TXU` move bytes inside the stream, and every enqueue is at its end. -/
theorem outboundStreamOnlyGrows : Obligations.OutboundStreamOnlyGrows := by
  intro s t h ht hr
  rw [← s.takeEvent_sameStreams.out]
  rcases step_streams h ht hr with hsame | ⟨hev, hsend | hread⟩ | ⟨hev, hrecv⟩
  · exact ⟨[], by rw [hsame.out, List.append_nil], fun _ _ => rfl⟩
  · obtain ⟨bs, hbs, -⟩ := hsend.out
    exact ⟨bs, hbs, fun _ hn => absurd hev hn⟩
  · exact ⟨[], by rw [hread.out, List.append_nil], fun _ _ => rfl⟩
  · obtain ⟨bs, hbs⟩ := hrecv.out
    exact ⟨bs, hbs, fun hn _ => absurd hev hn⟩

/-- Settles O43: the capture stores at the end, and RD1 takes the oldest byte. -/
theorem inboundStreamIsFifo : Obligations.InboundStreamIsFifo := by
  intro s t h ht hr
  rw [← s.takeEvent_sameStreams.inb]
  rcases step_streams h ht hr with hsame | ⟨hev, hsend | hread⟩ | ⟨hev, hrecv⟩
  · exact .inl hsame.inb
  · exact .inl hsend.inb
  · exact .inr (.inr ⟨hev, hread.inb⟩)
  · exact hrecv.inb.imp_right fun hgain => .inl ⟨hev, hgain⟩

end Sys2Proof.Machine

/-! PROOF. Writing to the outbound buffer with interrupts off (R201, R224): each write that finds room queues its byte,
so as many writes as there is room for queue theirs in order, and the next one drops its byte. -/

namespace Sys2Proof.Machine

/-! ### One write -/

/-- What a write with interrupts off asks of the block: an idle sequencer, an initialized transport, `GIE` off and a
buffer in range. -/
structure State.ReadyToWrite (s : State) : Prop where
  fg : s.fg = .idle
  inited : s.serInited = true
  gie : s.gie = false
  outBuf : s.outBuf.Ok s.params.outCap

/-- The events of the write of one byte: its word, and the step of `FG` that ends it. -/
def writeEvents (c : Byte) : List Event :=
  [.command (encode (.serWrite c)), .fg]

/-- The state after a write that found room. -/
def State.wrote (c : Byte) (s : State) : State :=
  (s.enqueued c s.gie).respond .success 0x00

/-- The two steps of a write, the second one given by what V2 does. -/
theorem run_writeEvents {s t : State} {c : Byte} (h : s.ReadyToWrite) (hc : c ≠ 0x0A) (es : List Event)
    (hv2 : exec (.serWrite c) ((s.withAgenda es).goto (.serWrite c) (.char .v2)) = .next t) :
    Host.Core.run Sys2Proof.core 2 (s.withAgenda (writeEvents c ++ es)) = .next t := by
  have hv0 : exec (.serWrite c) (s.withAgenda (.fg :: es)) =
      .next ((s.withAgenda (.fg :: es)).goto (.serWrite c) (.char .v2)) := by
    rw [serWrite_starts (s := s.withAgenda (.fg :: es)) c h.fg h.inited, if_neg hc]
  have hword : step (s.withAgenda (writeEvents c ++ es)) =
      .next ((s.withAgenda (.fg :: es)).goto (.serWrite c) (.char .v2)) :=
    (stepRunsPresentedCommand (s.withAgenda (writeEvents c ++ es)) _ _ (.fg :: es) h.fg rfl
      (decodeOfEncodeIsIdentity (.serWrite c))).trans hv0
  have hend : step ((s.withAgenda (.fg :: es)).goto (.serWrite c) (.char .v2)) = .next t := by
    obtain ⟨hrun, -⟩ := stepRunsCommandUnderWay ((s.withAgenda (.fg :: es)).goto (.serWrite c) (.char .v2)) es rfl
    rw [hrun _ _ rfl]
    exact hv2
  exact run_trans (run_one hword) (run_one hend)

/-- A write that finds room queues its byte. -/
theorem run_write {s : State} {c : Byte} (h : s.ReadyToWrite) (hc : c ≠ 0x0A)
    (hroom : s.outBuf.count < s.params.outCap) (es : List Event) :
    Host.Core.run Sys2Proof.core 2 (s.withAgenda (writeEvents c ++ es)) = .next ((s.wrote c).withAgenda es) :=
  run_writeEvents h hc es (serWrite_queues (s := s.withAgenda es) c hroom)

/-- A write to a full buffer drops its byte. -/
theorem run_write_dropped {s : State} {c : Byte} (h : s.ReadyToWrite) (hc : c ≠ 0x0A)
    (hfull : s.params.outCap ≤ s.outBuf.count) (es : List Event) :
    Host.Core.run Sys2Proof.core 2 (s.withAgenda (writeEvents c ++ es)) =
      .next ((s.respond .writeDropped 0x00).withAgenda es) :=
  run_writeEvents h hc es (serWrite_drops (s := s.withAgenda es) c hfull h.gie)

/-! ### Writes in a row -/

/-- What writes of the bytes `bs` leave: the block ready for more, the bytes queued in order behind those pending. -/
structure State.Wrote (s : State) (bs : List Byte) (t : State) : Prop where
  ready : t.ReadyToWrite
  params : t.params = s.params
  pending : t.outBuf.pending s.params.outCap = s.outBuf.pending s.params.outCap ++ bs
  rsp : t.rsp = if bs = [] then s.rsp else 0x0000

theorem State.Wrote.count {s t : State} {bs : List Byte} (h : s.Wrote bs t) :
    t.outBuf.count = s.outBuf.count + bs.length := by
  rw [← Ring.pending_length s.params.outCap t.outBuf, h.pending, List.length_append, Ring.pending_length]

theorem State.Wrote.nil {s : State} (h : s.ReadyToWrite) : s.Wrote [] s :=
  ⟨h, rfl, (List.append_nil _).symm, rfl⟩

theorem State.Wrote.one {s : State} (h : s.ReadyToWrite) (c : Byte) (hroom : s.outBuf.count < s.params.outCap) :
    s.Wrote [c] (s.wrote c) where
  ready := ⟨rfl, h.inited, h.gie, Ring.ok_enqueue _ _ _ h.outBuf hroom⟩
  params := rfl
  pending := Ring.pending_enqueue _ _ _ h.outBuf hroom
  rsp := rfl

/-- One byte first, then the rest. -/
theorem State.Wrote.cons {s t u : State} {c : Byte} {bs : List Byte} (h : s.Wrote [c] t) (h' : t.Wrote bs u) :
    s.Wrote (c :: bs) u where
  ready := h'.ready
  params := h'.params.trans h.params
  pending := by rw [← h.params, h'.pending, h.params, h.pending, List.append_assoc]; rfl
  rsp := by
    rw [h'.rsp, h.rsp]
    simp

/-- Writes of no more bytes than there is room for, by induction on the bytes. -/
theorem run_writes (bs : List Byte) {s : State} (h : s.ReadyToWrite) (hbs : ∀ b ∈ bs, b ≠ 0x0A)
    (hroom : s.outBuf.count + bs.length ≤ s.params.outCap) (es : List Event) :
    ∃ t, Host.Core.run Sys2Proof.core (2 * bs.length) (s.withAgenda (bs.flatMap writeEvents ++ es)) =
      .next (t.withAgenda es) ∧ s.Wrote bs t := by
  induction bs generalizing s with
  | nil => exact ⟨s, rfl, .nil h⟩
  | cons b bs ih =>
    rw [List.length_cons] at hroom
    have hone := State.Wrote.one h b (by omega)
    obtain ⟨t, hrun, ht⟩ := ih hone.ready (fun c hc => hbs c (by simp [hc])) (by
      rw [hone.params, hone.count, List.length_singleton]; omega)
    refine ⟨t, ?_, hone.cons ht⟩
    rw [List.length_cons, Nat.mul_succ, Nat.add_comm, List.flatMap_cons, List.append_assoc]
    exact run_trans (run_write h (hbs b (by simp)) (by omega) _) hrun

/-- Settles O40: the first `OUT_CAP` writes find room, and the next one finds none. -/
theorem fullBufferDropsNextByte : Obligations.FullBufferDropsNextByte := by
  intro s bs x hf hg hi hok hempty hlen hbytes start
  have hready : s.ReadyToWrite := ⟨hf, hi, hg, hok⟩
  have hnone : s.outBuf.pending s.params.outCap = [] := Ring.pending_of_count_zero _ _ hempty
  have hrows (k : Nat) (hk : k ≤ bs.length) : ∃ t, Host.Core.run Sys2Proof.core (2 * k) start =
      .next (t.withAgenda ((bs.drop k ++ [x]).flatMap writeEvents)) ∧ s.Wrote (bs.take k) t := by
    have hsplit : bs ++ [x] = bs.take k ++ (bs.drop k ++ [x]) := by
      rw [← List.append_assoc, List.take_append_drop]
    have hstart : start = s.withAgenda ((bs.take k).flatMap writeEvents ++ (bs.drop k ++ [x]).flatMap writeEvents) := by
      rw [← List.flatMap_append, ← hsplit]; rfl
    have htake : (bs.take k).length = k := List.length_take_of_le hk
    have hrun := run_writes (bs.take k) hready
      (fun b hb => hbytes b (List.mem_append_left _ (List.mem_of_mem_take hb))) (by omega)
      ((bs.drop k ++ [x]).flatMap writeEvents)
    rwa [← hstart, htake] at hrun
  refine ⟨fun k hk hkl => ?_, ?_⟩
  · obtain ⟨t, hrun, ht⟩ := hrows k hkl
    have hsome : bs.take k ≠ [] := List.ne_nil_of_length_pos (by rw [List.length_take_of_le hkl]; exact hk)
    exact ⟨_, hrun, ht.ready.fg, ht.rsp.trans (if_neg hsome), ht.ready.gie, ht.pending.trans (by rw [hnone]; rfl)⟩
  · obtain ⟨t, hrun, ht⟩ := hrows bs.length le_rfl
    rw [List.drop_length] at hrun
    rw [List.take_length] at ht
    have hfull : t.params.outCap ≤ t.outBuf.count := by rw [ht.params, ht.count, hempty]; omega
    have hdrop := run_write_dropped ht.ready (hbytes x (by simp)) hfull []
    exact ⟨_, _, hrun, run_trans hrun hdrop, rfl, rfl, ht.pending.trans (by rw [hnone]; rfl)⟩

end Sys2Proof.Machine

/-! PROOF. The Communication Facade phase by phase (R251, R252): the host line as three writes, each with the phases of
`SER_WRITE`, and the preconditions of `FAC_UPDATE`. -/

namespace Sys2Proof.Machine

/-! ### A sequence inside another whose value picks what follows -/

/-- What a command does with the progress of a sequence it runs as its phases. -/
def Progress.settle {ρ β : Type} (i : Instr) (wrap : ρ → Phase) (fin : β → State → State) (p : Progress ρ β)
    (t : State) : State :=
  match p with
  | .more q => t.goto i (wrap q)
  | .done b => fin b t

/-- A sequence that stands inside another is itself run as phases of the command; its value picks what follows. -/
theorem Runs.inner_value {π α ρ β : Type} {i : Instr} {wrap : ρ → Phase} {sub : ρ → State → Sub ρ β}
    {fin : β → State → State} {inside : π → State → Sub π α} (h : Runs i wrap sub fin) (w : π → ρ)
    (follow : α → Progress ρ β) (hw : ∀ x s, sub (w x) s = (inside x s).andThen w follow) :
    Runs i (fun x => wrap (w x)) inside fun a => (follow a).settle i wrap fin := by
  intro s x hf
  rw [h s (w x) hf, hw]
  match inside x s with
  | .ok (.more _) _ => rfl
  | .ok (.done a) t =>
    show (Sub.ok (follow a) t).run i wrap fin = .next ((follow a).settle i wrap fin t)
    cases follow a <;> rfl
  | .refuse _ => rfl
  | .fault _ => rfl

/-! ### The rows of a write inside a command (R202) -/

section
variable {i : Instr} {wrap : CharPhase → Phase} {c : Byte} {fin : PutResult → State → State} {s : State}

theorem Runs.char_begins (h : Runs i wrap (charStep c) fin) (hi : s.serInited = true) :
    exec i (s.goto i (wrap .v0)) = .next (s.goto i (wrap (if c = 0x0A then .v1 else .v2))) := by
  rw [h.phase, charStep_v0 (s := s.goto _ _) c hi]; rfl

theorem Runs.char_queues_return (h : Runs i wrap (charStep c) fin) (hc : s.outBuf.count < s.params.outCap) :
    exec i (s.goto i (wrap .v1)) = .next ((s.enqueued carriageReturn s.gie).goto i (wrap .v2)) := by
  rw [h.phase, charStep_v1_of_room (s := s.goto _ _) c hc]; rfl

theorem Runs.char_queues (h : Runs i wrap (charStep c) fin) (hc : s.outBuf.count < s.params.outCap) :
    exec i (s.goto i (wrap .v2)) = .next (fin .ok ((s.enqueued c s.gie).goto i (wrap .v2))) := by
  rw [h.phase, charStep_v2_of_room (s := s.goto _ _) c hc]; rfl

theorem Runs.char_drops_return (h : Runs i wrap (charStep c) fin) (hc : s.params.outCap ≤ s.outBuf.count)
    (hg : s.gie = false) : exec i (s.goto i (wrap .v1)) = .next (s.goto i (wrap .v2)) := by
  rw [h.phase, charStep_v1_of_full (s := s.goto _ _) c hc hg]; rfl

theorem Runs.char_drops (h : Runs i wrap (charStep c) fin) (hc : s.params.outCap ≤ s.outBuf.count)
    (hg : s.gie = false) : exec i (s.goto i (wrap .v2)) = .next (fin .dropped (s.goto i (wrap .v2))) := by
  rw [h.phase, charStep_v2_of_full (s := s.goto _ _) c hc hg]; rfl

theorem Runs.char_waits (h : Runs i wrap (charStep c) fin) {q : CharPhase} (hq : q.awaitsRoom = true)
    (hc : s.params.outCap ≤ s.outBuf.count) (hg : s.gie = true) :
    exec i (s.goto i (wrap q)) = .next (s.goto i (wrap q)) := by
  rw [h.phase, charStep_waits c q (s.goto _ _) hq hc hg]; rfl

/-- The rows of a write before its own byte, and its waits, whatever the value then does. -/
theorem Runs.char_rows (h : Runs i wrap (charStep c) fin) (s : State) :
    (s.serInited = true →
      exec i (s.goto i (wrap .v0)) = .next (s.goto i (wrap (if c = 0x0A then .v1 else .v2)))) ∧
    (s.outBuf.count < s.params.outCap →
      exec i (s.goto i (wrap .v1)) = .next ((s.enqueued carriageReturn s.gie).goto i (wrap .v2))) ∧
    (s.params.outCap ≤ s.outBuf.count → s.gie = false →
      exec i (s.goto i (wrap .v1)) = .next (s.goto i (wrap .v2))) ∧
    (s.params.outCap ≤ s.outBuf.count → s.gie = true →
      exec i (s.goto i (wrap .v1)) = .next (s.goto i (wrap .v1)) ∧
      exec i (s.goto i (wrap .v2)) = .next (s.goto i (wrap .v2))) :=
  ⟨h.char_begins, h.char_queues_return, h.char_drops_return,
    fun hc hg => ⟨h.char_waits (q := .v1) rfl hc hg, h.char_waits (q := .v2) rfl hc hg⟩⟩

end

/-! ### The host line (R251) -/

theorem facNotify_performs (tag data : Byte) :
    Performs (.facNotify tag data) .line .h0 (lineStep tag data) fun d t => t.respond (writeStatus d) 0x00 where
  starts s hf := by rw [exec, execFacNotify, State.foreground_idle _ _ _ s hf]
  runs s q hf := by rw [exec, execFacNotify, State.foreground_run _ _ _ _ s hf]

/-- Part J2 of `FAC_UPDATE` (R252). -/
theorem facUpdate_runs_line (tag reg data : Byte) :
    Runs (.facUpdate tag reg data) .line (lineStep tag data) fun d t => t.respond (writeStatus d) 0x00 := by
  intro s q hf
  rw [exec, execFacUpdate, State.foreground_run _ _ _ _ s hf]

theorem lineStep_h0 {tag data : Byte} {s : State} (h : s.serInited = true) :
    lineStep tag data .h0 s = .ok (.more (.h1 .v0 false)) s :=
  if_pos h

section
variable {i : Instr} {tag data : Byte} {fin : Bool → State → State} {s : State}

theorem Performs.line_starts (h : Performs i .line .h0 (lineStep tag data) fin) (hf : s.fg = .idle)
    (hi : s.serInited = true) : exec i s = .next (s.goto i (.line (.h1 .v0 false))) := by
  rw [h.starts s hf, lineStep_h0 hi]; rfl

theorem Runs.line_begins (h : Runs i .line (lineStep tag data) fin) (hi : s.serInited = true) :
    exec i (s.goto i (.line .h0)) = .next (s.goto i (.line (.h1 .v0 false))) := by
  rw [h.phase, lineStep_h0 (s := s.goto _ _) hi]; rfl

theorem Runs.line_writes_tag (h : Runs i .line (lineStep tag data) fin) (d : Bool) :
    Runs i (fun q => .line (.h1 q d)) (charStep tag)
      fun r t => t.goto i (.line (.h2 .v0 (d || r == .dropped))) :=
  h.inner_value (LinePhase.h1 · d) _ fun _ _ => rfl

theorem Runs.line_writes_data (h : Runs i .line (lineStep tag data) fin) (d : Bool) :
    Runs i (fun q => .line (.h2 q d)) (charStep data)
      fun r t => t.goto i (.line (.h3 .v0 (d || r == .dropped))) :=
  h.inner_value (LinePhase.h2 · d) _ fun _ _ => rfl

theorem Runs.line_writes_end (h : Runs i .line (lineStep tag data) fin) (d : Bool) :
    Runs i (fun q => .line (.h3 q d)) (charStep lineFeed) fun r t => fin (d || r == .dropped) t :=
  h.inner_value (LinePhase.h3 · d) _ fun _ _ => rfl

end

/-! ### The preconditions of `FAC_UPDATE` (R252) -/

section
variable {s : State} {tag reg data : Byte}

theorem facUpdate_starts (hf : s.fg = .idle) (hi : s.serInited = true) (hs : s.sel = .none) :
    exec (.facUpdate tag reg data) s = .next (s.goto (.facUpdate tag reg data) (.pd .p0)) := by
  rw [exec, execFacUpdate, State.foreground_idle _ _ _ s hf]
  exact (if_neg (by simp [hi])).trans (if_pos hs)

theorem facUpdate_refused_before_init (hf : s.fg = .idle) (hi : s.serInited = false) :
    exec (.facUpdate tag reg data) s = .refused .notInitialized := by
  rw [exec, execFacUpdate, State.foreground_idle _ _ _ s hf]
  exact if_pos hi

theorem facUpdate_refused_while_selected (hf : s.fg = .idle) (hi : s.serInited = true) (hs : s.sel ≠ .none) :
    exec (.facUpdate tag reg data) s = .refused .busNotFree := by
  rw [exec, execFacUpdate, State.foreground_idle _ _ _ s hf]
  exact (if_neg (by simp [hi])).trans (if_neg hs)

end

/-! ### The statements -/

/-- Settles O45: both commands run the line as three writes, each with the rows of `SER_WRITE`; what became of a write is
remembered, and picks the status at the end. -/
theorem notifyPhases : Obligations.NotifyPhases := by
  intro s tag reg data d i hi
  have h : Runs i .line (lineStep tag data) fun d t => t.respond (writeStatus d) 0x00 := by
    rcases hi with rfl | rfl
    · exact (facNotify_performs tag data).runs
    · exact facUpdate_runs_line tag reg data
  refine ⟨fun hinit => ⟨?_, h.line_begins hinit⟩, ?_, fun hc => ?_, fun hc hg => ?_⟩
  · rintro rfl
    exact (facNotify_performs tag data).line_starts (s := { s with fg := .idle }) rfl hinit
  · simp only [List.forall_mem_cons]
    exact ⟨(h.line_writes_tag d).char_rows s, (h.line_writes_data d).char_rows s, (h.line_writes_end d).char_rows s,
      by simp⟩
  · have htag := (h.line_writes_tag d).char_queues hc
    have hdata := (h.line_writes_data d).char_queues hc
    have hend := (h.line_writes_end d).char_queues hc
    cases d <;> exact ⟨htag, hdata, hend⟩
  · have htag := (h.line_writes_tag d).char_drops hc hg
    have hdata := (h.line_writes_data d).char_drops hc hg
    have hend := (h.line_writes_end d).char_drops hc hg
    cases d <;> exact ⟨htag, hdata, hend⟩

/-- Settles O47: J0 tests `SER_INITED`, then `SEL`. -/
theorem facUpdateTestsFirst : Obligations.FacUpdateTestsFirst := by
  intro s tag reg data
  refine ⟨fun hi hs => facUpdate_starts rfl hi hs, fun hi => ⟨_, facUpdate_refused_before_init rfl hi⟩, fun hs => ?_⟩
  by_cases hi : s.serInited = true
  · exact ⟨_, facUpdate_refused_while_selected rfl hi hs⟩
  · exact ⟨_, facUpdate_refused_before_init rfl (Bool.eq_false_iff.2 hi)⟩

end Sys2Proof.Machine

/-! PROOF. The host line with interrupts off and no other agent between (R205, R251): each write queues as much of its
translation as fits, so the three together queue as much of the line as fits. -/

namespace Sys2Proof.Machine

/-! ### Steps of the foreground in a row -/

/-- A phase of the command under way is the next step, and the rest of the run follows. -/
theorem run_phase {s t u : State} {i : Instr} {ph : Phase} {n : Nat} {es : List Event}
    (hx : exec i ((s.withAgenda es).goto i ph) = .next t) (hr : Host.Core.run Sys2Proof.core n t = .next u) :
    Host.Core.run Sys2Proof.core (n + 1) ((s.withAgenda (.fg :: es)).goto i ph) = .next u := by
  obtain ⟨hrun, -⟩ := stepRunsCommandUnderWay ((s.withAgenda (.fg :: es)).goto i ph) es rfl
  rw [Nat.add_comm]
  exact run_trans (run_one ((hrun i ph rfl).trans hx)) hr

theorem State.goto_goto (s : State) (i j : Instr) (p q : Phase) : (s.goto i p).goto j q = s.goto j q := rfl

theorem State.goto_respond (s : State) (i : Instr) (p : Phase) (st : Status) (d : Byte) :
    (s.goto i p).respond st d = s.respond st d := rfl

/-! ### Queueing as much as fits -/

/-- As much of `bs` as fits, and then as much of `cs` as fits, is as much of both as fits. -/
theorem State.Queues.append_take {s t u : State} {bs cs : List Byte}
    (h : s.Queues (bs.take (s.params.outCap - s.outBuf.count)) t)
    (h' : t.Queues (cs.take (t.params.outCap - t.outBuf.count)) u) :
    s.Queues ((bs ++ cs).take (s.params.outCap - s.outBuf.count)) u := by
  have hleft : s.params.outCap - (s.outBuf.count + (bs.take (s.params.outCap - s.outBuf.count)).length) =
      s.params.outCap - s.outBuf.count - bs.length := by
    rw [List.length_take]; omega
  have hboth := h.trans h'
  rwa [h.params, h.count, hleft, ← List.take_append] at hboth

theorem State.Queues.ready {s t : State} {bs : List Byte} (h : s.Queues bs t) (hs : s.ReadyToWrite) :
    t.ReadyToWrite where
  fg := by rw [h.frame]; exact hs.fg
  inited := by rw [h.frame]; exact hs.inited
  gie := h.gie.trans hs.gie
  outBuf := by rw [h.params]; exact h.ok

/-- The value of a write with interrupts off: its last byte is queued iff its whole translation fits. -/
def State.writeResult (s : State) (bs : List Byte) : PutResult :=
  if bs.length ≤ s.params.outCap - s.outBuf.count then .ok else .dropped

theorem State.writeResult_beq_dropped (s : State) (bs : List Byte) :
    (s.writeResult bs == .dropped) = decide (s.params.outCap - s.outBuf.count < bs.length) := by
  unfold State.writeResult
  split
  · next h => exact (decide_eq_false (Nat.not_lt.2 h)).symm
  · next h => exact (decide_eq_true (Nat.not_le.1 h)).symm

/-- After as much of `bs` as fits, `cs` is cut iff both together would have been, or `bs` was cut. -/
theorem State.Queues.dropped_append {s t : State} {bs : List Byte} (cs : List Byte)
    (h : s.Queues (bs.take (s.params.outCap - s.outBuf.count)) t) :
    (decide (s.params.outCap - s.outBuf.count < bs.length) || t.writeResult cs == .dropped) =
      decide (s.params.outCap - s.outBuf.count < (bs ++ cs).length) := by
  have hcount := h.count
  rw [List.length_take] at hcount
  rw [State.writeResult_beq_dropped, h.params, List.length_append, ← Bool.decide_or]
  exact decide_eq_decide.2 (by omega)

/-! ### One write -/

/-- An enqueue neither reads nor writes the pending events. -/
theorem State.putOrDrop_withAgenda (s : State) (b : Byte) (es : List Event) :
    (s.withAgenda es).putOrDrop b = (s.putOrDrop b).withAgenda es := by
  simp only [State.putOrDrop_eq, apply_ite (State.withAgenda · es)]
  rfl

section
variable {i : Instr} {wrap : CharPhase → Phase} {c : Byte} {fin : PutResult → State → State} {s : State}

theorem Runs.char_puts_return (h : Runs i wrap (charStep c) fin) (hg : s.gie = false) :
    exec i (s.goto i (wrap .v1)) = .next ((s.putOrDrop carriageReturn).goto i (wrap .v2)) := by
  rw [State.putOrDrop_eq]
  split
  · next hc => rw [h.char_queues_return hc, hg]
  · next hc => exact h.char_drops_return (Nat.not_lt.1 hc) hg

theorem Runs.char_puts (h : Runs i wrap (charStep c) fin) (hg : s.gie = false) :
    exec i (s.goto i (wrap .v2)) = .next (fin (s.writeResult [c]) ((s.putOrDrop c).goto i (wrap .v2))) := by
  rw [State.putOrDrop_eq, State.writeResult]
  by_cases hc : s.outBuf.count < s.params.outCap
  · rw [h.char_queues hc, hg, if_pos hc, if_pos (by rw [List.length_singleton]; omega)]
  · rw [h.char_drops (Nat.not_lt.1 hc) hg, if_neg hc, if_neg (by rw [List.length_singleton]; omega)]

/-- A write with interrupts off does what the `PutChar` of a handler does, a phase for each byte. -/
theorem Runs.char_run (h : Runs i wrap (charStep c) fin) (hs : s.ReadyToWrite) {n : Nat} {es : List Event} {u : State}
    (hr : Host.Core.run Sys2Proof.core n
      (fin (s.writeResult (translated c)) (((s.echoChar c).withAgenda es).goto i (wrap .v2))) = .next u) :
    Host.Core.run Sys2Proof.core (n + (translated c).length + 1)
      ((s.withAgenda (List.replicate ((translated c).length + 1) .fg ++ es)).goto i (wrap .v0)) = .next u := by
  unfold State.echoChar at hr
  refine run_phase (h.char_begins hs.inited) ?_
  by_cases hc : needsCarriageReturn c = true
  · have hq := State.putOrDrop_queues carriageReturn hs.outBuf hs.gie
    have hlast : (s.putOrDrop carriageReturn).writeResult [c] = s.writeResult [carriageReturn, c] := by
      have hcount := hq.count
      rw [List.length_take, List.length_singleton] at hcount
      simp only [State.writeResult, hq.params, List.length_cons, List.length_nil]
      exact if_congr (by omega) rfl rfl
    simp only [translated, if_pos hc] at hr ⊢
    rw [← hlast, ← State.putOrDrop_withAgenda] at hr
    rw [if_pos ((needsCarriageReturn_iff c).1 hc)]
    refine run_phase (h.char_puts_return (s := s.withAgenda (.fg :: es)) hs.gie) ?_
    rw [State.putOrDrop_withAgenda]
    exact run_phase (h.char_puts (s := (s.putOrDrop carriageReturn).withAgenda es) (hq.gie.trans hs.gie)) hr
  · simp only [translated, if_neg hc] at hr ⊢
    rw [if_neg (mt (needsCarriageReturn_iff c).2 hc)]
    rw [← State.putOrDrop_withAgenda] at hr
    exact run_phase (h.char_puts (s := s.withAgenda es) hs.gie) hr

/-- A write with interrupts off that the command goes on from. -/
theorem Runs.char_run_goto {after : PutResult → Phase} (h : Runs i wrap (charStep c) fun r t => t.goto i (after r))
    (hs : s.ReadyToWrite) {n : Nat} {es : List Event} {u : State}
    (hr : Host.Core.run Sys2Proof.core n
      (((s.echoChar c).withAgenda es).goto i (after (s.writeResult (translated c)))) = .next u) :
    Host.Core.run Sys2Proof.core (n + (translated c).length + 1)
      ((s.withAgenda (List.replicate ((translated c).length + 1) .fg ++ es)).goto i (wrap .v0)) = .next u :=
  h.char_run hs (by simpa only [State.goto_goto] using hr)

end

/-! ### The whole line -/

/-- The bytes of the host line: tag, data and line-feed, each through the newline translation (R205, R251). -/
def lineBytes (tag data : Byte) : List Byte :=
  translated tag ++ translated data ++ translated lineFeed

/-- The line with interrupts off, from its first write to the response: as much of it as fits is queued, and the
response says whether it was cut. -/
theorem Runs.line_run {i : Instr} {tag data : Byte} {s : State}
    (h : Runs i .line (lineStep tag data) fun d t => t.respond (writeStatus d) 0x00) (hs : s.ReadyToWrite) :
    ∃ t, s.Queues ((lineBytes tag data).take (s.params.outCap - s.outBuf.count)) t ∧
      Host.Core.run Sys2Proof.core ((lineBytes tag data).length + 3)
        ((s.withAgenda (List.replicate ((lineBytes tag data).length + 3) .fg)).goto i (.line (.h1 .v0 false))) =
      .next ((t.withAgenda []).respond
        (writeStatus (decide (s.params.outCap - s.outBuf.count < (lineBytes tag data).length))) 0x00) := by
  have htag := State.echoChar_queues tag hs.outBuf hs.gie
  have hs₁ := htag.ready hs
  have hdata := State.echoChar_queues data hs₁.outBuf hs₁.gie
  have hs₂ := hdata.ready hs₁
  have hboth := htag.append_take hdata
  have hall := hboth.append_take (State.echoChar_queues lineFeed hs₂.outBuf hs₂.gie)
  refine ⟨_, hall, ?_⟩
  have hrun := (h.line_writes_tag false).char_run_goto hs <| (h.line_writes_data _).char_run_goto hs₁ <|
    (h.line_writes_end _).char_run hs₂ (n := 0) (es := []) rfl
  rw [Bool.false_or, State.writeResult_beq_dropped, htag.dropped_append, hboth.dropped_append] at hrun
  have hlen : (lineBytes tag data).length + 3 =
      (translated tag).length + 1 + ((translated data).length + 1 + ((translated lineFeed).length + 1)) := by
    simp only [lineBytes, List.length_append]; omega
  have hsteps : 0 + (translated lineFeed).length + 1 + (translated data).length + 1 + (translated tag).length + 1 =
      (lineBytes tag data).length + 3 := by omega
  rw [State.goto_respond, List.append_nil, ← List.replicate_add, ← List.replicate_add, hsteps, ← hlen] at hrun
  exact hrun

/-- Settles O46: the word is accepted, and the line's phases follow without a wait. -/
theorem notifyQueuesWhatFits : Obligations.NotifyQueuesWhatFits := by
  intro s tag data hf hg hi hok bytes free
  have hbytes : bytes = lineBytes tag data := by
    simp only [bytes, lineBytes, translated, needsCarriageReturn_iff]
    rfl
  have h := facNotify_performs tag data
  have hs : s.ReadyToWrite := ⟨hf, hi, hg, hok⟩
  obtain ⟨t, hq, hrun⟩ := h.runs.line_run hs
  have hword : step (s.withAgenda (.command (encode (.facNotify tag data)) :: List.replicate (bytes.length + 3) .fg)) =
      .next ((s.withAgenda (List.replicate (bytes.length + 3) .fg)).goto (.facNotify tag data)
        (.line (.h1 .v0 false))) :=
    (stepRunsPresentedCommand (s.withAgenda (_ :: _)) _ _ _ hf rfl (decodeOfEncodeIsIdentity (.facNotify tag data))).trans
      (h.line_starts (s := s.withAgenda _) hf hi)
  rw [← hbytes] at hq hrun
  have hwhole := run_trans (run_one hword) hrun
  rw [Nat.add_comm] at hwhole
  refine ⟨_, hwhole, rfl, hq.gie.trans hg, ?_, hq.pending⟩
  by_cases hfits : bytes.length ≤ free
  · rw [if_pos hfits, decide_eq_false (Nat.not_lt.2 hfits)]; rfl
  · rw [if_neg hfits, decide_eq_true (Nat.not_le.1 hfits)]; rfl

end Sys2Proof.Machine

/-! PROOF. `FAC_UPDATE` run to its response beside the agents off the bus (R11, R250 to R252): those agents add nothing to
what is on its way to the host and never take room from it, so the block keeps step with the run of the foreground and
the shifter on their own. -/

namespace Sys2Proof.Machine

/-! ### What the agents off the bus do with the outbound path (R212 to R215) -/

/-- `t` has on its way to the host what `s` has, with no less room in the outbound buffer. -/
structure State.Forwards (s t : State) : Prop where
  params : t.params = s.params
  ok : t.outBuf.Ok s.params.outCap
  count : t.outBuf.count ≤ s.outBuf.count
  out : t.outStream = s.outStream

theorem State.Forwards.trans {s t u : State} (h : s.Forwards t) (h' : t.Forwards u) : s.Forwards u where
  params := h'.params.trans h.params
  ok := h.params ▸ h'.ok
  count := h'.count.trans h.count
  out := h'.out.trans h.out

/-- A step that leaves the outbound buffer alone. -/
theorem State.Forwards.of_sameStreams {s t : State} (hok : s.outBuf.Ok s.params.outCap) (h : s.SameStreams t)
    (hp : t.params = s.params) (hb : t.outBuf = s.outBuf) : s.Forwards t :=
  ⟨hp, hb ▸ hok, hb ▸ le_rfl, h.out⟩

section
variable {s : State} (hok : s.outBuf.Ok s.params.outCap)
include hok

theorem drainHandler_forwards : s.Forwards (drainHandler s) := by
  have hsame := drainHandler_sameStreams hok
  rcases drainHandler_cases s with ⟨-, e⟩ | ⟨-, -, e⟩ | ⟨-, -, e⟩ <;> rw [e] at hsame ⊢
  · exact .of_sameStreams hok hsame rfl rfl
  · exact .of_sameStreams hok hsame rfl rfl
  · exact ⟨rfl, Ring.ok_dequeue _ _ hok, Nat.sub_le _ _, hsame.out⟩

theorem rxHandler_forwards (he : s.echo = false) : s.Forwards (rxHandler s) := by
  cases hx : s.rxEnabled with
  | false => rw [rxHandler_of_masked hx]; exact .of_sameStreams hok {} rfl rfl
  | true => rw [rxHandler_of_no_echo hx he, capture_eq]; exact ⟨rfl, hok, le_rfl, rfl⟩

theorem txuStep_forwards : s.Forwards (txuStep s) := by
  refine .of_sameStreams hok (txuStep_sameStreams s) ?_ ?_ <;> unfold txuStep <;> split <;> rfl

theorem rxuStep_forwards (b : Byte) : s.Forwards (rxuStep b s) := by
  unfold rxuStep
  split
  · split <;> exact .of_sameStreams hok {} rfl rfl
  · exact .of_sameStreams hok {} rfl rfl

theorem nvuStep_forwards {t : State} {worn : Option Byte} (ht : nvuStep worn s = .next t) : s.Forwards t := by
  rcases nvuStep_cases worn s with ⟨-, e⟩ | ⟨-, -, e⟩ | ⟨-, -, e⟩ <;> rw [e] at ht <;> cases ht
  · exact .of_sameStreams hok {} rfl rfl
  · exact .of_sameStreams hok {} rfl rfl

/-- An agent off the bus, but an `H_RX` that echoes, adds nothing to the outbound path. -/
theorem agentStep_forwards {e : Event} {t : State} (he : isOffBus e = true) (hecho : s.echo = false ∨ e ≠ .hRx)
    (ht : agentStep e s = .next t) : s.Forwards t := by
  cases e with
  | hDrain => cases ht; exact drainHandler_forwards hok
  | hRx => cases ht; exact rxHandler_forwards hok (hecho.resolve_right fun hn => hn rfl)
  | txu => cases ht; exact txuStep_forwards hok
  | rxu b => cases ht; exact rxuStep_forwards hok b
  | nvu worn => exact nvuStep_forwards hok ht
  | command w => cases he
  | fg => cases he
  | spiu m => cases he
  | reset => cases he

end

/-- A step of an agent off the bus, but an `H_RX` that echoes, adds nothing to the outbound path. -/
theorem step_offBus_forwards {s t : State} {e : Event} {k : List Event} (hok : s.outBuf.Ok s.params.outCap)
    (he : isOffBus e = true) (hecho : s.echo = false ∨ e ≠ .hRx) (ha : s.agenda = e :: k) (ht : step s = .next t) :
    s.Forwards t := by
  have hnone : commandOf e (s.withAgenda k) = .ok none := by
    cases e with
    | command w => cases he
    | fg => cases he
    | _ => rfl
  have hstep : step s = agentStep e (s.withAgenda k) := step_agent s e k ha hnone
  exact { agentStep_forwards (s := s.withAgenda k) hok he hecho (hstep ▸ ht) with }

/-! ### Room in the outbound buffer -/

/-- The outbound buffer is in range, with room for `n` more bytes. -/
structure State.HasRoom (n : Nat) (s : State) : Prop where
  ok : s.outBuf.Ok s.params.outCap
  room : s.outBuf.count + n ≤ s.params.outCap

/-- The state after these bytes have been enqueued one after the other. -/
def State.enqueuedAll (bs : List Byte) (s : State) : State :=
  bs.foldl (fun t b => t.enqueued b t.gie) s

theorem State.enqueuedAll_append (bs cs : List Byte) (s : State) :
    (s.enqueuedAll bs).enqueuedAll cs = s.enqueuedAll (bs ++ cs) :=
  List.foldl_append.symm

section
variable {s : State} {n : Nat}

theorem State.HasRoom.lt (h : s.HasRoom (n + 1)) : s.outBuf.count < s.params.outCap := by
  have := h.room; omega

theorem State.HasRoom.queues_enqueued (h : s.HasRoom (n + 1)) (b : Byte) : s.Queues [b] (s.enqueued b s.gie) :=
  .enqueued b h.ok h.lt

theorem State.HasRoom.enqueued (h : s.HasRoom (n + 1)) (b : Byte) : (s.enqueued b s.gie).HasRoom n where
  ok := (h.queues_enqueued b).ok
  room := by
    rw [(h.queues_enqueued b).count, (h.queues_enqueued b).params, List.length_singleton, Nat.add_right_comm]
    exact h.room

theorem State.HasRoom.enqueuedAll {bs : List Byte} (h : s.HasRoom (n + bs.length)) : (s.enqueuedAll bs).HasRoom n := by
  induction bs generalizing s with
  | nil => exact h
  | cons b bs ih => exact ih (h.enqueued b)

/-- Bytes with room for all of them are queued in order. -/
theorem State.HasRoom.queues {bs : List Byte} (h : s.HasRoom bs.length) : s.Queues bs (s.enqueuedAll bs) := by
  induction bs generalizing s with
  | nil => exact .nil h.ok
  | cons b bs ih => exact (h.queues_enqueued b).trans (ih (h.enqueued b))

end

/-! ### A state beside the run of the foreground and the shifter on their own -/

/-- `u` is `x`, the state of the run on its own, but for what the agents off the bus have done since, the run's events
being among `es`: the initialized transport has sent on as `Forwards` says, and where none of them stepped nothing but
the pending events differs. -/
structure State.Alongside (es : List Event) (x u : State) : Prop where
  beside : x.Beside (∀ e ∈ es, isOffBus e = false) x.offBus u
  inited : x.serInited = true
  noEcho : x.echo = false ∨ .hRx ∉ es
  forwards : x.Forwards u

section
variable {es : List Event} {x u : State}

theorem State.Alongside.agrees (h : x.Alongside es u) :
    u.fg = x.fg ∧ u.serInited = x.serInited ∧ u.echo = x.echo ∧ u.rsp = x.rsp := by
  obtain ⟨o, rfl, -⟩ := h.beside
  exact ⟨rfl, rfl, rfl, rfl⟩

theorem State.Alongside.withAgenda (h : x.Alongside es u) (k : List Event) : x.Alongside es (u.withAgenda k) where
  beside := by
    obtain ⟨o, rfl, ho, hquiet⟩ := h.beside
    exact ⟨{ o with agenda := k }, rfl, ho, fun q => by rw [hquiet q]⟩
  inited := h.inited
  noEcho := h.noEcho
  forwards := h.forwards.trans (.of_sameStreams (h.forwards.params ▸ h.forwards.ok) {} rfl rfl)

/-- A step of an agent off the bus. -/
theorem State.Alongside.step_offBus {b : Event} {k : List Event} (h : x.Alongside es u) (hm : b ∈ es)
    (hb : isOffBus b = true) (ha : u.agenda = b :: k) :
    ∃ v, step u = .next v ∧ v.agenda = k ∧ x.Alongside es v := by
  obtain ⟨v, hv, hva, hbeside⟩ := h.beside.step_offBus (fun q => q b hm) hb ha
  obtain ⟨-, -, hecho, -⟩ := h.agrees
  have hsilent : u.echo = false ∨ b ≠ .hRx :=
    h.noEcho.imp hecho.trans fun hn hrx => hn (hrx ▸ hm)
  have hforwards := step_offBus_forwards (h.forwards.params ▸ h.forwards.ok) hb hsilent ha hv
  exact ⟨v, hv, hva, hbeside, h.inited, h.noEcho, h.forwards.trans hforwards⟩

theorem State.Alongside.hasRoom (h : x.Alongside es u) {n : Nat} (hx : x.HasRoom n) : u.HasRoom n := by
  obtain ⟨hp, hok, hcount, -⟩ := h.forwards
  exact ⟨hp ▸ hok, hp ▸ (Nat.add_le_add_right hcount n).trans hx.room⟩

/-- A write to the outbound buffer, with room for it in the run on its own. -/
theorem State.Alongside.enqueued (h : x.Alongside es u) (c : Byte) {n : Nat} (hx : x.HasRoom (n + 1)) :
    (x.enqueued c x.gie).Alongside es (u.enqueued c u.gie) where
  beside := by
    obtain ⟨o, rfl, ho, hquiet⟩ := h.beside
    exact ⟨{ o with outBuf := o.outBuf.enqueue x.params.outCap c, drainIe := true }, rfl, ho,
      fun q => by rw [hquiet q]; rfl⟩
  inited := h.inited
  noEcho := h.noEcho
  forwards := by
    obtain ⟨hp, -, hcount, hout⟩ := h.forwards
    have hq := (h.hasRoom hx).queues_enqueued c
    exact ⟨hp, hp ▸ hq.ok, Nat.succ_le_succ hcount, by rw [hq.outStream, (hx.queues_enqueued c).outStream, hout]⟩

/-- What the sequencer holds may be set in both. -/
theorem State.Alongside.setSequencer (h : x.Alongside es u) (f : Fg) (r : BitVec 16) :
    { x with fg := f, rsp := r }.Alongside es { u with fg := f, rsp := r } where
  beside := by
    obtain ⟨o, rfl, ho, hquiet⟩ := h.beside
    exact ⟨o, rfl, ho, hquiet⟩
  inited := h.inited
  noEcho := h.noEcho
  forwards := { h.forwards with }

theorem State.Alongside.goto (h : x.Alongside es u) (i : Instr) (ph : Phase) :
    (x.goto i ph).Alongside es (u.goto i ph) := by
  obtain ⟨-, -, -, hrsp⟩ := h.agrees
  have hset := h.setSequencer (.run i ph) u.rsp
  rwa [show { x with fg := .run i ph, rsp := u.rsp } = x.goto i ph by rw [hrsp]; rfl] at hset

theorem State.Alongside.respond (h : x.Alongside es u) (st : Status) (d : Byte) :
    (x.respond st d).Alongside es (u.respond st d) :=
  h.setSequencer .idle (responseWord st d)

end

/-! ### A run beside the agents off the bus -/

/-- Where `x` is the state of the run on its own, its event `e` leads to `x'`, whatever the agents off the bus have done. -/
def StepsAlongside (es : List Event) (x : State) (e : Event) (x' : State) : Prop :=
  ∀ (u : State) (k : List Event), x.Alongside es u → u.agenda = e :: k →
    ∃ v, step u = .next v ∧ v.agenda = k ∧ x'.Alongside es v

/-- Such steps, one after the other. -/
inductive RunsAlongside (es : List Event) : State → List Event → State → Prop
  | nil (x : State) : RunsAlongside es x [] x
  | cons {x y z : State} {e : Event} {own : List Event} (h : StepsAlongside es x e y)
      (hr : RunsAlongside es y own z) : RunsAlongside es x (e :: own) z

theorem RunsAlongside.append {es own own' : List Event} {x y z : State} (h : RunsAlongside es x own y)
    (h' : RunsAlongside es y own' z) : RunsAlongside es x (own ++ own') z := by
  induction h with
  | nil x => exact h'
  | cons hstep _ ih => exact .cons hstep (ih h')

/-- The block takes the run, whatever the agents off the bus do between its events (R11). -/
theorem RunsAlongside.interleaved {es₀ own es rest : List Event} {x y u : State} (h : RunsAlongside es₀ x own y)
    (hes : Interleaves own isOffBus es) (hsub : es ⊆ es₀) (hu : x.Alongside es₀ u) (ha : u.agenda = es ++ rest) :
    ∃ v, Host.Core.run Sys2Proof.core es.length u = .next v ∧ v.agenda = rest ∧ y.Alongside es₀ v := by
  induction h generalizing es u with
  | nil x => exact hes.run_nil (fun _ b _ hm hb h ha => h.step_offBus (hsub hm) hb ha) u hu ha
  | cons hstep _ ih =>
    obtain ⟨n, es', v, hlen, hsub', hes', hrun, hva, hv⟩ :=
      hes.run_cons (fun _ b _ hm hb h ha => h.step_offBus (hsub hm) hb ha) hstep u hu ha
    obtain ⟨w, hrun', hwa, hw⟩ := ih hes' (fun e he => hsub (hsub' he)) hv hva
    exact ⟨w, hlen ▸ run_trans hrun hrun', hwa, hw⟩

/-- The run from a state on which a command's word is pending, before an interleaving of the run's other events. -/
theorem RunsAlongside.interleaved_word {s y : State} {w : Word} {own es : List Event}
    (h : RunsAlongside (.command w :: es) s (.command w :: own) y) (hes : Interleaves own isOffBus es)
    (hok : s.outBuf.Ok s.params.outCap) (hi : s.serInited = true)
    (hw : s.nvBusy = true → addrValid s.params s.nvAddr = true) (hecho : s.echo = false ∨ .hRx ∉ es)
    (rest : List Event) :
    ∃ v, Host.Core.run Sys2Proof.core (1 + es.length) (s.withAgenda (.command w :: es ++ rest)) = .next v ∧
      v.agenda = rest ∧ y.Alongside (.command w :: es) v := by
  have hword : Interleaves (.command w :: own) isOffBus (.command w :: es) :=
    Interleaves.cons_of_others (bs := []) (by simp) rfl hes
  have hstart : s.Alongside (.command w :: es) (s.withAgenda (.command w :: es ++ rest)) :=
    ⟨⟨{ s.offBus with agenda := .command w :: es ++ rest }, rfl, hw, fun _ => rfl⟩, hi, hecho.imp_right (by simp),
      .of_sameStreams hok {} rfl rfl⟩
  have hrun := h.interleaved hword (fun _ he => he) hstart rfl
  rwa [List.length_cons, Nat.add_comm] at hrun

/-! ### The part on the bus -/

/-- A step of the bus neither reads nor writes what is on its way to the host (R170). -/
theorem BusStep.alongside {s t : State} {e : Event} (h : BusStep s e t) (hr : e ≠ .reset) (es : List Event)
    (o : OffBus) : StepsAlongside es (s.withOffBus o) e (t.withOffBus o) := by
  intro u k hu ha
  obtain ⟨o', rfl, ho, hquiet⟩ := hu.beside
  have hstep := h o' k ha
  have hcarries := step_carries hstep (by rw [State.event_cons (s.withOffBus o') e k ha]; exact hr)
  have hp : t.params = s.params := hcarries.params
  obtain ⟨hi, he, -⟩ := hcarries.config hu.inited
  obtain ⟨-, hok, hcount, hout⟩ := hu.forwards
  refine ⟨_, hstep, rfl, ⟨_, rfl, hp ▸ ho, fun q => by rw [hquiet q]; rfl⟩, hi, hu.noEcho.imp_left he.trans, hp ▸ rfl,
    hp ▸ hok, hcount, ?_⟩
  simp only [State.outStream] at hout ⊢
  rw [show (t.withOffBus o).params = s.params from hp,
    show (t.withOffBus { o' with agenda := k }).params = s.params from hp]
  exact hout

theorem BusRun.alongside {s t : State} {own : List Event} (h : BusRun s own t) (hr : .reset ∉ own) (es : List Event)
    (o : OffBus) : RunsAlongside es (s.withOffBus o) own (t.withOffBus o) := by
  induction h with
  | nil s => exact .nil _
  | cons hstep _ ih =>
    rw [List.mem_cons, not_or] at hr
    exact .cons (hstep.alongside (Ne.symm hr.1) es o) (ih hr.2)

/-! ### The line -/

/-- A step of `FG` runs the phase under way, in the state it finds. -/
theorem StepsAlongside.phase {es : List Event} {x x' : State} {i : Instr} {ph : Phase}
    (hx : ∀ u, (x.goto i ph).Alongside es u →
      ∃ v, exec i (u.goto i ph) = .next v ∧ v.agenda = u.agenda ∧ x'.Alongside es v) :
    StepsAlongside es (x.goto i ph) .fg x' := by
  intro u k hu ha
  obtain ⟨hfg, -⟩ := hu.agrees
  obtain ⟨hrun, -⟩ := stepRunsCommandUnderWay u k ha
  obtain ⟨v, hv, hva, hv'⟩ := hx _ (hu.withAgenda k)
  rw [State.goto_self (u.withAgenda k) i ph hfg] at hv
  exact ⟨v, (hrun i ph hfg).trans hv, hva, hv'⟩

/-- What ends a write keeps a state beside the run on its own. -/
def KeepsAlongside (es : List Event) (f : State → State) : Prop :=
  ∀ x u : State, x.Alongside es u → (f u).agenda = u.agenda ∧ (f x).Alongside es (f u)

section
variable {es : List Event} {i : Instr} {wrap : CharPhase → Phase} {c : Byte} {fin : PutResult → State → State}
  {x : State}

theorem Runs.char_begins_alongside (h : Runs i wrap (charStep c) fin) :
    StepsAlongside es (x.goto i (wrap .v0)) .fg (x.goto i (wrap (if c = 0x0A then .v1 else .v2))) :=
  .phase fun u hu => by
    obtain ⟨-, hi, -⟩ := hu.agrees
    exact ⟨_, h.char_begins (hi.trans hu.inited), rfl, hu.goto _ _⟩

theorem Runs.char_queues_return_alongside (h : Runs i wrap (charStep c) fin) {n : Nat} (hx : x.HasRoom (n + 1)) :
    StepsAlongside es (x.goto i (wrap .v1)) .fg ((x.enqueued carriageReturn x.gie).goto i (wrap .v2)) :=
  .phase fun _ hu => by
    have hx' : (x.goto i (wrap .v1)).HasRoom (n + 1) := { hx with }
    exact ⟨_, h.char_queues_return (hu.hasRoom hx').lt, rfl, (hu.enqueued carriageReturn hx').goto i (wrap .v2)⟩

theorem Runs.char_queues_alongside (h : Runs i wrap (charStep c) fin) (hfin : KeepsAlongside es (fin .ok)) {n : Nat}
    (hx : x.HasRoom (n + 1)) :
    StepsAlongside es (x.goto i (wrap .v2)) .fg (fin .ok ((x.enqueued c x.gie).goto i (wrap .v2))) :=
  .phase fun _ hu => by
    have hx' : (x.goto i (wrap .v2)).HasRoom (n + 1) := { hx with }
    obtain ⟨hagenda, hbeside⟩ := hfin _ _ ((hu.enqueued c hx').goto i (wrap .v2))
    exact ⟨_, h.char_queues (hu.hasRoom hx').lt, hagenda, hbeside⟩

/-- A write whose translation has room in the run on its own. -/
theorem Runs.char_alongside (h : Runs i wrap (charStep c) fin) (hfin : KeepsAlongside es (fin .ok)) {n : Nat}
    (hx : x.HasRoom (n + (translated c).length)) :
    RunsAlongside es (x.goto i (wrap .v0)) (List.replicate ((translated c).length + 1) .fg)
      (fin .ok ((x.enqueuedAll (translated c)).goto i (wrap .v2))) := by
  refine .cons h.char_begins_alongside ?_
  by_cases hc : needsCarriageReturn c = true
  · simp only [translated, if_pos hc] at hx ⊢
    rw [if_pos ((needsCarriageReturn_iff c).1 hc)]
    exact .cons (h.char_queues_return_alongside hx)
      (.cons (h.char_queues_alongside hfin (hx.enqueued carriageReturn)) (.nil _))
  · simp only [translated, if_neg hc] at hx ⊢
    rw [if_neg (mt (needsCarriageReturn_iff c).2 hc)]
    exact .cons (h.char_queues_alongside hfin hx) (.nil _)

end

/-- The line with room for all of it, whatever the agents off the bus do between its phases. -/
theorem Runs.line_alongside {i : Instr} {tag data : Byte} {es : List Event} {x : State}
    (h : Runs i .line (lineStep tag data) fun d t => t.respond (writeStatus d) 0x00)
    (hx : x.HasRoom (lineBytes tag data).length) :
    RunsAlongside es (x.goto i (.line .h0)) (List.replicate ((lineBytes tag data).length + 4) .fg)
      ((x.enqueuedAll (lineBytes tag data)).respond .success 0x00) := by
  have hbegins : StepsAlongside es (x.goto i (.line .h0)) .fg (x.goto i (.line (.h1 .v0 false))) :=
    .phase fun u hu => by
      obtain ⟨-, hi, -⟩ := hu.agrees
      exact ⟨_, h.line_begins (hi.trans hu.inited), rfl, hu.goto _ _⟩
  have hgoto (ph : Phase) : KeepsAlongside es fun t => t.goto i ph := fun _ _ hu => ⟨rfl, hu.goto i ph⟩
  have hrespond : KeepsAlongside es fun t => t.respond .success 0x00 := fun _ _ hu => ⟨rfl, hu.respond .success 0x00⟩
  have hx₀ : x.HasRoom ((translated lineFeed).length + (translated data).length + (translated tag).length) := by
    rwa [lineBytes, List.length_append, List.length_append, Nat.add_comm, Nat.add_comm (translated tag).length,
      ← Nat.add_assoc] at hx
  have hx₁ := hx₀.enqueuedAll
  have hx₂ := hx₁.enqueuedAll
  have htag := (h.line_writes_tag false).char_alongside (hgoto _) hx₀
  have hdata := (h.line_writes_data false).char_alongside (hgoto _) hx₁
  have hend := (h.line_writes_end false).char_alongside hrespond (n := 0) (by rwa [Nat.zero_add])
  have hrun := RunsAlongside.cons hbegins (htag.append (hdata.append hend))
  have hevents : Event.fg :: (List.replicate ((translated tag).length + 1) .fg ++
      (List.replicate ((translated data).length + 1) .fg ++ List.replicate ((translated lineFeed).length + 1) .fg)) =
      List.replicate ((lineBytes tag data).length + 4) .fg := by
    rw [← List.replicate_add, ← List.replicate_add, ← List.replicate_succ, lineBytes, List.length_append,
      List.length_append]
    congr 1; omega
  rw [hevents, State.enqueuedAll_append, State.enqueuedAll_append, ← List.append_assoc] at hrun
  exact hrun

/-! ### The whole command -/

/-- The state after `FAC_UPDATE`'s part on the bus: its ten bus events, and the last byte shifted in. -/
def State.mirrored (reg data m₁ m₂ m₃ m₄ : Byte) (s : State) : State :=
  { s with
    spiData := m₄, spiBusy := false, spiDone := false
    busTrace := s.busTrace ++ [.gap .recover, .sel .pd, .xfer .pd reg m₁, .xfer .pd data m₂, .desel .pd,
      .gap .commit, .sel .pd, .xfer .pd commitMarker m₃, .xfer .pd commitData m₄, .desel .pd] }

theorem State.framed_eq_mirrored (reg data m₁ m₂ m₃ m₄ : Byte) {s : State} (hs : s.sel = .none) :
    ((s.traceBus (.gap .recover)).framed reg data m₁ m₂ m₃ m₄).driveInactive .pd =
      s.mirrored reg data m₁ m₂ m₃ m₄ := by
  simp [State.framed, State.transferred_eq, State.mirrored, State.driveActive, State.driveInactive, State.traceBus,
    selOfPeriph, hs]

/-- The events of `FAC_UPDATE`'s part on the bus after the command's word: its transfers, each awaited in vain so often. -/
def mirrorEvents (m₁ m₂ m₃ m₄ : Byte) (n₁ n₂ n₃ n₄ : Nat) : List Event :=
  List.replicate (3 + n₁) Event.fg ++ Event.spiu m₁ :: List.replicate (2 + n₂) Event.fg ++ Event.spiu m₂ ::
    List.replicate (5 + n₃) Event.fg ++ Event.spiu m₃ :: List.replicate (2 + n₄) Event.fg ++ Event.spiu m₄ ::
    [Event.fg, Event.fg]

section
variable (tag reg data m₁ m₂ m₃ m₄ : Byte) (n₁ n₂ n₃ n₄ : Nat) {s : State} (hf : s.fg = .idle)
  (hi : s.serInited = true) (hs : s.sel = .none)
include hf hi hs

/-- The part on the bus, from the command's word to the first phase of the line. -/
theorem facUpdate_bus_run :
    BusRun s (.command (encode (.facUpdate tag reg data)) :: mirrorEvents m₁ m₂ m₃ m₄ n₁ n₂ n₃ n₄)
      ((s.mirrored reg data m₁ m₂ m₃ m₄).goto (.facUpdate tag reg data) (.line .h0)) := by
  have h := facUpdate_runs_frames tag reg data
  have hstarts : BusStep s (.command (encode (.facUpdate tag reg data))) (s.goto (.facUpdate tag reg data) (.pd .p0)) :=
    .start hf fun o => facUpdate_starts (s := s.withOffBus o) hf hi hs
  have hrecovers : BusStep (s.goto (.facUpdate tag reg data) (.pd .p0)) .fg
      ((s.traceBus (.gap .recover)).goto (.facUpdate tag reg data) (.pd .p1)) :=
    .goto fun o => h.frame_recovers (s := s.withOffBus o) hs
  have hends (s : State) : BusStep (s.goto (.facUpdate tag reg data) (.pd .p9)) .fg
      ((s.driveInactive .pd).goto (.facUpdate tag reg data) (.line .h0)) :=
    .goto fun _ => h.frame_ends
  have hrun := BusRun.cons hstarts <| .cons hrecovers <| (h.frame_run m₁ m₂ m₃ m₄ n₁ n₂ n₃ n₄ _).append <|
    .cons (hends _) <| .nil _
  rw [State.framed_eq_mirrored reg data m₁ m₂ m₃ m₄ hs] at hrun
  simpa [transferEvents, mirrorEvents, List.replicate_add] using hrun

/-- The command from its word to its response, with room for its line. -/
theorem facUpdate_alongside (es : List Event) (hroom : s.HasRoom (lineBytes tag data).length) :
    RunsAlongside es s (.command (encode (.facUpdate tag reg data)) :: (mirrorEvents m₁ m₂ m₃ m₄ n₁ n₂ n₃ n₄ ++
        List.replicate ((lineBytes tag data).length + 4) .fg))
      (((s.mirrored reg data m₁ m₂ m₃ m₄).enqueuedAll (lineBytes tag data)).respond .success 0x00) := by
  have hbus := (facUpdate_bus_run tag reg data m₁ m₂ m₃ m₄ n₁ n₂ n₃ n₄ hf hi hs).alongside
    (by simp [mirrorEvents]) es s.offBus
  exact hbus.append ((facUpdate_runs_line tag reg data).line_alongside
    (x := s.mirrored reg data m₁ m₂ m₃ m₄) ⟨hroom.ok, hroom.room⟩)

end

/-- The bytes of a line without a line-feed in it but the last (R251). -/
theorem lineBytes_of_ne {tag data : Byte} (htag : tag ≠ 0x0A) (hdata : data ≠ 0x0A) :
    lineBytes tag data = [tag, data, 0x0D, 0x0A] := by
  rw [lineBytes, translated_eq, translated_eq, if_neg htag, if_neg hdata]; rfl

/-- Settles O48: the run of the foreground and the shifter on their own, taken by the block beside the agents off the bus. -/
theorem facUpdateMirrorsToHost : Obligations.FacUpdateMirrorsToHost := by
  intro s tag reg data m₁ m₂ m₃ m₄ n₁ n₂ n₃ n₄ es rest hf hs hi hok hroom htag hdata hw hecho hes trace
  have hbytes := lineBytes_of_ne htag hdata
  have hown := facUpdate_alongside tag reg data m₁ m₂ m₃ m₄ n₁ n₂ n₃ n₄ hf hi hs
    (.command (encode (.facUpdate tag reg data)) :: es) (by rw [hbytes]; exact ⟨hok, hroom⟩)
  rw [hbytes] at hown
  have hq : (s.mirrored reg data m₁ m₂ m₃ m₄).Queues [tag, data, 0x0D, 0x0A] _ := State.HasRoom.queues ⟨hok, hroom⟩
  obtain ⟨v, hrun, hva, hv⟩ :=
    hown.interleaved_word (by simpa [mirrorEvents] using hes) hok hi hw hecho rest
  have hstream := hv.forwards.out.trans hq.outStream
  obtain ⟨o, rfl, -, hquiet⟩ := hv.beside
  refine ⟨_, hrun, hva, rfl, rfl, hs, rfl, rfl, rfl, rfl, hstream, fun q => ?_⟩
  obtain rfl : o.agenda = rest := hva
  rw [hquiet (by simpa [isOffBus] using q)]
  refine ⟨?_, hq.pending⟩
  rw [hf]
  rfl

end Sys2Proof.Machine

/-! PROOF. The interrupt control commands (R270, R271). -/

namespace Sys2Proof.Machine

/-! ### The two commands -/

/-- The state after `IRQ_SUPPRESS`: the response carries `GIE` as it was (R270). -/
def State.suppressed (s : State) : State :=
  State.respond .success (byteOfBool s.gie) { s with gie := false }

/-- The state after `IRQ_RESTORE tok` (R271). -/
def State.restored (tok : Bool) (s : State) : State :=
  State.respond .success 0x00 { s with gie := tok }

@[simp] theorem State.suppressed_gie (s : State) : s.suppressed.gie = false := rfl
@[simp] theorem State.restored_gie (tok : Bool) (s : State) : (s.restored tok).gie = tok := rfl
@[simp] theorem State.withAgenda_gie (s : State) (es : List Event) : (s.withAgenda es).gie = s.gie := rfl

section
variable {s : State}

theorem exec_irqSuppress_idle (hf : s.fg = .idle) : exec .irqSuppress s = .next s.suppressed := by
  rw [exec, execIrqSuppress, State.foreground_idle _ _ _ s hf]
  rfl

theorem exec_irqRestore_idle (tok : Bool) (hf : s.fg = .idle) :
    exec (.irqRestore tok) s = .next (s.restored tok) := by
  rw [exec, execIrqRestore, State.foreground_idle _ _ _ s hf]
  rfl

/-- The response word of a token (R270). -/
theorem responseWord_byteOfBool (tok : Bool) :
    responseWord .success (byteOfBool tok) = if tok = true then 0x0001 else 0x0000 := by
  cases tok <;> rfl

theorem State.suppressed_rsp : s.suppressed.rsp = if s.gie = true then 0x0001 else 0x0000 :=
  responseWord_byteOfBool s.gie

theorem State.suppressed_rsp_of_masked (h : s.gie = false) : s.suppressed.rsp = 0x0000 := by
  rw [State.suppressed_rsp, h]
  rfl

/-! ### A command's word presented to the idle block (R57) -/

theorem run_presented {t : State} (i : Instr) (es : List Event) (hf : s.fg = .idle)
    (hx : exec i (s.withAgenda es) = .next t) :
    Host.Core.run Sys2Proof.core 1 (s.withAgenda (.command (encode i) :: es)) = .next t :=
  run_one ((stepRunsPresentedCommand (s.withAgenda (_ :: es)) _ i es hf rfl (decodeOfEncodeIsIdentity i)).trans hx)

theorem run_irqSuppress (es : List Event) (hf : s.fg = .idle) :
    Host.Core.run Sys2Proof.core 1 (s.withAgenda (.command (encode .irqSuppress) :: es)) =
      .next (s.suppressed.withAgenda es) :=
  run_presented .irqSuppress es hf (exec_irqSuppress_idle (s := s.withAgenda es) hf)

theorem run_irqRestore (tok : Bool) (es : List Event) (hf : s.fg = .idle) :
    Host.Core.run Sys2Proof.core 1 (s.withAgenda (.command (encode (.irqRestore tok)) :: es)) =
      .next ((s.restored tok).withAgenda es) :=
  run_presented (.irqRestore tok) es hf (exec_irqRestore_idle (s := s.withAgenda es) tok hf)

end

/-! ### The statements -/

/-- Settles O49: the one phase of `IRQ_SUPPRESS`, with its token read off the response word. -/
theorem irqSuppressReturnsToken : Obligations.IrqSuppressReturnsToken := by
  intro s
  rw [exec_irqSuppress_idle rfl, ← responseWord_byteOfBool]
  rfl

/-- Settles O50: the one phase of `IRQ_RESTORE`. -/
theorem irqRestoreSetsToken : Obligations.IrqRestoreSetsToken :=
  fun _ tok => exec_irqRestore_idle tok rfl

/-- Settles O51: each of the four words runs its command in one step, from the state the one before left. -/
theorem nestedSuppressRestore : Obligations.NestedSuppressRestore := by
  intro s rest hf
  exact ⟨s.suppressed.withAgenda _, s.suppressed.suppressed.withAgenda _,
    (s.suppressed.suppressed.restored false).withAgenda _,
    ((s.suppressed.suppressed.restored false).restored s.gie).withAgenda rest,
    run_irqSuppress _ hf, by simp, State.suppressed_rsp,
    run_irqSuppress _ rfl, by simp, State.suppressed_rsp_of_masked rfl,
    run_irqRestore false _ rfl, by simp,
    run_irqRestore s.gie rest rfl, by simp, rfl⟩

end Sys2Proof.Machine

/-! PROOF. Which steps change `GIE` (R222, R274): an enqueue restores what it saved, a handler what it found, and no other
operation writes it, so beside a reset only the interrupt control commands do. -/

namespace Sys2Proof.Machine

/-! ### One atomic step of each inner phase sequence -/

/-- Where an inner sequence does not stop, `GIE` is as it was in `s`. -/
def Sub.KeepsGie {π α : Type} (s : State) (x : Sub π α) : Prop :=
  ∀ p t, x = .ok p t → t.gie = s.gie

theorem readStep_keepsGie (addr : Addr) (r : ReadPhase) (s : State) : (readStep addr r s).KeepsGie s := by
  intro p t h
  rcases readStep_ok _ _ _ _ _ h with ⟨-, rfl, -⟩ | ⟨-, -, rfl, -⟩ | ⟨b, -, -, -, -, rfl⟩ <;> rfl

theorem writeStep_keepsGie (addr : Addr) (v : Byte) (w : WritePhase) (s : State) :
    (writeStep addr v w s).KeepsGie s := by
  intro p t h
  rcases writeStep_ok _ _ _ _ _ _ h with ⟨-, rfl, -⟩ | ⟨-, -, rfl, -⟩ | ⟨-, -, -, rfl⟩ <;> rfl

theorem updateStep_keepsGie (addr : Addr) (v : Byte) (u : UpdatePhase) (s : State) :
    (updateStep addr v u s).KeepsGie s := by
  intro p t h
  rcases updateStep_ok _ _ _ _ _ _ h with
    ⟨r, q, -, hq, -⟩ | ⟨-, -, rfl, -⟩ | ⟨w, q, -, hq, -⟩ | ⟨r, q, -, hq, -⟩ | ⟨-, -, rfl, -⟩
  · exact readStep_keepsGie _ _ _ _ _ hq
  · rfl
  · exact writeStep_keepsGie _ _ _ _ _ _ hq
  · exact readStep_keepsGie _ _ _ _ _ hq
  · rfl

theorem xferStep_keepsGie (b : Byte) (x : XferPhase) (s : State) : (xferStep b x s).KeepsGie s := by
  intro p t h
  rcases xferStep_ok _ _ _ _ _ h with ⟨-, -, rfl⟩ | ⟨-, -, -, rfl⟩ | ⟨-, -, -, rfl⟩ <;> rfl

theorem frameStep_keepsGie (reg data : Byte) (f : FramePhase) (s : State) : (frameStep reg data f s).KeepsGie s := by
  intro p t h
  rcases frameStep_ok _ _ _ _ _ _ h with ⟨-, -, -, rfl⟩ | ⟨-, -, rfl⟩ | ⟨-, -, rfl⟩ | ⟨-, -, rfl⟩ | ⟨-, -, rfl⟩ |
    ⟨-, -, rfl⟩ | ⟨x, b, wrap, after, q, -, -, hq, -⟩
  on_goal 7 => exact xferStep_keepsGie _ _ _ _ _ hq
  all_goals rfl

theorem potStep_keepsGie (w1 w2 : Byte) (q : PotPhase) (s : State) : (potStep w1 w2 q s).KeepsGie s := by
  intro p t h
  rcases potStep_ok _ _ _ _ _ _ h with ⟨-, -, -, rfl⟩ | ⟨x, r, -, hr, -⟩ | ⟨x, r, -, hr, -⟩ | ⟨-, -, rfl⟩
  · rfl
  · exact xferStep_keepsGie _ _ _ _ _ hr
  · exact xferStep_keepsGie _ _ _ _ _ hr
  · rfl

/-- An enqueue puts `GIE` back as its caller saved it (R201). -/
theorem State.putByte_gie {s t : State} {b : Byte} {r : PutResult} (h : s.putByte b s.gie = some (r, t)) :
    t.gie = s.gie := by
  rcases State.putByte_some _ _ _ _ _ h with ⟨-, -, rfl⟩ | ⟨-, -, -, rfl⟩ <;> rfl

theorem charStep_keepsGie (c : Byte) (q : CharPhase) (s : State) : (charStep c q s).KeepsGie s := by
  intro p t h
  rcases charStep_ok _ _ _ _ _ h with ⟨-, -, rfl, -⟩ | ⟨-, -, -, rfl, -⟩ | ⟨-, -, r, hr⟩ | ⟨r, -, -, hr⟩
  · rfl
  · rfl
  · exact State.putByte_gie hr
  · exact State.putByte_gie hr

theorem lineStep_keepsGie (tag data : Byte) (l : LinePhase) (s : State) : (lineStep tag data l s).KeepsGie s := by
  intro p t h
  rcases lineStep_ok _ _ _ _ _ _ h with ⟨-, -, rfl, -⟩ | ⟨c, d, q, -, hq, -⟩ | ⟨c, d, q, -, hq, -⟩ | ⟨c, d, q, -, hq, -⟩
  · rfl
  all_goals exact charStep_keepsGie _ _ _ _ _ hq

/-! ### The commands -/

/-- Where a phase of a command does not stop, `GIE` is as it was in `s`. -/
def State.PhaseKeepsGie (s : State) (r : Result) : Prop :=
  ∀ t, r = .next t → t.gie = s.gie

theorem State.PhaseKeepsGie.next {s t : State} (h : t.gie = s.gie) : s.PhaseKeepsGie (.next t) := by
  rintro _ ⟨⟩; exact h

theorem State.PhaseKeepsGie.refused {s : State} {r : Refusal} : s.PhaseKeepsGie (.refused r) := by
  rintro t ⟨⟩

theorem State.PhaseKeepsGie.fault {s : State} {f : Fault} : s.PhaseKeepsGie (.fault f) := by
  rintro t ⟨⟩

theorem State.PhaseKeepsGie.ite {s : State} {c : Prop} [Decidable c] {a b : Result} (ha : s.PhaseKeepsGie a)
    (hb : s.PhaseKeepsGie b) : s.PhaseKeepsGie (if c then a else b) := by
  split
  · exact ha
  · exact hb

theorem State.PhaseKeepsGie.foreground {s : State} {i : Instr} {first : Phase} {body : Phase → Result}
    (h : ∀ ph, s.PhaseKeepsGie (body ph)) : s.PhaseKeepsGie (s.foreground i first body) := by
  rcases State.foreground_cases i first body s with ⟨-, e⟩ | ⟨ph, -, e⟩ | ⟨j, ph, -, -, e⟩ <;> rw [e]
  · exact h first
  · exact h ph
  · exact .refused

/-- An inner sequence run as a command's phases; what ends it, a `respond` or the next part, leaves `GIE` too. -/
theorem Sub.KeepsGie.run {π α : Type} {s : State} {x : Sub π α} (h : x.KeepsGie s) {i : Instr} {wrap : π → Phase}
    {fin : α → State → State} (hfin : ∀ a u, (fin a u).gie = u.gie) : s.PhaseKeepsGie (x.run i wrap fin) := by
  intro t ht
  rcases Sub.run_next _ _ _ _ _ ht with ⟨q, u, hq, rfl⟩ | ⟨a, u, hq, rfl⟩
  · exact h (.more q) u hq
  · exact (hfin a u).trans (h (.done a) u hq)

/-- A phase of a command other than the two of interrupt control leaves `GIE` as it was (R274). -/
theorem exec_keepsGie (i : Instr) (s : State) (hs : i ≠ .irqSuppress) (hr : ∀ tok, i ≠ .irqRestore tok) :
    s.PhaseKeepsGie (exec i s) := by
  cases i with
  | irqSuppress => exact absurd rfl hs
  | irqRestore tok => exact absurd rfl (hr tok)
  | nvRead addr =>
    rw [exec, execNvRead]
    refine .foreground fun ph => ?_
    cases ph with
    | nvRead r => exact (readStep_keepsGie addr r s).run fun a u => by cases a <;> rfl
    | _ => exact .fault
  | nvWrite addr v =>
    rw [exec, execNvWrite]
    refine .foreground fun ph => ?_
    cases ph with
    | nvWrite w => exact (writeStep_keepsGie addr v w s).run fun _ _ => rfl
    | _ => exact .fault
  | nvUpdate addr v =>
    rw [exec, execNvUpdate]
    refine .foreground fun ph => ?_
    cases ph with
    | nvUpdate u => exact (updateStep_keepsGie addr v u s).run fun _ _ => rfl
    | _ => exact .fault
  | spiXfer b =>
    rw [exec, execSpiXfer]
    refine .foreground fun ph => ?_
    cases ph with
    | xfer x => exact (xferStep_keepsGie b x s).run fun _ _ => rfl
    | _ => exact .fault
  | csSelect p =>
    rw [exec, execCsSelect]
    refine .foreground fun ph => ?_
    cases ph with
    | s0 => exact .ite (.next rfl) (.ite (.next rfl) .refused)
    | _ => exact .fault
  | csDeselect p =>
    rw [exec, execCsDeselect]
    refine .foreground fun ph => ?_
    cases ph with
    | d0 => refine .next ?_; split <;> rfl
    | _ => exact .fault
  | pdRegwrite reg data | facUpdatePd reg data =>
    simp only [exec, execPdRegwrite, execFacUpdatePd]
    refine .foreground fun ph => ?_
    cases ph with
    | pd f => exact (frameStep_keepsGie reg data f s).run fun _ _ => rfl
    | _ => exact .fault
  | potWrite w1 w2 | facSetWiper w1 w2 =>
    simp only [exec, execPotWrite, execFacSetWiper]
    refine .foreground fun ph => ?_
    cases ph with
    | pot q => exact (potStep_keepsGie w1 w2 q s).run fun _ _ => rfl
    | _ => exact .fault
  | serInit e baud =>
    rw [exec, execSerInit]
    refine .foreground fun ph => ?_
    cases ph with
    | i0 => exact .ite .refused (.next rfl)
    | _ => exact .fault
  | serWrite c =>
    rw [exec, execSerWrite]
    refine .foreground fun ph => ?_
    cases ph with
    | char q => exact (charStep_keepsGie c q s).run fun _ _ => rfl
    | _ => exact .fault
  | serRead =>
    rw [exec, execSerRead]
    refine .foreground fun ph => ?_
    cases ph with
    | rd0 => exact .ite (.next rfl) .refused
    | rd1 => refine .next ?_; split <;> rfl
    | _ => exact .fault
  | serAvail =>
    rw [exec, execSerAvail]
    refine .foreground fun ph => ?_
    cases ph with
    | a0 => exact .ite (.next rfl) .refused
    | _ => exact .fault
  | serOverrun =>
    rw [exec, execSerOverrun]
    refine .foreground fun ph => ?_
    cases ph with
    | o0 => exact .ite (.next rfl) .refused
    | _ => exact .fault
  | facNotify tag data =>
    rw [exec, execFacNotify]
    refine .foreground fun ph => ?_
    cases ph with
    | line l => exact (lineStep_keepsGie tag data l s).run fun _ _ => rfl
    | _ => exact .fault
  | facUpdate tag reg data =>
    rw [exec, execFacUpdate]
    refine .foreground fun ph => ?_
    cases ph with
    | j0 => exact .ite .refused (.ite (.next rfl) .refused)
    | pd f => exact (frameStep_keepsGie reg data f s).run fun _ _ => rfl
    | line l => exact (lineStep_keepsGie tag data l s).run fun _ _ => rfl
    | _ => exact .fault

/-! ### The agents -/

/-- A handler run is entered only with `GIE` set and sets it on return; no engine writes it (R222). -/
theorem agentStep_keepsGie {e : Event} {s t : State} (h : agentStep e s = .next t) (hr : e ≠ .reset) :
    t.gie = s.gie := by
  cases e with
  | command w => cases h; rfl
  | fg => cases h; rfl
  | hDrain =>
    obtain ⟨ob, d, f, x, e⟩ := drainHandler_frame s
    cases h; rw [e]
  | hRx =>
    obtain ⟨ob, ib, d, o, f, -, e⟩ := rxHandler_frame s
    cases h; rw [e]
  | txu => cases h; unfold txuStep; split <;> rfl
  | rxu b =>
    cases h
    unfold rxuStep
    split
    · split <;> rfl
    · rfl
  | spiu m => cases h; rcases spiuStep_cases m s with ⟨-, e⟩ | ⟨-, e⟩ <;> rw [e]; rfl
  | nvu worn =>
    rcases nvuStep_cases worn s with ⟨-, e⟩ | ⟨-, -, e⟩ | ⟨-, -, e⟩ <;> rw [agentStep, e] at h <;> cases h <;> rfl
  | reset => exact absurd rfl hr

/-! ### The step -/

/-- Settles O52: a step that changes `GIE` runs a phase of one of the two commands, or is a reset. -/
theorem onlyIrqCommandsChangeGie : Obligations.OnlyIrqCommandsChangeGie := by
  intro s t h hg
  rw [← s.takeEvent_gie] at hg
  rcases step_next s t h with ⟨i, hc, hx⟩ | ⟨-, ha⟩
  · refine .inr (Classical.byContradiction fun hi => hg (exec_keepsGie i _ ?_ ?_ t hx))
    · rintro rfl; exact hi (.inl hc)
    · rintro tok rfl; exact hi (.inr ⟨tok, hc⟩)
  · exact .inl (Classical.byContradiction fun hr => hg (agentStep_keepsGie ha hr))

end Sys2Proof.Machine

/-! PROOF. Refusals (R286): a word presented while a command is under way, the framing commands while a peripheral is
selected, the serial and notifying commands before initialization. -/

namespace Sys2Proof.Machine

/-! ### The framing commands while a peripheral is selected (R176, R177) -/

section
variable {i : Instr} {a b : Byte} {fin : Unit → State → State} {s : State}

theorem Performs.frame_refused (h : Performs i .pd .p0 (frameStep a b) fin) (hf : s.fg = .idle) (hs : s.sel ≠ .none) :
    exec i s = .refused .busNotFree := by
  rw [h.starts s hf, frameStep, if_neg hs]; rfl

theorem Performs.pot_refused (h : Performs i .pot .q0 (potStep a b) fin) (hf : s.fg = .idle) (hs : s.sel ≠ .none) :
    exec i s = .refused .busNotFree := by
  rw [h.starts s hf, potStep, if_neg hs]; rfl

end

/-! ### The serial and notifying commands before initialization (R202 to R204, R211, R251) -/

section
variable {s : State}

theorem charStep_refuses (c : Byte) (hi : s.serInited = false) : charStep c .v0 s = .refuse .notInitialized :=
  if_neg (by simp [hi])

theorem lineStep_refuses (tag data : Byte) (hi : s.serInited = false) :
    lineStep tag data .h0 s = .refuse .notInitialized :=
  if_neg (by simp [hi])

theorem serWrite_refused (c : Byte) (hf : s.fg = .idle) (hi : s.serInited = false) :
    exec (.serWrite c) s = .refused .notInitialized := by
  rw [(serWrite_performs c).starts s hf, charStep_refuses c hi]; rfl

theorem serRead_refused (hf : s.fg = .idle) (hi : s.serInited = false) :
    exec .serRead s = .refused .notInitialized := by
  rw [exec, execSerRead, State.foreground_idle _ _ _ s hf]
  exact if_neg (by simp [hi])

theorem serAvail_refused (hf : s.fg = .idle) (hi : s.serInited = false) :
    exec .serAvail s = .refused .notInitialized := by
  rw [exec, execSerAvail, State.foreground_idle _ _ _ s hf]
  exact if_neg (by simp [hi])

theorem serOverrun_refused (hf : s.fg = .idle) (hi : s.serInited = false) :
    exec .serOverrun s = .refused .notInitialized := by
  rw [exec, execSerOverrun, State.foreground_idle _ _ _ s hf]
  exact if_neg (by simp [hi])

theorem facNotify_refused (tag data : Byte) (hf : s.fg = .idle) (hi : s.serInited = false) :
    exec (.facNotify tag data) s = .refused .notInitialized := by
  rw [(facNotify_performs tag data).starts s hf, lineStep_refuses tag data hi]; rfl

end

/-! ### The statements -/

/-- Settles O9: the word is not decoded, since `FG` is not `IDLE`. -/
theorem wordWhileBusyIsRefused : Obligations.WordWhileBusyIsRefused := by
  intro s w es i ph ha hf
  have hev : s.event = .command w := s.event_cons _ _ ha
  have htk : s.takeEvent = { s with agenda := es } := s.takeEvent_cons _ _ ha
  simp [step, hev, htk, commandOf, hf]

/-- Settles O25: two commands are the register-write protocol, two the potentiometer frame, and `FAC_UPDATE` tests `SEL`
itself. -/
theorem framingRefusedWhileSelected : Obligations.FramingRefusedWhileSelected := fun _ a b _ hs =>
  ⟨(pdRegwrite_performs a b).frame_refused rfl hs, (potWrite_performs a b).pot_refused rfl hs,
    (facUpdatePd_performs a b).frame_refused rfl hs, (facSetWiper_performs a b).pot_refused rfl hs,
    fun hi => facUpdate_refused_while_selected rfl hi hs⟩

/-- Settles O29, by the first phase of each command. -/
theorem serialRefusedBeforeInit : Obligations.SerialRefusedBeforeInit := fun _ a b _ hi =>
  ⟨serWrite_refused a rfl hi, serRead_refused rfl hi, serAvail_refused rfl hi, serOverrun_refused rfl hi,
    facNotify_refused a b rfl hi, facUpdate_refused_before_init rfl hi⟩

end Sys2Proof.Machine

/-! PROOF. Where a step cannot stop (R280, R287): a first phase goes on or is refused; under the invariant every later phase
of a command, and every agent, answers a next state. -/

namespace Sys2Proof.Machine

/-! ### One atomic step of each inner phase sequence -/

/-- An inner sequence does not stop. -/
def Sub.GoesOn {π α : Type} (x : Sub π α) : Prop :=
  ∃ p t, x = .ok p t

theorem Sub.GoesOn.andThen {π α ρ β : Type} {x : Sub π α} (h : x.GoesOn) (wrap : π → ρ) (follow : α → Progress ρ β) :
    (x.andThen wrap follow).GoesOn := by
  obtain ⟨p, t, rfl⟩ := h
  exact ⟨_, t, rfl⟩

theorem Sub.GoesOn.run {π α : Type} {x : Sub π α} (h : x.GoesOn) (i : Instr) (wrap : π → Phase)
    (fin : α → State → State) : ∃ t, x.run i wrap fin = .next t := by
  obtain ⟨p, t, rfl⟩ := h
  exact ⟨_, rfl⟩

/-- The bound check stands before every access (R141, R82). -/
theorem readStep_goesOn {addr : Addr} {s : State} (r : ReadPhase) (ha : addrValid s.params addr = true) :
    (readStep addr r s).GoesOn := by
  cases r with
  | nr0 => exact ⟨_, _, rfl⟩
  | nr1 =>
    cases hb : s.nvBusy with
    | true => exact ⟨_, _, readStep_nr1_of_busy hb⟩
    | false => exact ⟨_, _, readStep_nr1_of_ready hb ((addrValid_iff _ _).1 ha)⟩

theorem writeStep_goesOn (addr : Addr) (v : Byte) (w : WritePhase) (s : State) : (writeStep addr v w s).GoesOn := by
  cases w with
  | w0 => exact ⟨_, _, rfl⟩
  | w1 =>
    cases hb : s.nvBusy with
    | true => exact ⟨_, _, writeStep_w1_of_busy v hb⟩
    | false => exact ⟨_, _, writeStep_w1_of_ready v hb⟩

theorem updateStep_goesOn {addr : Addr} {s : State} (v : Byte) (u : UpdatePhase)
    (ha : addrValid s.params addr = true) : (updateStep addr v u s).GoesOn := by
  cases u with
  | u0 r => exact (readStep_goesOn r ha).andThen _ _
  | u1 cur => exact ⟨_, _, rfl⟩
  | u2 w => exact (writeStep_goesOn addr v w s).andThen _ _
  | u3 r => exact (readStep_goesOn r ha).andThen _ _
  | u4 rb => exact ⟨_, _, rfl⟩

/-- The frame is refused in P0 only, and not with the bus free (R176). -/
theorem frameStep_goesOn {s : State} (reg data : Byte) (f : FramePhase) (hs : s.sel = f.selection) :
    (frameStep reg data f s).GoesOn := by
  cases f with
  | p0 => exact ⟨_, _, frameStep_p0 hs⟩
  | p2 x => exact Sub.GoesOn.andThen (xferStep_total reg x s) _ _
  | p3 x => exact Sub.GoesOn.andThen (xferStep_total data x s) _ _
  | p7 x => exact Sub.GoesOn.andThen (xferStep_total commitMarker x s) _ _
  | p8 x => exact Sub.GoesOn.andThen (xferStep_total commitData x s) _ _
  | p1 | p4 | p5 | p6 | p9 => exact ⟨_, _, rfl⟩

/-- The frame is refused in Q0 only, and not with the bus free (R177). -/
theorem potStep_goesOn {s : State} (w1 w2 : Byte) (q : PotPhase) (hs : s.sel = q.selection) :
    (potStep w1 w2 q s).GoesOn := by
  cases q with
  | q0 => exact ⟨_, _, potStep_q0 hs⟩
  | q1 x => exact Sub.GoesOn.andThen (xferStep_total w1 x s) _ _
  | q2 x => exact Sub.GoesOn.andThen (xferStep_total w2 x s) _ _
  | q3 => exact ⟨_, _, rfl⟩

/-- Past the test of `SER_INITED` a byte is enqueued, dropped or awaited (R201, R202). -/
theorem charStep_goesOn {s : State} (c : Byte) (q : CharPhase) (hi : s.serInited = true) :
    (charStep c q s).GoesOn := by
  cases q with
  | v0 => exact ⟨_, _, charStep_v0 c hi⟩
  | v1 => simp only [charStep]; cases s.putByte carriageReturn s.gie <;> exact ⟨_, _, rfl⟩
  | v2 => simp only [charStep]; cases s.putByte c s.gie <;> exact ⟨_, _, rfl⟩

theorem lineStep_goesOn {s : State} (tag data : Byte) (l : LinePhase) (hi : s.serInited = true) :
    (lineStep tag data l s).GoesOn := by
  cases l with
  | h0 => exact ⟨_, _, lineStep_h0 hi⟩
  | h1 c d => exact (charStep_goesOn tag c hi).andThen _ _
  | h2 c d => exact (charStep_goesOn data c hi).andThen _ _
  | h3 c d => exact (charStep_goesOn lineFeed c hi).andThen _ _

/-! ### The commands -/

section
variable {s : State}

/-- A command under way goes on: what its first phase tested still holds (R287). -/
theorem exec_underWay_goesOn {i : Instr} {ph : Phase} (hf : s.fg = .run i ph) (hu : s.underWay i ph) :
    ∃ t, exec i s = .next t := by
  cases i with
  | nvRead addr =>
    cases ph with
    | nvRead r =>
      have ha : addrValid s.params addr = true := by cases r with
        | nr0 => cases hu
        | nr1 => exact hu
      rw [exec_nvRead_run hf]
      exact (readStep_goesOn r ha).run _ _ _
    | _ => cases hu
  | nvWrite addr v =>
    cases ph with
    | nvWrite w => rw [exec_nvWrite_run hf]; exact (writeStep_goesOn addr v w s).run _ _ _
    | _ => cases hu
  | nvUpdate addr v =>
    cases ph with
    | nvUpdate u => rw [exec_nvUpdate_run hf]; exact (updateStep_goesOn v u hu).run _ _ _
    | _ => cases hu
  | spiXfer b =>
    cases ph with
    | xfer x => rw [(spiXfer_performs b).runs s x hf]; exact Sub.GoesOn.run (xferStep_total b x s) _ _ _
    | _ => cases hu
  | pdRegwrite reg data =>
    cases ph with
    | pd f => rw [(pdRegwrite_performs reg data).runs s f hf]; exact (frameStep_goesOn reg data f hu).run _ _ _
    | _ => cases hu
  | potWrite w1 w2 =>
    cases ph with
    | pot q => rw [(potWrite_performs w1 w2).runs s q hf]; exact (potStep_goesOn w1 w2 q hu).run _ _ _
    | _ => cases hu
  | serWrite c =>
    cases ph with
    | char q => rw [(serWrite_performs c).runs s q hf]; exact (charStep_goesOn c q hu).run _ _ _
    | _ => cases hu
  | serRead =>
    obtain rfl := State.underWay_serRead hu
    rw [exec, execSerRead, State.foreground_run _ _ _ _ s hf]
    exact ⟨_, rfl⟩
  | facUpdatePd reg data =>
    cases ph with
    | pd f => rw [(facUpdatePd_performs reg data).runs s f hf]; exact (frameStep_goesOn reg data f hu).run _ _ _
    | _ => cases hu
  | facNotify tag data =>
    cases ph with
    | line l => rw [(facNotify_performs tag data).runs s l hf]; exact (lineStep_goesOn tag data l hu).run _ _ _
    | _ => cases hu
  | facUpdate tag reg data =>
    cases ph with
    | pd f =>
      obtain ⟨-, hsel⟩ : s.serInited = true ∧ s.sel = f.selection := hu
      rw [facUpdate_runs_frames tag reg data s f hf]
      exact (frameStep_goesOn reg data f hsel).run _ _ _
    | line l => rw [facUpdate_runs_line tag reg data s l hf]; exact (lineStep_goesOn tag data l hu).run _ _ _
    | _ => cases hu
  | facSetWiper w1 w2 =>
    cases ph with
    | pot q => rw [(facSetWiper_performs w1 w2).runs s q hf]; exact (potStep_goesOn w1 w2 q hu).run _ _ _
    | _ => cases hu
  | csSelect | csDeselect | serInit | serAvail | serOverrun | irqSuppress | irqRestore => cases ph <;> cases hu

/-- The first phase of a command, whatever the state, goes on or is refused (R13, R286). -/
theorem exec_idle_answers (i : Instr) (hf : s.fg = .idle) :
    (∃ t, exec i s = .next t) ∨ ∃ r, exec i s = .refused r := by
  have haddr := fun addr : Addr => Nat.lt_or_ge s.params.maxAddress.toNat addr.toNat
  have hsel := Decidable.em (s.sel = .none)
  have hinit := Bool.eq_false_or_eq_true s.serInited
  cases i with
  | nvRead addr =>
    rcases haddr addr with ha | ha
    · exact .inl ⟨_, nvRead_rejects hf ha⟩
    · exact .inl ⟨_, nvRead_starts hf ha⟩
  | nvWrite addr v =>
    rcases haddr addr with ha | ha
    · exact .inl ⟨_, nvWrite_rejects hf ha⟩
    · exact .inl ⟨_, nvWrite_starts hf ha⟩
  | nvUpdate addr v =>
    rcases haddr addr with ha | ha
    · exact .inl ⟨_, nvUpdate_rejects hf ha⟩
    · exact .inl ⟨_, nvUpdate_starts hf ha⟩
  | spiXfer b => exact .inl ⟨_, (spiXfer_performs b).starts s hf⟩
  | csSelect p =>
    rcases hsel with hs | hn
    · exact .inl ⟨_, csSelect_selects hf hs⟩
    · by_cases hs : s.sel = selOfPeriph p
      · exact .inl ⟨_, csSelect_keeps hf hs⟩
      · exact .inr ⟨_, csSelect_refused hf hn hs⟩
  | csDeselect p =>
    by_cases hs : s.sel = selOfPeriph p
    · exact .inl ⟨_, csDeselect_deselects hf hs⟩
    · exact .inl ⟨_, csDeselect_passes hf hs⟩
  | pdRegwrite reg data =>
    rcases hsel with hs | hn
    · exact .inl ⟨_, (pdRegwrite_performs reg data).frame_starts hf hs⟩
    · exact .inr ⟨_, (pdRegwrite_performs reg data).frame_refused hf hn⟩
  | potWrite w1 w2 =>
    rcases hsel with hs | hn
    · exact .inl ⟨_, (potWrite_performs w1 w2).pot_starts hf hs⟩
    · exact .inr ⟨_, (potWrite_performs w1 w2).pot_refused hf hn⟩
  | serInit e baud =>
    rcases hinit with hi | hi
    · exact .inr ⟨_, serInit_refused hf hi⟩
    · exact .inl ⟨_, serInit_configures hf hi⟩
  | serWrite c =>
    rcases hinit with hi | hi
    · exact .inl ⟨_, serWrite_starts c hf hi⟩
    · exact .inr ⟨_, serWrite_refused c hf hi⟩
  | serRead =>
    rcases hinit with hi | hi
    · exact .inl ⟨_, serRead_starts hf hi⟩
    · exact .inr ⟨_, serRead_refused hf hi⟩
  | serAvail =>
    rcases hinit with hi | hi
    · exact .inl ⟨_, serAvail_responds hf hi⟩
    · exact .inr ⟨_, serAvail_refused hf hi⟩
  | serOverrun =>
    rcases hinit with hi | hi
    · exact .inl ⟨_, serOverrun_responds hf hi⟩
    · exact .inr ⟨_, serOverrun_refused hf hi⟩
  | facUpdatePd reg data =>
    rcases hsel with hs | hn
    · exact .inl ⟨_, (facUpdatePd_performs reg data).frame_starts hf hs⟩
    · exact .inr ⟨_, (facUpdatePd_performs reg data).frame_refused hf hn⟩
  | facNotify tag data =>
    rcases hinit with hi | hi
    · exact .inl ⟨_, (facNotify_performs tag data).line_starts hf hi⟩
    · exact .inr ⟨_, facNotify_refused tag data hf hi⟩
  | facUpdate tag reg data =>
    rcases hinit with hi | hi
    · rcases hsel with hs | hn
      · exact .inl ⟨_, facUpdate_starts hf hi hs⟩
      · exact .inr ⟨_, facUpdate_refused_while_selected hf hi hn⟩
    · exact .inr ⟨_, facUpdate_refused_before_init hf hi⟩
  | facSetWiper w1 w2 =>
    rcases hsel with hs | hn
    · exact .inl ⟨_, (facSetWiper_performs w1 w2).pot_starts hf hs⟩
    · exact .inr ⟨_, (facSetWiper_performs w1 w2).pot_refused hf hn⟩
  | irqSuppress => exact .inl ⟨_, exec_irqSuppress_idle hf⟩
  | irqRestore tok => exact .inl ⟨_, exec_irqRestore_idle tok hf⟩

end

/-! ### The agents and the step -/

/-- An agent beside the foreground goes on: a pending write is to a cell that exists (R142, R144). -/
theorem agentStep_goesOn {s : State} (e : Event) (hp : s.nvBusy = true → addrValid s.params s.nvAddr = true) :
    ∃ t, agentStep e s = .next t := by
  cases e with
  | nvu worn =>
    cases hb : s.nvBusy with
    | true => exact ⟨_, nvuStep_of_busy worn hb ((addrValid_iff _ _).1 (hp hb))⟩
    | false => exact ⟨_, nvuStep_of_idle worn hb⟩
  | _ => exact ⟨_, rfl⟩

/-- Only a word presented on `CMD` is refused before it runs a phase (R114, R115, R286). -/
theorem commandOf_ne_error {e : Event} {s : State} {r : Refusal} (he : ∀ w, e ≠ .command w) :
    commandOf e s ≠ .error r := by
  cases e with
  | command w => exact absurd rfl (he w)
  | fg => unfold commandOf; cases s.fg <;> nofun
  | _ => nofun

/-- A step in which a word is presented does not fault, whatever the state (R13, R280). -/
theorem step_word_ne_fault {s : State} {w : Word} (f : Fault) (he : s.event = .command w) : step s ≠ .fault f := by
  unfold step
  rw [he]
  cases hc : commandOf (.command w) s.takeEvent with
  | error r => nofun
  | ok o =>
    cases o with
    | none => nofun
    | some i =>
      rcases commandOf_some _ _ _ hc with ⟨-, -, hf, -⟩ | ⟨_, hfg, -⟩
      · rcases exec_idle_answers i hf with ⟨t, hx⟩ | ⟨r, hx⟩ <;> simp [hx]
      · cases hfg

/-! ### The statements -/

/-- Settles O59: the event of `FG` runs a phase of a command under way (`exec_underWay_goesOn`), every other event is an
agent's (`agentStep_goesOn`). -/
theorem acceptedCommandNeverRefused : Obligations.AcceptedCommandNeverRefused := by
  intro s h hw
  have htaken : s.takeEvent.Inv := h.takeEvent
  unfold step
  cases hc : commandOf s.event s.takeEvent with
  | error r => exact absurd hc (commandOf_ne_error hw)
  | ok o =>
    cases o with
    | none => exact agentStep_goesOn s.event htaken.pending
    | some i =>
      rcases commandOf_some _ _ _ hc with ⟨w, he, -⟩ | ⟨ph, -, hf⟩
      · exact absurd he (hw w)
      · exact exec_underWay_goesOn hf (htaken.underWay hf)

/-- Settles O58: a step that presents a word goes on or is refused, and every other step goes on (O59). -/
theorem stepNeverFaults : Obligations.StepNeverFaults := by
  intro s f h
  by_cases hw : ∃ w, s.event = .command w
  · obtain ⟨w, he⟩ := hw
    exact step_word_ne_fault f he
  · obtain ⟨t, ht⟩ := acceptedCommandNeverRefused s h (not_exists.1 hw)
    rw [ht]
    nofun

end Sys2Proof.Machine

/-! PROOF. Reset (R64, R320 to R323): a power-on with the parameters, the agenda and the cells kept, but for the cell of a
pending write. -/

namespace Sys2Proof.Machine

theorem step_reset {s : State} (h : s.event = .reset) : step s = .next (resetBlock s.takeEvent) := by
  simp [step, h, commandOf, agentStep]

/-- The one effect of a reset, with or without a write pending (R320). -/
theorem resetBlock_eq_powerOn (s : State) :
    ∃ nvm drawn, resetBlock s = State.powerOn s.params nvm s.agenda drawn s.turn := by
  rcases resetBlock_cases s with ⟨d, -, -, he⟩ | ⟨-, he⟩
  · exact ⟨_, _, he⟩
  · exact ⟨_, _, he⟩

/-- The one cell a reset can change is that of a pending write (R321, R323). -/
theorem cell_resetBlock {s : State} {b : Addr} (hb : s.nvBusy = false ∨ b ≠ s.nvAddr) :
    (resetBlock s).cell b = s.cell b := by
  rcases resetBlock_cases s with ⟨d, hbusy, -, he⟩ | ⟨-, he⟩
  · have hne : b ≠ s.nvAddr := hb.resolve_left (by simp [hbusy])
    rw [he]
    exact Memory.read_write_other _ _ _ _ _ fun hn => hne (BitVec.eq_of_toNat_eq hn)
  · rw [he]
    rfl

/-- A reset keeps the cells in canonical form: the byte it draws goes to a cell that exists (R323). -/
theorem wf_resetBlock {s : State} (hm : Memory.wf s.params s.nvm = true) :
    Memory.wf (resetBlock s).params (resetBlock s).nvm = true := by
  rcases resetBlock_cases s with ⟨d, -, hvalid, he⟩ | ⟨-, he⟩
  · rw [he]
    exact Memory.wf_write _ _ _ _ hm ((addrValid_iff _ _).1 hvalid)
  · rw [he]
    exact hm

/-- Settles O54: the cells come through a reset (`cell_resetBlock`, `wf_resetBlock`), and being a power-on it gives the
other elements their values of R64. -/
theorem resetKeepsCells : Obligations.ResetKeepsCells := by
  intro s es ha hm
  have hstep : step s = .next (resetBlock { s with agenda := es }) := by
    rw [step_reset (s.event_cons _ _ ha), s.takeEvent_cons _ _ ha]
  obtain ⟨nvm, drawn, he⟩ := resetBlock_eq_powerOn { s with agenda := es }
  refine ⟨_, hstep, resetBlock_params _, ?_, fun b hb => cell_resetBlock hb, wf_resetBlock hm, ?_⟩
  · rw [he]
    rfl
  · simp [he, State.powerOn]

/-- Settles O53: whether by power-on or by the port, the block is as a power-on leaves it. -/
theorem conditionAfterReset : Obligations.ConditionAfterReset := by
  intro t ht
  have hpowerOn : ∃ p nvm es drawn turn, t = State.powerOn p nvm es drawn turn := by
    rcases ht with rfl | ⟨s, hev, hs⟩
    · exact ⟨_, _, _, _, _, rfl⟩
    · rw [step_reset hev] at hs
      cases hs
      obtain ⟨nvm, drawn, he⟩ := resetBlock_eq_powerOn s.takeEvent
      exact ⟨_, _, _, _, _, he⟩
  obtain ⟨p, nvm, es, drawn, turn, rfl⟩ := hpowerOn
  simp [State.powerOn, State.outDirection, Sel.csPdN, Sel.csPot]

end Sys2Proof.Machine
